-- ==== Sys2Proof/Word.lean ====
section
/-! DEFINITION. The widths of the block's values (spec 00_scope R7, R8). Every value is unsigned. -/

namespace Sys2Proof

/-- A register, or the data of one host access: 32 bits (R7). -/
abbrev Word := BitVec 32

/-- An element of BYT, SYM, CHR or PKB: 8 bits (R7). -/
abbrev Byte := BitVec 8

/-- An element of BIT: 1 bit (R7). -/
abbrev Bit := BitVec 1

/-- An element of CODE, and the pattern of a DICT entry: 10 bits (R7). -/
abbrev Code := BitVec 10

/-- A 5-bit chunk of the Chunk Codec (R6, CHUNK_W). -/
abbrev Chunk := BitVec 5

end Sys2Proof
end

