-- ==== Sys2Proof/Machine/Tables.lean ====
section
/-! DEFINITION. The ROM tables of the build: CHUNK_TAB (spec 10_state R34), the key set K_CHUNK and the default
CHUNK_REV_LOWEST (R36, 42_chunk_codec R141), SYM_TAB (R37). Strings are lists of 8-bit character codes (00_scope R13). -/

namespace Sys2Proof.Machine

/-- The character '.' (00_scope R13). -/
abbrev dot : Byte := 0x2E#8

/-- The character ' ' (00_scope R13). -/
abbrev spc : Byte := 0x20#8

/-- CHUNK_TAB, in the order of the chunk values 0 to 31 (10_state R34). -/
def chunkTab : List (List Byte) :=
  [ [],                        -- 00000
    [dot],                     -- 00001
    [dot],                     -- 00010
    [dot, dot],                -- 00011
    [dot],                     -- 00100
    [dot, spc, dot],           -- 00101
    [dot, dot],                -- 00110
    [dot, dot, dot],           -- 00111
    [dot],                     -- 01000
    [dot, spc, dot],           -- 01001
    [dot, spc, dot],           -- 01010
    [dot, spc, dot, dot],      -- 01011
    [dot, dot],                -- 01100
    [dot, dot, spc, dot],      -- 01101
    [dot, dot, dot],           -- 01110
    [dot, dot, dot, dot],      -- 01111
    [dot],                     -- 10000
    [dot, spc, dot],           -- 10001
    [dot, spc, dot],           -- 10010
    [dot, spc, dot, dot],      -- 10011
    [dot, spc, dot],           -- 10100
    [dot, spc, dot, spc, dot], -- 10101
    [dot, spc, dot, dot],      -- 10110
    [dot, spc, dot, dot, dot], -- 10111
    [dot, dot],                -- 11000
    [dot, dot, spc, dot],      -- 11001
    [dot, dot, spc, dot],      -- 11010
    [dot, dot, spc, dot, dot], -- 11011
    [dot, dot, dot],           -- 11100
    [dot, dot, dot, spc, dot], -- 11101
    [dot, dot, dot, dot],      -- 11110
    [dot, dot, dot, dot, dot]  -- 11111
  ]

/-- `CHUNK_TAB[c]`. -/
def chunkString (c : Nat) : List Byte := chunkTab.getD c []

/-- K_CHUNK: the 12 distinct non-empty strings of CHUNK_TAB, in the column order of 10_state R36. The empty string is
no key (42_chunk_codec R141). -/
def chunkKeys : List (List Byte) :=
  [ [dot],
    [dot, dot],
    [dot, spc, dot],
    [dot, dot, dot],
    [dot, spc, dot, dot],
    [dot, dot, spc, dot],
    [dot, dot, dot, dot],
    [dot, spc, dot, spc, dot],
    [dot, spc, dot, dot, dot],
    [dot, dot, spc, dot, dot],
    [dot, dot, dot, spc, dot],
    [dot, dot, dot, dot, dot] ]

/-- CHUNK_REV_LOWEST, the default of the OPEN parameter CHUNK_REV, in the order of `chunkKeys` (10_state R36). -/
def chunkRevLowest : List Chunk :=
  [ 0b00001#5, 0b00011#5, 0b00101#5, 0b00111#5, 0b01011#5, 0b01101#5, 0b01111#5, 0b10101#5, 0b10111#5, 0b11011#5,
    0b11101#5, 0b11111#5 ]

/-- The chunk values that CHUNK_TAB maps to the string `k`: what CHUNK_REV may choose from (10_state R36). -/
def chunksOf (k : List Byte) : List Nat := (List.range 32).filter fun c => chunkString c == k

/-- SYM_TAB: each key string with its character (10_state R37). -/
def symTab : List (List Byte × Byte) :=
  [ ([dot], 0x2A#8),
    ([dot, dot], 0x25#8),
    ([dot, dot, dot], 0x24#8),
    ([dot, dot, dot, dot], 0x23#8),
    ([dot, dot, dot, dot, dot], 0x21#8),
    ([dot, spc, dot], 0x26#8) ]

/-- K_SYM: the six keys of SYM_TAB (43_symbol_codec R160). -/
def symKeys : List (List Byte) := symTab.map (·.1)

/-- `SYM_TAB[k]` for a key `k` (43_symbol_codec R160). -/
def symChar (k : List Byte) : Byte := (symTab.lookup k).getD 0#8

/-- The key whose SYM_TAB character is `ch`; `none` where `ch` is none of the six characters K_CHR
(43_symbol_codec R161). -/
def symKeyOf (ch : Byte) : Option (List Byte) := (symTab.find? fun e => e.2 == ch).map (·.1)

end Sys2Proof.Machine
end

