-- ==== Sys2Proof/Config.lean ====
section
/-! DEFINITION. What the build fixes (spec 00_scope R6, 70_reset_and_hazards R234) and the values the spec leaves free
(93_implementation_defined, sections 1 and 2). -/

namespace Sys2Proof

/-- The six element buffers (10_state R30), in the order of their buffer ids. -/
inductive Buf where
  | byt | bit | sym | chr | code | pkb
deriving DecidableEq, Repr

/-- PACK_TAIL: where PACK puts the bits of the final partial byte (44_block_codec R172). -/
inductive PackTail where
  | msb | lsb
deriving DecidableEq, Repr, Inhabited

/-- The OPEN parameters of 00_scope R6. A model takes them as an argument and holds them fixed for a whole run
(70_reset_and_hazards R234). DESIGN CHOICE (log 1): `State` carries them in its field `params`, which no step changes. -/
structure Params where
  capByt : Nat
  capBit : Nat
  capSym : Nat
  capChr : Nat
  capCode : Nat
  capPkb : Nat
  /-- NORM_CTRL, one byte for each of the codes 0 to 15, then 27, then 127 (40_normalizer R101). -/
  normCtrl : List Byte
  /-- NORM_LIN_OFFSET (40_normalizer R102). -/
  normLinOffset : Nat
  /-- CHUNK_REV, one chunk for each key of `Machine.chunkKeys`, in that order (10_state R36). -/
  chunkRev : List Chunk
  packTail : PackTail
  /-- BASE (20_memory R50). -/
  base : Nat
deriving DecidableEq, Repr

/-- CAP_X of each buffer (00_scope R6). -/
def Params.cap (p : Params) : Buf → Nat
  | .byt => p.capByt
  | .bit => p.capBit
  | .sym => p.capSym
  | .chr => p.capChr
  | .code => p.capCode
  | .pkb => p.capPkb

/-! The parameters of the machine that `State.reset` describes. Each is built from an opaque constant so that it takes
every value its constraint allows and no proof can learn which (log 1). -/

opaque Config.rawCap : Buf → BitVec 22
opaque Config.rawCtrl : Nat → Fin 95
opaque Config.rawOffset : Fin 80
opaque Config.rawRev : Nat → Nat
opaque Config.packTail : PackTail
opaque Config.rawBase : Nat

/-- A capacity in [1, 2^22] (00_scope R6). -/
def Config.cap (b : Buf) : Nat := 2 ^ 22 - (Config.rawCap b).toNat

/-- NORM_CTRL: 18 bytes in [32,126], with NORM_CTRL(0) = 48 and NORM_CTRL(10) = 32 (40_normalizer R101). -/
def Config.normCtrl : List Byte :=
  (List.range 18).map fun j =>
    if j = 0 then 48#8 else if j = 10 then 32#8 else BitVec.ofNat 8 (32 + (Config.rawCtrl j).val)

/-- CHUNK_REV: for each key, one of the chunks that CHUNK_TAB maps to it (10_state R36). -/
def Config.chunkRev : List Chunk :=
  Machine.chunkKeys.zipIdx.map fun e =>
    let cs := Machine.chunksOf e.1
    BitVec.ofNat 5 (cs.getD (Config.rawRev e.2 % cs.length) 0)

/-- The build that `State.reset` describes: any values that meet the constraints of 00_scope R6. -/
def Config.params : Params where
  capByt := Config.cap .byt
  capBit := Config.cap .bit
  capSym := Config.cap .sym
  capChr := Config.cap .chr
  capCode := Config.cap .code
  capPkb := Config.cap .pkb
  normCtrl := Config.normCtrl
  normLinOffset := 16 + Config.rawOffset.val
  chunkRev := Config.chunkRev
  packTail := Config.packTail
  base := 2 ^ 27 * Config.rawBase

/-! The free values. None has a body: a claim is true whatever they are. -/

/-- The unspecified content that element `i` of buffer `b` holds after the reset numbered `epoch`, of which the element
keeps its low bits (93 I2, I5; log 5). -/
opaque Config.unspecified (epoch : Nat) (b : Buf) (i : Nat) : Word

/-- What a read answers, while the engine is busy, for something that the running command writes (93 I3; log 6). -/
opaque Config.busyRead (draw : Nat) : Word

/-- Whether the engine takes a requested abort before the command's own end (93 I4; log 7). -/
opaque Config.abortTaken (draw : Nat) : Bool

end Sys2Proof
end

