-- ==== Sys2Proof/Syntax.lean ====
section
/-! DEFINITION. The commands, one constructor for each row of spec/opcode_table.json (30_encoding R74, R80), and what can
happen at the block's port (20_memory R51, 60_exceptions R220). -/

namespace Sys2Proof

/-- A command. Operands are implicit (30_encoding R72); the modes of DESER and PAD are rows of their own (R77). -/
inductive Instr where
  | norm | valid | remap
  | ser | deserTrunc | deserPadb | pad8 | pad5 | pad10 | trim | a2b | b2a
  | cenc | cdec
  | senc | sdec
  | pack | unpack | blkenc | blkdec | bcomp | bdecomp
deriving DecidableEq, Repr

/-- Every command once, in the table's order. -/
def Instr.all : List Instr :=
  [.norm, .valid, .remap, .ser, .deserTrunc, .deserPadb, .pad8, .pad5, .pad10, .trim, .a2b, .b2a, .cenc, .cdec, .senc,
    .sdec, .pack, .unpack, .blkenc, .blkdec, .bcomp, .bdecomp]

/-- The three fields of a command word (30_encoding R71). -/
structure CmdFields where
  rsvd : BitVec 20
  mode : BitVec 4
  opc : BitVec 8
deriving DecidableEq, Repr

/-- A host access: its bus address, its width in bytes, and for a write the 32-bit value (20_memory R51). -/
inductive Access where
  | read (addr bytes : Nat)
  | write (addr bytes : Nat) (v : Word)
deriving DecidableEq, Repr

def Access.addr : Access → Nat
  | .read a _ => a
  | .write a _ _ => a

def Access.bytes : Access → Nat
  | .read _ n => n
  | .write _ n _ => n

/-- What can happen next at the block: a host access, a turn of the engine between two accesses, or the platform
asserting the hardware reset (00_scope R15, 70_reset_and_hazards R230). DESIGN CHOICE (log 2). -/
inductive Event where
  | access (a : Access)
  | engine
  | hardReset
deriving DecidableEq, Repr

end Sys2Proof
end

