-- ==== Sys2Proof/WellFormed.lean ====
section
/-! DEFINITION. Which command fields, accesses and parameter sets the spec admits. -/

namespace Sys2Proof

/-- The legal MODE values of each operation code; `none` where the code is no row of the map (30_encoding R74, R75). -/
def legalModes (opc : Nat) : Option (List Nat) :=
  if opc ∈ [0x01, 0x02, 0x03, 0x10, 0x13, 0x14, 0x15, 0x20, 0x21, 0x30, 0x31, 0x40, 0x41, 0x42, 0x43, 0x44, 0x45] then
    some [0]
  else if opc = 0x11 then some [0, 1]
  else if opc = 0x12 then some [0, 1, 2]
  else none

/-- RSVD must be 0 (30_encoding R71, R73 item 1). -/
def CmdFields.rsvdOk (f : CmdFields) : Bool := f.rsvd == 0

/-- OPC is a row of the opcode map (30_encoding R73 item 2). -/
def CmdFields.opcOk (f : CmdFields) : Bool := (legalModes f.opc.toNat).isSome

/-- MODE is one of the row's legal values (30_encoding R73 item 3). -/
def CmdFields.modeOk (f : CmdFields) : Bool := ((legalModes f.opc.toNat).getD []).contains f.mode.toNat

/-- The three checks of 30_encoding R73. -/
def CmdFields.wf (f : CmdFields) : Bool := f.rsvdOk && f.opcOk && f.modeOk

/-- OPC of each command (30_encoding R74). -/
def Instr.opc : Instr → BitVec 8
  | .norm => 0x01 | .valid => 0x02 | .remap => 0x03
  | .ser => 0x10 | .deserTrunc => 0x11 | .deserPadb => 0x11
  | .pad8 => 0x12 | .pad5 => 0x12 | .pad10 => 0x12
  | .trim => 0x13 | .a2b => 0x14 | .b2a => 0x15
  | .cenc => 0x20 | .cdec => 0x21
  | .senc => 0x30 | .sdec => 0x31
  | .pack => 0x40 | .unpack => 0x41 | .blkenc => 0x42 | .blkdec => 0x43 | .bcomp => 0x44 | .bdecomp => 0x45

/-- MODE of each command (30_encoding R75). -/
def Instr.mode : Instr → BitVec 4
  | .deserPadb => 1
  | .pad5 => 1
  | .pad10 => 2
  | .norm | .valid | .remap | .ser | .deserTrunc | .pad8 | .trim | .a2b | .b2a | .cenc | .cdec | .senc | .sdec | .pack
  | .unpack | .blkenc | .blkdec | .bcomp | .bdecomp => 0

/-- The fields of a command's word. -/
def Instr.fields (i : Instr) : CmdFields := ⟨0, i.mode, i.opc⟩

/-- A command is well formed when its fields pass the checks; every constructor is. -/
def Instr.wf (i : Instr) : Bool := i.fields.wf

/-- An admitted access is 4 bytes wide (20_memory R52). -/
def Access.widthOk (a : Access) : Bool := a.bytes == 4

/-- An admitted access is aligned to 4 bytes (20_memory R52). BASE is aligned to 2^27, so an address and its offset
agree here. -/
def Access.aligned (a : Access) : Bool := a.addr % 4 == 0

/-- The accesses the spec admits (20_memory R52). -/
def Access.wf (a : Access) : Bool := a.widthOk && a.aligned

/-- Every capacity lies in [1, 2^22] (00_scope R6). -/
def Params.capsOk (p : Params) : Bool :=
  [p.capByt, p.capBit, p.capSym, p.capChr, p.capCode, p.capPkb].all fun n => decide (1 ≤ n) && decide (n ≤ 2 ^ 22)

/-- The constraints on NORM_CTRL (40_normalizer R101). -/
def Params.normCtrlOk (p : Params) : Bool :=
  p.normCtrl.length == 18 && p.normCtrl.all (fun b => decide (32 ≤ b.toNat) && decide (b.toNat ≤ 126)) &&
    p.normCtrl.getD 0 0 == 48#8 && p.normCtrl.getD 10 0 == 32#8

/-- The constraint on NORM_LIN_OFFSET (40_normalizer R102). -/
def Params.offsetOk (p : Params) : Bool := decide (16 ≤ p.normLinOffset) && decide (p.normLinOffset ≤ 95)

/-- The constraint on CHUNK_REV: `CHUNK_TAB[CHUNK_REV(s)] = s` for each of the 12 keys (10_state R36). -/
def Params.chunkRevOk (p : Params) : Bool := p.chunkRev.map (fun c => Machine.chunkString c.toNat) == Machine.chunkKeys

/-- BASE is aligned to 2^27 (20_memory R50). -/
def Params.baseOk (p : Params) : Bool := p.base % 2 ^ 27 == 0

/-- The constraints on the OPEN parameters, which are part of the spec (00_scope R6). -/
def Params.wf (p : Params) : Bool := p.capsOk && p.normCtrlOk && p.offsetOk && p.chunkRevOk && p.baseOk

end Sys2Proof
end

