-- ==== Sys2Proof/Decode.lean ====
section
/-! DEFINITION. Decoding a command word in the order of 30_encoding R73, and the encoder from the words of R80. -/

namespace Sys2Proof

/-- Why a word is illegal: the first of the three checks of 30_encoding R73 that it fails. -/
inductive DecodeError where
  /-- RSVD ≠ 0 (R73 item 1). -/
  | reservedBits
  /-- OPC is no row of R74 (R73 item 2). -/
  | unknownOpcode
  /-- MODE is not legal for the row (R73 item 3). -/
  | illegalMode
deriving DecidableEq, Repr

/-- The fields of a word: OPC in bits 7:0, MODE in bits 11:8, RSVD in bits 31:12 (30_encoding R71). -/
def fieldsOf (w : Word) : CmdFields := ⟨w.extractLsb' 12 20, w.extractLsb' 8 4, w.extractLsb' 0 8⟩

/-- The opcode map: each OPC with its legal MODE values and the command each selects (30_encoding R74, R75). -/
def opcodeMap : List (Nat × List (Nat × Instr)) :=
  [ (0x01, [(0, .norm)]),
    (0x02, [(0, .valid)]),
    (0x03, [(0, .remap)]),
    (0x10, [(0, .ser)]),
    (0x11, [(0, .deserTrunc), (1, .deserPadb)]),
    (0x12, [(0, .pad8), (1, .pad5), (2, .pad10)]),
    (0x13, [(0, .trim)]),
    (0x14, [(0, .a2b)]),
    (0x15, [(0, .b2a)]),
    (0x20, [(0, .cenc)]),
    (0x21, [(0, .cdec)]),
    (0x30, [(0, .senc)]),
    (0x31, [(0, .sdec)]),
    (0x40, [(0, .pack)]),
    (0x41, [(0, .unpack)]),
    (0x42, [(0, .blkenc)]),
    (0x43, [(0, .blkdec)]),
    (0x44, [(0, .bcomp)]),
    (0x45, [(0, .bdecomp)]) ]

/-- Decoding in the order of 30_encoding R73. -/
def decode (w : Word) : Except DecodeError Instr :=
  let f := fieldsOf w
  if f.rsvd ≠ 0 then .error .reservedBits
  else
    match opcodeMap.lookup f.opc.toNat with
    | none => .error .unknownOpcode
    | some row =>
      match row.lookup f.mode.toNat with
      | none => .error .illegalMode
      | some i => .ok i

/-- The word of each command (30_encoding R80). -/
def encode : Instr → Word
  | .norm => 0x00000001
  | .valid => 0x00000002
  | .remap => 0x00000003
  | .ser => 0x00000010
  | .deserTrunc => 0x00000011
  | .deserPadb => 0x00000111
  | .pad8 => 0x00000012
  | .pad5 => 0x00000112
  | .pad10 => 0x00000212
  | .trim => 0x00000013
  | .a2b => 0x00000014
  | .b2a => 0x00000015
  | .cenc => 0x00000020
  | .cdec => 0x00000021
  | .senc => 0x00000030
  | .sdec => 0x00000031
  | .pack => 0x00000040
  | .unpack => 0x00000041
  | .blkenc => 0x00000042
  | .blkdec => 0x00000043
  | .bcomp => 0x00000044
  | .bdecomp => 0x00000045

/-- The word that an opcode-table row's `nbits` low bits `w` stand for. A command is one 32-bit word, and the block
defines no byte order inside it (20_memory R59). -/
def tableWord (nbits w : Nat) : Word := BitVec.ofNat 32 (w % 2 ^ nbits)

/-- The command the decoder reads from a row of the opcode table. -/
def decodeTableWord (nbits w : Nat) : Option Instr :=
  match decode (tableWord nbits w) with
  | .ok i => some i
  | .error _ => none

end Sys2Proof
end

