-- ==== Sys2Proof/Machine/State.lean ====
section
/-! DEFINITION. The state of the block (spec 10_state), its reset, and why a step can stop. State is plain data. -/

namespace Sys2Proof.Machine

/-- A buffer or a table: (index, value) pairs. Their one canonical form is `Memory.wf`. `Cells Byte` is a list of
`Host.Cell`. -/
abbrev Cells (α : Type) := List (Nat × α)

/-- The indexes rise strictly. -/
abbrev Cells.Rising {α : Type} (c : Cells α) : Prop := c.Pairwise fun a b => a.1 < b.1

/-- Every index is below `n`. -/
abbrev Cells.Below {α : Type} (n : Nat) (c : Cells α) : Prop := ∀ e ∈ c, e.1 < n

/-- No listed value is `d`, the value of an unlisted index. -/
abbrev Cells.Never {α : Type} (d : α) (c : Cells α) : Prop := ∀ e ∈ c, e.2 ≠ d

/-- An entry of MAP (10_state R32). -/
structure MapEntry where
  valid : Bool
  value : Byte
deriving DecidableEq, Repr

/-- An entry of DICT (10_state R33). -/
structure DictEntry where
  valid : Bool
  pat : Code
deriving DecidableEq, Repr

/-- MAP entries are 0 after reset (10_state R32). -/
abbrev MapEntry.empty : MapEntry := ⟨false, 0⟩

/-- DICT entries are 0 after reset (10_state R33). -/
abbrev DictEntry.empty : DictEntry := ⟨false, 0⟩

/-- The six element buffers (10_state R30) and the tables HIST, MAP and DICT (R31 to R33). An unlisted table entry is 0.
An unlisted buffer element holds the unspecified content it got at the reset numbered `epoch` (R40, 93 I2; log 5). -/
structure Memory where
  byt : Cells Byte
  bit : Cells Bit
  sym : Cells Byte
  chr : Cells Byte
  code : Cells Code
  pkb : Cells Byte
  hist : Cells Word
  map : Cells MapEntry
  dict : Cells DictEntry
  /-- The model's own field (log 5, log 8). -/
  epoch : Nat
deriving DecidableEq, Repr

/-- The one canonical form of the memory: indexes strictly rising, table indexes in range, and no table entry equal to
what an unlisted entry reads as. (An unlisted buffer element reads as no value that an entry could equal: log 5.) -/
abbrev Memory.wf (m : Memory) : Prop :=
  m.byt.Rising ∧ m.bit.Rising ∧ m.sym.Rising ∧ m.chr.Rising ∧ m.code.Rising ∧ m.pkb.Rising ∧
    (m.hist.Rising ∧ Cells.Below 256 m.hist ∧ Cells.Never 0#32 m.hist) ∧
    (m.map.Rising ∧ Cells.Below 256 m.map ∧ Cells.Never MapEntry.empty m.map) ∧
    (m.dict.Rising ∧ Cells.Below 1024 m.dict ∧ Cells.Never DictEntry.empty m.dict)

/-- What commands read and write: the length, count and statistics registers (10_state R26 to R28) and the memory. -/
structure Data where
  lenByt : Word
  lenBit : Word
  lenSym : Word
  lenChr : Word
  lenCode : Word
  lenPkb : Word
  padCnt : Word
  totalBytes : Word
  convBytes : Word
  mem : Memory
deriving DecidableEq, Repr

/-- The length register of each buffer (10_state R26). -/
def Data.len (d : Data) : Buf → Word
  | .byt => d.lenByt
  | .bit => d.lenBit
  | .sym => d.lenSym
  | .chr => d.lenChr
  | .code => d.lenCode
  | .pkb => d.lenPkb

/-- ENGINE: idle, or busy with the command word in flight and the snapshot it was issued against (10_state R38). -/
inductive Engine where
  | idle
  | busy (cmd : Word) (snapshot : Data)
deriving DecidableEq, Repr

/-- The block, with the build parameters it is run with and the model's own fields. -/
structure State where
  /-- The OPEN parameters (log 1). No step changes them. The capacity registers are hardwired to them (10_state R29). -/
  params : Params
  /-- CMD (10_state R21). -/
  cmd : Word
  /-- STATUS (10_state R23). -/
  status : Word
  /-- ERR_CODE, ERR_POS and ERR_VAL (10_state R25). -/
  errCode : Word
  errPos : Word
  errVal : Word
  /-- The registers and the memory that commands work on. -/
  data : Data
  /-- ENGINE and ABORT_REQ (10_state R38). -/
  engine : Engine
  abortReq : Bool
  /-- What happens at the port next, first entry first. The model's own field (log 2). -/
  inbox : List Event
  /-- The words the port has answered to host reads, oldest first. The model's own field (log 4). -/
  replies : List Word
  /-- How many free values the run has used. The model's own field (log 6, log 7). -/
  draws : Nat
deriving DecidableEq, Repr

/-- Why a step can fault. The block has no behaviour that takes the treatment `fault` or `stuck`
(93_implementation_defined, section 1), so no constructor exists and no step faults (log 17). Safe: the spec gives every
access and every command a next state or a refusal. -/
inductive Fault where
deriving DecidableEq, Repr

/-- Why a step can be refused. -/
inductive Refusal where
  /-- An instruction without a meaning, by its mnemonic. No arm of `exec` raises it: every command is modelled. Safe. -/
  | notModelled (mnemonic : String)
  /-- A host access whose width is not 4 bytes, raised by the port: a model must refuse it (20_memory R52, 93 I1).
  Safe. -/
  | accessNotWord
  /-- A 4-byte host access that is not aligned to 4 bytes, raised by the port (20_memory R52, 93 I1). Safe. -/
  | accessMisaligned
deriving DecidableEq, Repr

/-- The memory right after the reset numbered `epoch`: HIST, MAP and DICT all 0, buffer elements unspecified
(10_state R40). -/
def Memory.afterReset (epoch : Nat) : Memory where
  byt := []
  bit := []
  sym := []
  chr := []
  code := []
  pkb := []
  hist := []
  map := []
  dict := []
  epoch := epoch

/-- The registers that commands work on and the memory right after a reset (10_state R40). -/
def Data.afterReset (epoch : Nat) : Data where
  lenByt := 0
  lenBit := 0
  lenSym := 0
  lenChr := 0
  lenCode := 0
  lenPkb := 0
  padCnt := 0
  totalBytes := 0
  convBytes := 0
  mem := Memory.afterReset epoch

/-- The machine built with `p`, right after reset (10_state R40). -/
def State.resetWith (p : Params) : State where
  params := p
  cmd := 0
  status := 0
  errCode := 0
  errPos := 0
  errVal := 0
  data := Data.afterReset 0
  engine := .idle
  abortReq := false
  inbox := []
  replies := []
  draws := 0

/-- The machine right after reset, for a build of which nothing is known but the constraints of 00_scope R6 (log 1). -/
def State.reset : State := State.resetWith Config.params

end Sys2Proof.Machine
end

