-- ==== Sys2Proof/Machine/Flags.lean ====
section
/-! DEFINITION. STATUS (spec 10_state R23) and the error codes (60_exceptions R200). -/

namespace Sys2Proof.Machine

/-- A STATUS word: BUSY in bit 0, DONE in bit 1, ERR in bit 2, the rest 0 (10_state R23). -/
def statusWord (busy done err : Bool) : Word :=
  BitVec.ofNat 32 (busy.toNat + 2 * done.toNat + 4 * err.toNat)

/-- STATUS.BUSY (10_state R23). -/
def State.busyBit (s : State) : Bool := s.status.getLsbD 0

/-- STATUS.DONE (10_state R23). -/
def State.doneBit (s : State) : Bool := s.status.getLsbD 1

/-- STATUS.ERR (10_state R23). -/
def State.errBit (s : State) : Bool := s.status.getLsbD 2

/-- The errors a command can end with (60_exceptions R200). -/
inductive ErrCode where
  | invalidInput | dictLookup | capacity | padRange | illegalCmd | aborted
deriving DecidableEq, Repr

/-- The number that ERR_CODE holds (60_exceptions R200). -/
def errCodeNumber : ErrCode → Nat
  | .invalidInput => 1
  | .dictLookup => 2
  | .capacity => 3
  | .padRange => 4
  | .illegalCmd => 5
  | .aborted => 6

/-- The number of each buffer in ERR_VAL of a CAPACITY error (60_exceptions R201). -/
def bufId : Buf → Nat
  | .byt => 1
  | .bit => 2
  | .sym => 3
  | .chr => 4
  | .code => 5
  | .pkb => 6

end Sys2Proof.Machine
end

