-- ==== Sys2Proof/Machine/Ops.lean ====
section
/-! DEFINITION. The named operations over memory and registers: reading and writing buffers and tables, staging and
`emit`, and how a command ends (spec 00_scope R11, R12; 60_exceptions R205, R206, R212). -/

namespace Sys2Proof.Machine

/-! ### Cells -/

/-- The value listed for index `i`. -/
def Cells.find {α : Type} (i : Nat) : Cells α → Option α
  | [] => none
  | e :: rest => if e.1 = i then some e.2 else Cells.find i rest

/-- `c` with `x` at index `i`, indexes kept in rising order. -/
def Cells.put {α : Type} (i : Nat) (x : α) : Cells α → Cells α
  | [] => [(i, x)]
  | e :: rest =>
    if i < e.1 then (i, x) :: e :: rest
    else if i = e.1 then (i, x) :: rest
    else e :: Cells.put i x rest

/-- `c` with index `i` unlisted. -/
def Cells.unlist {α : Type} (i : Nat) (c : Cells α) : Cells α := c.filter fun e => e.1 ≠ i

/-- `c` with its elements 0 to `xs.length - 1` replaced by `xs`, the others kept (10_state R30). -/
def Cells.putPrefix {α : Type} (xs : List α) (c : Cells α) : Cells α :=
  xs.zipIdx.map (fun e => (e.2, e.1)) ++ c.filter fun e => decide (xs.length ≤ e.1)

/-- A table entry; an unlisted one is `d`. -/
def Cells.entry {α : Type} (d : α) (i : Nat) (c : Cells α) : α := (Cells.find i c).getD d

/-- A table write; storing `d` unlists the entry, so that equal tables are equal lists. -/
def Cells.setEntry {α : Type} [DecidableEq α] (d : α) (i : Nat) (x : α) (c : Cells α) : Cells α :=
  if x = d then Cells.unlist i c else Cells.put i x c

/-! ### Buffer elements and table entries -/

/-- `BYT[i]`; an element not written since the reset holds an unspecified byte (10_state R30, R40; log 5). -/
def Memory.bytAt (m : Memory) (i : Nat) : Byte :=
  (Cells.find i m.byt).getD ((Config.unspecified m.epoch .byt i).setWidth 8)

/-- `BIT[i]` (10_state R30, R40; log 5). -/
def Memory.bitAt (m : Memory) (i : Nat) : Bit :=
  (Cells.find i m.bit).getD ((Config.unspecified m.epoch .bit i).setWidth 1)

/-- `SYM[i]` (10_state R30, R40; log 5). -/
def Memory.symAt (m : Memory) (i : Nat) : Byte :=
  (Cells.find i m.sym).getD ((Config.unspecified m.epoch .sym i).setWidth 8)

/-- `CHR[i]` (10_state R30, R40; log 5). -/
def Memory.chrAt (m : Memory) (i : Nat) : Byte :=
  (Cells.find i m.chr).getD ((Config.unspecified m.epoch .chr i).setWidth 8)

/-- `CODE[i]` (10_state R30, R40; log 5). -/
def Memory.codeAt (m : Memory) (i : Nat) : Code :=
  (Cells.find i m.code).getD ((Config.unspecified m.epoch .code i).setWidth 10)

/-- `PKB[i]` (10_state R30, R40; log 5). -/
def Memory.pkbAt (m : Memory) (i : Nat) : Byte :=
  (Cells.find i m.pkb).getD ((Config.unspecified m.epoch .pkb i).setWidth 8)

/-- `HIST[b]` (10_state R31). -/
def Memory.histAt (m : Memory) (b : Nat) : Word := Cells.entry 0 b m.hist

/-- `MAP[b]` (10_state R32). -/
def Memory.mapAt (m : Memory) (b : Nat) : MapEntry := Cells.entry MapEntry.empty b m.map

/-- `DICT[c]` (10_state R33). -/
def Memory.dictAt (m : Memory) (c : Nat) : DictEntry := Cells.entry DictEntry.empty c m.dict

/-- Element `i` of buffer `b`, zero-extended to a word (20_memory R54). This is the model's read of one element. -/
def Memory.elem (m : Memory) (b : Buf) (i : Nat) : Word :=
  match b with
  | .byt => (m.bytAt i).setWidth 32
  | .bit => (m.bitAt i).setWidth 32
  | .sym => (m.symAt i).setWidth 32
  | .chr => (m.chrAt i).setWidth 32
  | .code => (m.codeAt i).setWidth 32
  | .pkb => (m.pkbAt i).setWidth 32

/-- A host write of `v` to element `i` of buffer `b`: the low E_X bits are kept (20_memory R54, R55). -/
def Memory.setElem (m : Memory) (b : Buf) (i : Nat) (v : Word) : Memory :=
  match b with
  | .byt => { m with byt := Cells.put i (v.setWidth 8) m.byt }
  | .bit => { m with bit := Cells.put i (v.setWidth 1) m.bit }
  | .sym => { m with sym := Cells.put i (v.setWidth 8) m.sym }
  | .chr => { m with chr := Cells.put i (v.setWidth 8) m.chr }
  | .code => { m with code := Cells.put i (v.setWidth 10) m.code }
  | .pkb => { m with pkb := Cells.put i (v.setWidth 8) m.pkb }

/-- A MAP entry as the host reads it: V in bit 8, VALUE in bits 7:0 (10_state R32, 20_memory R57). -/
def mapEntryWord (e : MapEntry) : Word := BitVec.ofNat 32 (256 * e.valid.toNat + e.value.toNat)

/-- The MAP entry that a host write of `v` stores (10_state R32, 20_memory R57). -/
def mapEntryOf (v : Word) : MapEntry := ⟨v.getLsbD 8, v.setWidth 8⟩

/-- A DICT entry as the host reads it: V in bit 15, PAT in bits 9:0 (10_state R33, 20_memory R57). -/
def dictEntryWord (e : DictEntry) : Word := BitVec.ofNat 32 (32768 * e.valid.toNat + e.pat.toNat)

/-- The DICT entry that a host write of `v` stores (10_state R33, 20_memory R57). -/
def dictEntryOf (v : Word) : DictEntry := ⟨v.getLsbD 15, v.setWidth 10⟩

def Memory.setMap (m : Memory) (b : Nat) (e : MapEntry) : Memory :=
  { m with map := Cells.setEntry MapEntry.empty b e m.map }

def Memory.setDict (m : Memory) (c : Nat) (e : DictEntry) : Memory :=
  { m with dict := Cells.setEntry DictEntry.empty c e m.dict }

/-- A host write of `v` to a length register stores `min(v, CAP_X)` (10_state R26). -/
def clampLen (cap : Nat) (v : Word) : Word := BitVec.ofNat 32 (min v.toNat cap)

/-- `d` with the length register of buffer `b` at `v`. -/
def Data.setLen (d : Data) (b : Buf) (v : Word) : Data :=
  match b with
  | .byt => { d with lenByt := v }
  | .bit => { d with lenBit := v }
  | .sym => { d with lenSym := v }
  | .chr => { d with lenChr := v }
  | .code => { d with lenCode := v }
  | .pkb => { d with lenPkb := v }

/-! ### Errors and staging -/

/-- `raise E(pos, val)` (00_scope R11). -/
structure Raise where
  code : ErrCode
  pos : Nat
  val : Nat
deriving DecidableEq, Repr

/-- `emit(D, x)` at the source position `pos`: append to the staged copy of `b`, or raise CAPACITY when the staged copy is
full (00_scope R11, 60_exceptions R202; log 16). -/
def emit {α : Type} (p : Params) (b : Buf) (pos : Nat) (staged : List α) (x : α) : Except Raise (List α) :=
  if p.cap b ≤ staged.length then .error ⟨.capacity, pos, bufId b⟩ else .ok (staged ++ [x])

/-- `emit` for each of several elements, in order, at one source position. -/
def emitAll {α : Type} (p : Params) (b : Buf) (pos : Nat) : List α → List α → Except Raise (List α)
  | staged, [] => .ok staged
  | staged, x :: xs =>
    match emit p b pos staged x with
    | .ok staged' => emitAll p b pos staged' xs
    | .error e => .error e

/-- `for i in 0..n` over the elements of a sequence: `body i x` for each in order, from index `i` on, stopping at the first
`raise` (00_scope R11, 60_exceptions R207 item 2). -/
def forEach {α σ : Type} (body : Nat → α → σ → Except Raise σ) : Nat → List α → σ → Except Raise σ
  | _, [], st => .ok st
  | i, x :: xs, st =>
    match body i x st with
    | .ok st' => forEach body (i + 1) xs st'
    | .error e => .error e

/-- What a command stages: the new contents of each destination, `none` where the command does not write it
(00_scope R12, 30_encoding R74). -/
structure Staged where
  byt : Option (List Byte) := none
  bit : Option (List Bit) := none
  sym : Option (List Byte) := none
  chr : Option (List Byte) := none
  code : Option (List Code) := none
  pkb : Option (List Byte) := none
  hist : Option (Cells Word) := none
  lenByt : Option Word := none
  lenBit : Option Word := none
  lenSym : Option Word := none
  lenChr : Option Word := none
  lenCode : Option Word := none
  lenPkb : Option Word := none
  padCnt : Option Word := none
  totalBytes : Option Word := none
  convBytes : Option Word := none
deriving DecidableEq, Repr

/-- A staged buffer over the committed one. -/
def Cells.commit {α : Type} (staged : Option (List α)) (c : Cells α) : Cells α :=
  match staged with
  | none => c
  | some xs => Cells.putPrefix xs c

/-- The committed memory after `commit`. MAP and DICT are written by no command (10_state R32, R33). -/
def Memory.commit (m : Memory) (st : Staged) : Memory where
  byt := Cells.commit st.byt m.byt
  bit := Cells.commit st.bit m.bit
  sym := Cells.commit st.sym m.sym
  chr := Cells.commit st.chr m.chr
  code := Cells.commit st.code m.code
  pkb := Cells.commit st.pkb m.pkb
  hist := st.hist.getD m.hist
  map := m.map
  dict := m.dict
  epoch := m.epoch

/-- `commit`: every staged destination is written at once (00_scope R11, 60_exceptions R206). -/
def Data.commit (d : Data) (st : Staged) : Data where
  lenByt := st.lenByt.getD d.lenByt
  lenBit := st.lenBit.getD d.lenBit
  lenSym := st.lenSym.getD d.lenSym
  lenChr := st.lenChr.getD d.lenChr
  lenCode := st.lenCode.getD d.lenCode
  lenPkb := st.lenPkb.getD d.lenPkb
  padCnt := st.padCnt.getD d.padCnt
  totalBytes := st.totalBytes.getD d.totalBytes
  convBytes := st.convBytes.getD d.convBytes
  mem := d.mem.commit st

/-! ### Issue, end and reset -/

/-- Command issue: what a write of `w` to CMD does while the engine is idle (30_encoding R70). -/
def State.issue (s : State) (w : Word) : State :=
  { s with
    cmd := w
    status := statusWord true false false
    errCode := 0
    errPos := 0
    errVal := 0
    engine := .busy w s.data
    abortReq := false }

/-- The error end, the block's form of taking an exception: the error registers and STATUS are written, everything staged
is discarded, CMD is kept, the engine goes idle (60_exceptions R205). -/
def State.endErr (s : State) (e : Raise) : State :=
  { s with
    errCode := BitVec.ofNat 32 (errCodeNumber e.code)
    errPos := BitVec.ofNat 32 e.pos
    errVal := BitVec.ofNat 32 e.val
    status := statusWord false true true
    engine := .idle
    abortReq := false }

/-- The normal end: every staged destination is committed at once, the error registers stay as issue left them
(60_exceptions R206). -/
def State.endOk (s : State) (st : Staged) : State :=
  { s with
    data := s.data.commit st
    status := statusWord false true false
    engine := .idle
    abortReq := false }

/-- A command reaches `commit` or `raise` (60_exceptions R205, R206). -/
def State.complete (s : State) (r : Except Raise Staged) : State :=
  match r with
  | .ok st => s.endOk st
  | .error e => s.endErr e

/-- One free value used. -/
def State.draw (s : State) : State := { s with draws := s.draws + 1 }

/-- How a command ends whose own outcome is `r`. While ABORT_REQ = 1 the engine may take the abort first; whether it does
is a free value (60_exceptions R212, 93 I4; log 7). -/
def State.finish (s : State) (r : Except Raise Staged) : State :=
  if s.abortReq then
    if Config.abortTaken s.draws then s.draw.endErr ⟨.aborted, 0, 0⟩ else s.draw.complete r
  else s.complete r

/-- The operands of a command: the snapshot it was issued against (00_scope R12, 20_memory R66). In a state whose engine
is idle, in which no step calls a command's meaning, the committed data (log 12). -/
def State.operands (s : State) : Data :=
  match s.engine with
  | .busy _ snapshot => snapshot
  | .idle => s.data

/-- Both resets: every register and table at its reset value, a command in flight abandoned, buffer contents unspecified
again (70_reset_and_hazards R230, R231). What the host still has to say, what it was told, and the build stay (log 14). -/
def State.toReset (s : State) : State :=
  { State.resetWith s.params with
    data := Data.afterReset (s.data.mem.epoch + 1)
    inbox := s.inbox
    replies := s.replies
    draws := s.draws }

/-! ### What the engine's turn and the port read from the state -/

/-- `s` with the first entry of `inbox` taken. -/
def State.pop (s : State) : State := { s with inbox := s.inbox.tail }

/-- Who acts next: the first entry of `inbox`; with none listed, the engine (00_scope R15, 70_reset_and_hazards R245;
log 2). -/
def State.nextEvent (s : State) : Event := s.inbox.head?.getD .engine

/-- What the engine finds to do on its turn. -/
inductive Fetched where
  /-- Nothing: it is idle and waits (60_exceptions R225). -/
  | nothing
  /-- An illegal word (30_encoding R73). -/
  | illegal (w : Word)
  /-- A command. -/
  | command (i : Instr)
deriving DecidableEq, Repr

/-- The command in flight, decoded (30_encoding R73, 10_state R38). -/
def State.fetch (s : State) : Fetched :=
  match s.engine with
  | .idle => .nothing
  | .busy w _ =>
    match decode w with
    | .ok i => .command i
    | .error _ => .illegal w

/-- The end of an illegal word: `raise ILLEGAL_CMD(0, w)`, which no abort replaces (30_encoding R73, 60_exceptions R207
item 1; log 9). -/
def State.endIllegal (s : State) (w : Word) : State := s.endErr ⟨.illegalCmd, 0, w.toNat⟩

/-- `s` with the word `w` just issued to an idle engine and the engine's turn next (log 3). -/
def State.issueNext (s : State) (w : Word) : State :=
  let t := { s with engine := .idle }.issue w
  match s.inbox with
  | [] => t
  | es => { t with inbox := .engine :: es }

end Sys2Proof.Machine
end

