-- ==== Sys2Proof/Machine/Operands.lean ====
section
/-! DEFINITION. The operand forms: the valid elements of a buffer as a sequence (spec 10_state R30), bit strings
(00_scope R10), padding and grouping (41_bit_serializer R121), longest-match tokenization (42_chunk_codec R140), and what
each command reads and writes (30_encoding R74). -/

namespace Sys2Proof.Machine

/-! ### The valid elements of a buffer: elements 0 to LEN_X - 1 (10_state R30) -/

/-- `BYT[0..LEN_BYT)`. -/
def Data.bytSeq (d : Data) : List Byte := (List.range d.lenByt.toNat).map d.mem.bytAt

/-- `BIT[0..LEN_BIT)`. -/
def Data.bitSeq (d : Data) : List Bit := (List.range d.lenBit.toNat).map d.mem.bitAt

/-- `SYM[0..LEN_SYM)`. -/
def Data.symSeq (d : Data) : List Byte := (List.range d.lenSym.toNat).map d.mem.symAt

/-- `CHR[0..LEN_CHR)`. -/
def Data.chrSeq (d : Data) : List Byte := (List.range d.lenChr.toNat).map d.mem.chrAt

/-- `CODE[0..LEN_CODE)`. -/
def Data.codeSeq (d : Data) : List Code := (List.range d.lenCode.toNat).map d.mem.codeAt

/-- `PKB[0..LEN_PKB)`. -/
def Data.pkbSeq (d : Data) : List Byte := (List.range d.lenPkb.toNat).map d.mem.pkbAt

/-! ### Bit strings -/

/-- `bits_N(v)`: the bit string of `v`, most significant bit first (00_scope R10, 20_memory R58). -/
def bitsOf {n : Nat} (v : BitVec n) : List Bit := (List.range n).map fun i => BitVec.ofBool (v.getLsbD (n - 1 - i))

/-- `val(S)`: the number of a bit string read most significant bit first (00_scope R10). -/
def bitsVal (bs : List Bit) : Nat := bs.foldl (fun acc b => 2 * acc + b.toNat) 0

/-- `padcnt(L, W)` (41_bit_serializer R121). -/
def padCount (len w : Nat) : Nat := (w - len % w) % w

/-- `S ++ rep(p, 0)` (00_scope R9). -/
def padZeros (bs : List Bit) (p : Nat) : List Bit := bs ++ List.replicate p 0#1

/-- The groups `S[wj..wj+w)` for j from 0 to `len(S) div w - 1`, in order. -/
def groupsOf {α : Type} (w : Nat) (xs : List α) : List (List α) :=
  (List.range (xs.length / w)).map fun j => (xs.drop (w * j)).take w

/-! ### Longest-match tokenization (42_chunk_codec R140) -/

/-- The longest of `keys` that `s` begins with. -/
def longestKey : List (List Byte) → List Byte → Option (List Byte)
  | [], _ => none
  | k :: ks, s =>
    match longestKey ks s with
    | none => if k.isPrefixOf s then some k else none
    | some best => if k.isPrefixOf s && decide (best.length < k.length) then some k else some best

/-- Greedy tokenization against `keys`, doing `act p key` for each token before looking for the next one, and raising
DICT_LOOKUP at the first position where no key matches (42_chunk_codec R140, 60_exceptions R207). `p` is the position in
the whole sequence and `skip` counts the characters of the token just taken that are still to be passed. -/
def tokenLoop {σ : Type} (keys : List (List Byte)) (act : Nat → List Byte → σ → Except Raise σ) :
    (p skip : Nat) → List Byte → σ → Except Raise σ
  | _, _, [], st => .ok st
  | p, skip + 1, _ :: rest, st => tokenLoop keys act (p + 1) skip rest st
  | p, 0, c :: rest, st =>
    match longestKey keys (c :: rest) with
    | none => .error ⟨.dictLookup, p, c.toNat⟩
    | some k =>
      match act p k st with
      | .ok st' => tokenLoop keys act (p + 1) (k.length - 1) rest st'
      | .error e => .error e

/-- `LM(S, K)`: the tokens with their positions (42_chunk_codec R140). -/
def longestMatch (keys : List (List Byte)) (s : List Byte) : Except Raise (List (Nat × List Byte)) :=
  tokenLoop keys (fun p k tokens => .ok (tokens ++ [(p, k)])) 0 0 s []

/-! ### What each command reads and writes (30_encoding R74) -/

/-- A register, buffer or table that a command can write. -/
inductive Dest where
  | len (b : Buf)
  | buf (b : Buf)
  | padCnt
  | totalBytes
  | convBytes
  | hist
deriving DecidableEq, Repr

/-- A register, buffer or table that a command can read. -/
inductive Source where
  | len (b : Buf)
  | buf (b : Buf)
  | padCnt
  | map
  | dict
deriving DecidableEq, Repr

/-- The `writes` column of 30_encoding R74. -/
def writesOf : Instr → List Dest
  | .norm => [.buf .byt, .totalBytes, .convBytes, .hist]
  | .valid => []
  | .remap => [.buf .byt]
  | .ser => [.buf .bit, .len .bit]
  | .deserTrunc => [.buf .byt, .len .byt]
  | .deserPadb => [.buf .byt, .len .byt, .padCnt]
  | .pad8 => [.buf .bit, .len .bit, .padCnt]
  | .pad5 => [.buf .bit, .len .bit, .padCnt]
  | .pad10 => [.buf .bit, .len .bit, .padCnt]
  | .trim => [.len .bit]
  | .a2b => [.buf .bit, .len .bit]
  | .b2a => [.buf .byt, .len .byt]
  | .cenc => [.buf .sym, .len .sym, .padCnt]
  | .cdec => [.buf .bit, .len .bit]
  | .senc => [.buf .chr, .len .chr]
  | .sdec => [.buf .sym, .len .sym]
  | .pack => [.buf .pkb, .len .pkb]
  | .unpack => [.buf .code, .len .code]
  | .blkenc => [.buf .code, .len .code, .padCnt]
  | .blkdec => [.buf .bit, .len .bit]
  | .bcomp => [.buf .bit, .len .bit, .buf .code, .len .code, .buf .pkb, .len .pkb, .padCnt]
  | .bdecomp => [.buf .code, .len .code, .buf .bit, .len .bit, .buf .byt, .len .byt]

/-- The `reads` column of 30_encoding R74. -/
def readsOf : Instr → List Source
  | .norm => [.buf .byt, .len .byt]
  | .valid => [.buf .byt, .len .byt]
  | .remap => [.buf .byt, .len .byt, .map]
  | .ser => [.buf .byt, .len .byt]
  | .deserTrunc => [.buf .bit, .len .bit]
  | .deserPadb => [.buf .bit, .len .bit]
  | .pad8 => [.buf .bit, .len .bit]
  | .pad5 => [.buf .bit, .len .bit]
  | .pad10 => [.buf .bit, .len .bit]
  | .trim => [.buf .bit, .len .bit, .padCnt]
  | .a2b => [.buf .byt, .len .byt]
  | .b2a => [.buf .bit, .len .bit]
  | .cenc => [.buf .bit, .len .bit]
  | .cdec => [.buf .sym, .len .sym]
  | .senc => [.buf .sym, .len .sym]
  | .sdec => [.buf .chr, .len .chr]
  | .pack => [.buf .code, .len .code]
  | .unpack => [.buf .pkb, .len .pkb]
  | .blkenc => [.buf .bit, .len .bit, .dict]
  | .blkdec => [.buf .code, .len .code, .dict]
  | .bcomp => [.buf .byt, .len .byt, .dict]
  | .bdecomp => [.buf .pkb, .len .pkb, .dict]

end Sys2Proof.Machine
end

