-- ==== Sys2Proof/Machine/Serializer.lean ====
section
/-! DEFINITION. SER, PAD, DESER, TRIM, A2B and B2A (spec 41_bit_serializer). -/

namespace Sys2Proof.Machine

/-- The bits that SER emits for a sequence of bytes (41_bit_serializer R120). -/
def serBits (p : Params) (bytes : List Byte) : Except Raise (List Bit) :=
  forEach (fun i b out => emitAll p .bit i out (bitsOf b)) 0 bytes []

/-- The pseudocode of SER (41_bit_serializer R120). -/
def serRun (p : Params) (d : Data) : Except Raise Staged :=
  match serBits p d.bytSeq with
  | .ok bits => .ok { bit := some bits, lenBit := some (BitVec.ofNat 32 bits.length) }
  | .error e => .error e

/-- The pseudocode of PAD to a multiple of `w` (41_bit_serializer R122). -/
def padRun (w : Nat) (p : Params) (d : Data) : Except Raise Staged :=
  let len := d.lenBit.toNat
  let n := padCount len w
  match emitAll p .bit len d.bitSeq (List.replicate n 0#1) with
  | .ok bits =>
    .ok { bit := some bits, lenBit := some (BitVec.ofNat 32 bits.length), padCnt := some (BitVec.ofNat 32 n) }
  | .error e => .error e

/-- The bytes that DESER emits for a bit string whose length is a multiple of 8; bits past the last whole byte are not
read (41_bit_serializer R123). -/
def deserBytes (p : Params) (bits : List Bit) : Except Raise (List Byte) :=
  forEach (fun j g out => emit p .byt (8 * j) out (BitVec.ofNat 8 (bitsVal g))) 0 (groupsOf 8 bits) []

/-- The pseudocode of DESER in mode TRUNC (41_bit_serializer R123). -/
def deserTruncRun (p : Params) (d : Data) : Except Raise Staged :=
  match deserBytes p (d.bitSeq.take (8 * (d.lenBit.toNat / 8))) with
  | .ok bytes => .ok { byt := some bytes, lenByt := some (BitVec.ofNat 32 bytes.length) }
  | .error e => .error e

/-- The pseudocode of DESER in mode PADB (41_bit_serializer R123). -/
def deserPadbRun (p : Params) (d : Data) : Except Raise Staged :=
  let n := padCount d.lenBit.toNat 8
  match deserBytes p (padZeros d.bitSeq n) with
  | .ok bytes =>
    .ok { byt := some bytes, lenByt := some (BitVec.ofNat 32 bytes.length), padCnt := some (BitVec.ofNat 32 n) }
  | .error e => .error e

/-- The pseudocode of TRIM (41_bit_serializer R124). -/
def trimRun (d : Data) : Except Raise Staged :=
  if d.lenBit.toNat < d.padCnt.toNat then .error ⟨.padRange, d.lenBit.toNat, d.padCnt.toNat⟩
  else .ok { lenBit := some (d.lenBit - d.padCnt) }

/-- One character of A2B (41_bit_serializer R125). -/
def a2bChar (p : Params) (i : Nat) (c : Byte) (out : List Bit) : Except Raise (List Bit) :=
  if c = 0x30#8 then emit p .bit i out 0#1
  else if c = 0x31#8 then emit p .bit i out 1#1
  else .error ⟨.invalidInput, i, c.toNat⟩

/-- The pseudocode of A2B (41_bit_serializer R125). -/
def a2bRun (p : Params) (d : Data) : Except Raise Staged :=
  match forEach (a2bChar p) 0 d.bytSeq [] with
  | .ok bits => .ok { bit := some bits, lenBit := some (BitVec.ofNat 32 bits.length) }
  | .error e => .error e

/-- The pseudocode of B2A (41_bit_serializer R126). -/
def b2aRun (p : Params) (d : Data) : Except Raise Staged :=
  match forEach (fun i b out => emit p .byt i out (0x30#8 + b.setWidth 8)) 0 d.bitSeq [] with
  | .ok bytes => .ok { byt := some bytes, lenByt := some (BitVec.ofNat 32 bytes.length) }
  | .error e => .error e

/-- SER (41_bit_serializer R120). -/
def execSer (s : State) : Host.Outcome State Fault Refusal := .next (s.finish (serRun s.params s.operands))

/-- PAD.8 (41_bit_serializer R122, MODE 0). -/
def execPad8 (s : State) : Host.Outcome State Fault Refusal := .next (s.finish (padRun 8 s.params s.operands))

/-- PAD.5 (41_bit_serializer R122, MODE 1). -/
def execPad5 (s : State) : Host.Outcome State Fault Refusal := .next (s.finish (padRun 5 s.params s.operands))

/-- PAD.10 (41_bit_serializer R122, MODE 2). -/
def execPad10 (s : State) : Host.Outcome State Fault Refusal := .next (s.finish (padRun 10 s.params s.operands))

/-- DESER.TRUNC (41_bit_serializer R123, MODE 0). -/
def execDeserTrunc (s : State) : Host.Outcome State Fault Refusal := .next (s.finish (deserTruncRun s.params s.operands))

/-- DESER.PADB (41_bit_serializer R123, MODE 1). -/
def execDeserPadb (s : State) : Host.Outcome State Fault Refusal := .next (s.finish (deserPadbRun s.params s.operands))

/-- TRIM (41_bit_serializer R124). -/
def execTrim (s : State) : Host.Outcome State Fault Refusal := .next (s.finish (trimRun s.operands))

/-- A2B (41_bit_serializer R125). -/
def execA2b (s : State) : Host.Outcome State Fault Refusal := .next (s.finish (a2bRun s.params s.operands))

/-- B2A (41_bit_serializer R126). -/
def execB2a (s : State) : Host.Outcome State Fault Refusal := .next (s.finish (b2aRun s.params s.operands))

end Sys2Proof.Machine
end

