-- ==== Sys2Proof/Machine/BlockCodec.lean ====
section
/-! DEFINITION. BLKENC, PACK, UNPACK, BLKDEC, BCOMP and BDECOMP (spec 44_block_codec). -/

namespace Sys2Proof.Machine

/-- `dict_pat(c)` (44_block_codec R170). -/
def dictPat (m : Memory) (c : Code) : Option Code :=
  if (m.dictAt c.toNat).valid then some (m.dictAt c.toNat).pat else none

/-- `dict_code(g)`: the lowest valid code whose pattern is `g` (44_block_codec R170). -/
def dictCode (m : Memory) (g : Code) : Option Code :=
  ((List.range 1024).find? fun c => (m.dictAt c).valid && (m.dictAt c).pat == g).map (BitVec.ofNat 10)

/-- One group of BLKENC (44_block_codec R171). -/
def blkencGroup (p : Params) (m : Memory) (j : Nat) (g : List Bit) (out : List Code) : Except Raise (List Code) :=
  match dictCode m (BitVec.ofNat 10 (bitsVal g)) with
  | none => .error ⟨.dictLookup, 10 * j, bitsVal g⟩
  | some c => emit p .code (10 * j) out c

/-- The codes that BLKENC emits for a bit string (44_block_codec R171). -/
def blkencCodes (p : Params) (m : Memory) (bits : List Bit) : Except Raise (List Code) :=
  forEach (blkencGroup p m) 0 (groupsOf 10 (padZeros bits (padCount bits.length 10))) []

/-- The pseudocode of BLKENC (44_block_codec R171). -/
def blkencRun (p : Params) (d : Data) : Except Raise Staged :=
  match blkencCodes p d.mem d.bitSeq with
  | .ok codes =>
    .ok { code := some codes
          lenCode := some (BitVec.ofNat 32 codes.length)
          padCnt := some (BitVec.ofNat 32 (padCount d.lenBit.toNat 10)) }
  | .error e => .error e

/-- PACK's bit buffer: `acc` holds `nb` bits, and the bytes emitted so far (44_block_codec R172). -/
structure PackAcc where
  acc : Nat
  nb : Nat
  out : List Byte
deriving DecidableEq, Repr

/-- `while nb ≥ 8` of PACK: emit the full bytes. `fuel` bounds the turns; a turn takes 8 from `nb`, so `nb` turns are
enough (44_block_codec R172). -/
def packDrain (p : Params) (pos : Nat) : Nat → PackAcc → Except Raise PackAcc
  | 0, a => .ok a
  | fuel + 1, a =>
    if 8 ≤ a.nb then
      match emit p .pkb pos a.out (BitVec.ofNat 8 (a.acc / 2 ^ (a.nb - 8) % 256)) with
      | .ok out => packDrain p pos fuel ⟨a.acc, a.nb - 8, out⟩
      | .error e => .error e
    else .ok a

/-- One code of PACK (44_block_codec R172). -/
def packCode (p : Params) (j : Nat) (c : Code) (a : PackAcc) : Except Raise PackAcc :=
  match packDrain p j (a.nb + 10) ⟨a.acc * 2 ^ 10 + c.toNat, a.nb + 10, a.out⟩ with
  | .ok a' => .ok { a' with acc := a'.acc % 2 ^ a'.nb }
  | .error e => .error e

/-- PACK's final partial byte, at the source position LEN_CODE (44_block_codec R172). -/
def packTail (p : Params) (pos : Nat) (a : PackAcc) : Except Raise (List Byte) :=
  if 0 < a.nb then
    match p.packTail with
    | .msb => emit p .pkb pos a.out (BitVec.ofNat 8 (a.acc * 2 ^ (8 - a.nb)))
    | .lsb => emit p .pkb pos a.out (BitVec.ofNat 8 a.acc)
  else .ok a.out

/-- The bytes that PACK emits for a sequence of codes (44_block_codec R172). -/
def packBytes (p : Params) (codes : List Code) : Except Raise (List Byte) :=
  match forEach (packCode p) 0 codes ⟨0, 0, []⟩ with
  | .ok a => packTail p codes.length a
  | .error e => .error e

/-- The pseudocode of PACK (44_block_codec R172). -/
def packRun (p : Params) (d : Data) : Except Raise Staged :=
  match packBytes p d.codeSeq with
  | .ok bytes => .ok { pkb := some bytes, lenPkb := some (BitVec.ofNat 32 bytes.length) }
  | .error e => .error e

/-- UNPACK's bit buffer: `acc` holds `nb` bits, and the codes emitted so far (44_block_codec R173). -/
structure UnpackAcc where
  acc : Nat
  nb : Nat
  out : List Code
deriving DecidableEq, Repr

/-- One byte of UNPACK (44_block_codec R173). -/
def unpackByte (p : Params) (i : Nat) (b : Byte) (a : UnpackAcc) : Except Raise UnpackAcc :=
  let acc := a.acc * 256 + b.toNat
  let nb := a.nb + 8
  if 10 ≤ nb then
    match emit p .code i a.out (BitVec.ofNat 10 (acc / 2 ^ (nb - 10) % 1024)) with
    | .ok out => .ok ⟨acc % 2 ^ (nb - 10), nb - 10, out⟩
    | .error e => .error e
  else .ok ⟨acc, nb, a.out⟩

/-- The codes that UNPACK emits for a sequence of packed bytes; the last bits, fewer than 10, are dropped
(44_block_codec R173). -/
def unpackCodes (p : Params) (bytes : List Byte) : Except Raise (List Code) :=
  match forEach (unpackByte p) 0 bytes ⟨0, 0, []⟩ with
  | .ok a => .ok a.out
  | .error e => .error e

/-- The pseudocode of UNPACK (44_block_codec R173). -/
def unpackRun (p : Params) (d : Data) : Except Raise Staged :=
  match unpackCodes p d.pkbSeq with
  | .ok codes => .ok { code := some codes, lenCode := some (BitVec.ofNat 32 codes.length) }
  | .error e => .error e

/-- One code of BLKDEC (44_block_codec R174). -/
def blkdecCode (p : Params) (m : Memory) (j : Nat) (c : Code) (out : List Bit) : Except Raise (List Bit) :=
  match dictPat m c with
  | none => .error ⟨.dictLookup, j, c.toNat⟩
  | some q => emitAll p .bit j out (bitsOf q)

/-- The bits that BLKDEC emits for a sequence of codes (44_block_codec R174). -/
def blkdecBits (p : Params) (m : Memory) (codes : List Code) : Except Raise (List Bit) :=
  forEach (blkdecCode p m) 0 codes []

/-- The pseudocode of BLKDEC (44_block_codec R174). -/
def blkdecRun (p : Params) (d : Data) : Except Raise Staged :=
  match blkdecBits p d.mem d.codeSeq with
  | .ok bits => .ok { bit := some bits, lenBit := some (BitVec.ofNat 32 bits.length) }
  | .error e => .error e

/-- The pseudocode of BCOMP: SER, BLKENC, PACK on staged results, one commit (44_block_codec R175). -/
def bcompRun (p : Params) (d : Data) : Except Raise Staged :=
  match serBits p d.bytSeq with
  | .error e => .error e
  | .ok bits =>
    match blkencCodes p d.mem bits with
    | .error e => .error e
    | .ok codes =>
      match packBytes p codes with
      | .error e => .error e
      | .ok bytes =>
        .ok { bit := some bits
              lenBit := some (BitVec.ofNat 32 bits.length)
              code := some codes
              lenCode := some (BitVec.ofNat 32 codes.length)
              pkb := some bytes
              lenPkb := some (BitVec.ofNat 32 bytes.length)
              padCnt := some (BitVec.ofNat 32 (padCount bits.length 10)) }

/-- The pseudocode of BDECOMP: UNPACK, BLKDEC, DESER.TRUNC on staged results, one commit (44_block_codec R176). -/
def bdecompRun (p : Params) (d : Data) : Except Raise Staged :=
  match unpackCodes p d.pkbSeq with
  | .error e => .error e
  | .ok codes =>
    match blkdecBits p d.mem codes with
    | .error e => .error e
    | .ok bits =>
      match deserBytes p (bits.take (8 * (bits.length / 8))) with
      | .error e => .error e
      | .ok bytes =>
        .ok { code := some codes
              lenCode := some (BitVec.ofNat 32 codes.length)
              bit := some bits
              lenBit := some (BitVec.ofNat 32 bits.length)
              byt := some bytes
              lenByt := some (BitVec.ofNat 32 bytes.length) }

/-- BLKENC (44_block_codec R171). -/
def execBlkenc (s : State) : Host.Outcome State Fault Refusal := .next (s.finish (blkencRun s.params s.operands))

/-- PACK (44_block_codec R172). -/
def execPack (s : State) : Host.Outcome State Fault Refusal := .next (s.finish (packRun s.params s.operands))

/-- UNPACK (44_block_codec R173). -/
def execUnpack (s : State) : Host.Outcome State Fault Refusal := .next (s.finish (unpackRun s.params s.operands))

/-- BLKDEC (44_block_codec R174). -/
def execBlkdec (s : State) : Host.Outcome State Fault Refusal := .next (s.finish (blkdecRun s.params s.operands))

/-- BCOMP (44_block_codec R175). -/
def execBcomp (s : State) : Host.Outcome State Fault Refusal := .next (s.finish (bcompRun s.params s.operands))

/-- BDECOMP (44_block_codec R176). -/
def execBdecomp (s : State) : Host.Outcome State Fault Refusal := .next (s.finish (bdecompRun s.params s.operands))

end Sys2Proof.Machine
end

