-- ==== Sys2Proof/Machine/ChunkCodec.lean ====
section
/-! DEFINITION. CENC and CDEC (spec 42_chunk_codec). -/

namespace Sys2Proof.Machine

/-- `CHUNK_REV(k)` for a key of K_CHUNK (10_state R36). -/
def chunkRev (p : Params) (k : List Byte) : Chunk := p.chunkRev.getD (chunkKeys.idxOf k) 0

/-- The pseudocode of CENC (42_chunk_codec R142). -/
def cencRun (p : Params) (d : Data) : Except Raise Staged :=
  let n := padCount d.lenBit.toNat 5
  match forEach (fun j g out => emitAll p .sym (5 * j) out (chunkString (bitsVal g))) 0
      (groupsOf 5 (padZeros d.bitSeq n)) [] with
  | .ok out =>
    .ok { sym := some out, lenSym := some (BitVec.ofNat 32 out.length), padCnt := some (BitVec.ofNat 32 n) }
  | .error e => .error e

/-- The pseudocode of CDEC: LM over K_CHUNK, step by step (42_chunk_codec R143). -/
def cdecRun (p : Params) (d : Data) : Except Raise Staged :=
  match tokenLoop chunkKeys (fun pos k out => emitAll p .bit pos out (bitsOf (chunkRev p k))) 0 0 d.symSeq [] with
  | .ok out => .ok { bit := some out, lenBit := some (BitVec.ofNat 32 out.length) }
  | .error e => .error e

/-- CENC (42_chunk_codec R142). -/
def execCenc (s : State) : Host.Outcome State Fault Refusal := .next (s.finish (cencRun s.params s.operands))

/-- CDEC (42_chunk_codec R143). -/
def execCdec (s : State) : Host.Outcome State Fault Refusal := .next (s.finish (cdecRun s.params s.operands))

end Sys2Proof.Machine
end

