-- ==== Sys2Proof/Machine/Normalizer.lean ====
section
/-! DEFINITION. NORM, VALID and REMAP (spec 40_normalizer). -/

namespace Sys2Proof.Machine

/-- Inside the printable band [32,126] (40_normalizer R100). -/
def printable (b : Byte) : Bool := decide (32 ≤ b.toNat) && decide (b.toNat ≤ 126)

/-- `NORM_CTRL(n)` for one of the codes 0 to 15, 27 and 127 (40_normalizer R101). -/
def normCtrlAt (p : Params) (n : Nat) : Byte :=
  p.normCtrl.getD (if n ≤ 15 then n else if n = 27 then 16 else 17) 0

/-- `norm(b)`, the static substitution (40_normalizer R100). -/
def normSubst (p : Params) (b : Byte) : Byte :=
  let n := b.toNat
  if 32 ≤ n ∧ n ≤ 126 then b
  else if n ≤ 15 ∨ n = 27 ∨ n = 127 then normCtrlAt p n
  else if n ≤ 31 then BitVec.ofNat 8 (n + p.normLinOffset)
  else BitVec.ofNat 8 (48 + (n - 128) % 75)

/-- What NORM builds while it runs: BYT', the count of substituted bytes and the histogram (40_normalizer R103). -/
structure NormAcc where
  out : List Byte
  conv : Nat
  hist : Cells Word
deriving DecidableEq, Repr

/-- `H[b] <- H[b] + 1` (40_normalizer R103). -/
def countByte (b : Byte) (h : Cells Word) : Cells Word :=
  Cells.setEntry 0 b.toNat (Cells.entry 0 b.toNat h + 1) h

/-- One byte of NORM (40_normalizer R103). -/
def normByte (p : Params) (i : Nat) (b : Byte) (a : NormAcc) : Except Raise NormAcc :=
  if printable b then
    match emit p .byt i a.out b with
    | .ok out => .ok { a with out := out }
    | .error e => .error e
  else
    match emit p .byt i a.out (normSubst p b) with
    | .ok out => .ok ⟨out, a.conv + 1, countByte b a.hist⟩
    | .error e => .error e

/-- The pseudocode of NORM (40_normalizer R103). -/
def normRun (p : Params) (d : Data) : Except Raise Staged :=
  match forEach (normByte p) 0 d.bytSeq ⟨[], 0, []⟩ with
  | .ok a =>
    .ok { byt := some a.out, totalBytes := some d.lenByt, convBytes := some (BitVec.ofNat 32 a.conv), hist := some a.hist }
  | .error e => .error e

/-- The pseudocode of VALID (40_normalizer R104). -/
def validRun (d : Data) : Except Raise Staged :=
  match forEach (fun i b (_ : Unit) => if printable b then .ok () else .error ⟨.invalidInput, i, b.toNat⟩) 0 d.bytSeq () with
  | .ok _ => .ok { }
  | .error e => .error e

/-- What REMAP substitutes for one byte: the entry's VALUE where it is valid, else the byte itself
(40_normalizer R105). -/
def remapByte (m : Memory) (b : Byte) : Byte :=
  if (m.mapAt b.toNat).valid then (m.mapAt b.toNat).value else b

/-- The pseudocode of REMAP (40_normalizer R105). -/
def remapRun (p : Params) (d : Data) : Except Raise Staged :=
  match forEach (fun i b out => emit p .byt i out (remapByte d.mem b)) 0 d.bytSeq [] with
  | .ok out => .ok { byt := some out }
  | .error e => .error e

/-- NORM (40_normalizer R103). -/
def execNorm (s : State) : Host.Outcome State Fault Refusal := .next (s.finish (normRun s.params s.operands))

/-- VALID (40_normalizer R104). -/
def execValid (s : State) : Host.Outcome State Fault Refusal := .next (s.finish (validRun s.operands))

/-- REMAP (40_normalizer R105). -/
def execRemap (s : State) : Host.Outcome State Fault Refusal := .next (s.finish (remapRun s.params s.operands))

/-- `CMAP(o)`, the ConversionMap's set of original bytes, which the block does not store: it is derived from HIST and
`norm` (10_state R31). -/
def cmapOf (p : Params) (m : Memory) (o : Byte) : List Nat :=
  (List.range 256).filter fun b => decide (m.histAt b ≠ 0) && (normSubst p (BitVec.ofNat 8 b) == o)

end Sys2Proof.Machine
end

