-- ==== Sys2Proof/Machine/SymbolCodec.lean ====
section
/-! DEFINITION. SENC and SDEC (spec 43_symbol_codec). -/

namespace Sys2Proof.Machine

/-- The pseudocode of SENC: LM over K_SYM, step by step (43_symbol_codec R160). -/
def sencRun (p : Params) (d : Data) : Except Raise Staged :=
  match tokenLoop symKeys (fun pos k out => emit p .chr pos out (symChar k)) 0 0 d.symSeq [] with
  | .ok out => .ok { chr := some out, lenChr := some (BitVec.ofNat 32 out.length) }
  | .error e => .error e

/-- One character of SDEC (43_symbol_codec R161). -/
def sdecChar (p : Params) (i : Nat) (ch : Byte) (out : List Byte) : Except Raise (List Byte) :=
  match symKeyOf ch with
  | none => .error ⟨.dictLookup, i, ch.toNat⟩
  | some k => emitAll p .sym i out k

/-- The pseudocode of SDEC (43_symbol_codec R161). -/
def sdecRun (p : Params) (d : Data) : Except Raise Staged :=
  match forEach (sdecChar p) 0 d.chrSeq [] with
  | .ok out => .ok { sym := some out, lenSym := some (BitVec.ofNat 32 out.length) }
  | .error e => .error e

/-- SENC (43_symbol_codec R160). -/
def execSenc (s : State) : Host.Outcome State Fault Refusal := .next (s.finish (sencRun s.params s.operands))

/-- SDEC (43_symbol_codec R161). -/
def execSdec (s : State) : Host.Outcome State Fault Refusal := .next (s.finish (sdecRun s.params s.operands))

end Sys2Proof.Machine
end

