-- ==== Sys2Proof/Machine/Dispatch.lean ====
section
/-! DEFINITION. What each command does: one arm per row of the opcode map (spec 30_encoding R74). -/

namespace Sys2Proof.Machine

def exec (i : Instr) (s : State) : Host.Outcome State Fault Refusal :=
  match i with
  | .norm => Sys2Proof.Machine.execNorm s
  | .valid => Sys2Proof.Machine.execValid s
  | .remap => Sys2Proof.Machine.execRemap s
  | .ser => Sys2Proof.Machine.execSer s
  | .deserTrunc => Sys2Proof.Machine.execDeserTrunc s
  | .deserPadb => Sys2Proof.Machine.execDeserPadb s
  | .pad8 => Sys2Proof.Machine.execPad8 s
  | .pad5 => Sys2Proof.Machine.execPad5 s
  | .pad10 => Sys2Proof.Machine.execPad10 s
  | .trim => Sys2Proof.Machine.execTrim s
  | .a2b => Sys2Proof.Machine.execA2b s
  | .b2a => Sys2Proof.Machine.execB2a s
  | .cenc => Sys2Proof.Machine.execCenc s
  | .cdec => Sys2Proof.Machine.execCdec s
  | .senc => Sys2Proof.Machine.execSenc s
  | .sdec => Sys2Proof.Machine.execSdec s
  | .pack => Sys2Proof.Machine.execPack s
  | .unpack => Sys2Proof.Machine.execUnpack s
  | .blkenc => Sys2Proof.Machine.execBlkenc s
  | .blkdec => Sys2Proof.Machine.execBlkdec s
  | .bcomp => Sys2Proof.Machine.execBcomp s
  | .bdecomp => Sys2Proof.Machine.execBdecomp s

end Sys2Proof.Machine
end

