-- ==== Sys2Proof/Machine/Port.lean ====
section
/-! DEFINITION. The host's accesses: the address map (spec 20_memory R50), reads and writes (R53 to R57), the bus rules
while a command is busy (70_reset_and_hazards R240, R241), and the CTRL actions (10_state R24). -/

namespace Sys2Proof.Machine

/-- The registers of the map (20_memory R50). -/
inductive Reg where
  | cmd | status | ctrl | errCode | errPos | errVal
  | len (b : Buf)
  | padCnt | totalBytes | convBytes
  | cap (b : Buf)
deriving DecidableEq, Repr

/-- The register at each offset (20_memory R50). -/
def regMap : List (Nat × Reg) :=
  [ (0x00, .cmd),
    (0x04, .status),
    (0x08, .ctrl),
    (0x0C, .errCode),
    (0x10, .errPos),
    (0x14, .errVal),
    (0x20, .len .byt),
    (0x24, .len .bit),
    (0x28, .len .sym),
    (0x2C, .len .chr),
    (0x30, .len .code),
    (0x34, .len .pkb),
    (0x38, .padCnt),
    (0x40, .totalBytes),
    (0x44, .convBytes),
    (0x80, .cap .byt),
    (0x84, .cap .bit),
    (0x88, .cap .sym),
    (0x8C, .cap .chr),
    (0x90, .cap .code),
    (0x94, .cap .pkb) ]

/-- What lies at an offset. -/
inductive Loc where
  | reg (r : Reg)
  | hist (b : Nat)
  | map (b : Nat)
  | dict (c : Nat)
  /-- A slot of a buffer's window, whether or not the element exists. -/
  | elem (b : Buf) (i : Nat)
  | unmapped
deriving DecidableEq, Repr

/-- The buffer whose window is number `k`: its base is `k * 2^24` (20_memory R50). -/
def windowBuf (k : Nat) : Option Buf :=
  match k with
  | 1 => some .byt
  | 2 => some .bit
  | 3 => some .sym
  | 4 => some .chr
  | 5 => some .code
  | 6 => some .pkb
  | _ => none

/-- The address map, for an offset that is a multiple of 4 (20_memory R50). -/
def locate (off : Nat) : Loc :=
  match regMap.lookup off with
  | some r => .reg r
  | none =>
    if 0x1000 ≤ off ∧ off < 0x1000 + 4 * 256 then .hist ((off - 0x1000) / 4)
    else if 0x2000 ≤ off ∧ off < 0x2000 + 4 * 256 then .map ((off - 0x2000) / 4)
    else if 0x4000 ≤ off ∧ off < 0x4000 + 4 * 1024 then .dict ((off - 0x4000) / 4)
    else
      match windowBuf (off / 2 ^ 24) with
      | some b => .elem b (off % 2 ^ 24 / 4)
      | none => .unmapped

/-- The committed value of a register (10_state R21 to R29, 20_memory R53). CTRL reads 0. -/
def State.readReg (s : State) : Reg → Word
  | .cmd => s.cmd
  | .status => s.status
  | .ctrl => 0
  | .errCode => s.errCode
  | .errPos => s.errPos
  | .errVal => s.errVal
  | .len b => s.data.len b
  | .padCnt => s.data.padCnt
  | .totalBytes => s.data.totalBytes
  | .convBytes => s.data.convBytes
  | .cap b => BitVec.ofNat 32 (s.params.cap b)

/-- The committed value at a location; an element at or past the capacity and an unmapped offset read 0
(20_memory R53, R54, R56, R57). -/
def State.committed (s : State) : Loc → Word
  | .reg r => s.readReg r
  | .hist b => s.data.mem.histAt b
  | .map b => mapEntryWord (s.data.mem.mapAt b)
  | .dict c => dictEntryWord (s.data.mem.dictAt c)
  | .elem b i => if i < s.params.cap b then s.data.mem.elem b i else 0
  | .unmapped => 0

/-- The destination a location belongs to, for the `writes` column of 30_encoding R74. An element at or past the capacity
belongs to none. -/
def destOf (p : Params) : Loc → Option Dest
  | .reg (.len b) => some (.len b)
  | .reg .padCnt => some .padCnt
  | .reg .totalBytes => some .totalBytes
  | .reg .convBytes => some .convBytes
  | .hist _ => some .hist
  | .elem b i => if i < p.cap b then some (.buf b) else none
  | .reg .cmd | .reg .status | .reg .ctrl | .reg .errCode | .reg .errPos | .reg .errVal | .reg (.cap _) | .map _
  | .dict _ | .unmapped => none

/-- Whether the command in flight writes this location, by the `writes` column of 30_encoding R74
(70_reset_and_hazards R241; log 6). An illegal word writes none of them. -/
def State.unreliable (s : State) (l : Loc) : Bool :=
  match s.fetch, destOf s.params l with
  | .command i, some d => (writesOf i).contains d
  | _, _ => false

/-- The width of what lies at a location (00_scope R7). -/
def widthOf : Loc → Nat
  | .elem .bit _ => 1
  | .elem .code _ => 10
  | .elem .byt _ | .elem .sym _ | .elem .chr _ | .elem .pkb _ => 8
  | .reg _ | .hist _ | .map _ | .dict _ | .unmapped => 32

/-- The word answered to the host. -/
def State.reply (s : State) (v : Word) : State := { s with replies := s.replies ++ [v] }

/-- A host read (20_memory R53, R54, R56, R57, R60). While the engine is busy, a read of what the running command writes
answers an arbitrary value of its width (70_reset_and_hazards R241, 93 I3; log 6). -/
def State.hostRead (s : State) (l : Loc) : State :=
  if s.unreliable l then s.draw.reply (((Config.busyRead s.draws).setWidth (widthOf l)).setWidth 32)
  else s.reply (s.committed l)

/-- A write to CTRL: SRST resets at any time and wins over ABORT; ABORT sets ABORT_REQ while the engine is busy
(10_state R24, 60_exceptions R212 item 1, 70_reset_and_hazards R231). -/
def State.writeCtrl (s : State) (v : Word) : State :=
  if v.getLsbD 1 then s.toReset
  else
    match s.engine with
    | .busy _ _ => if v.getLsbD 0 then { s with abortReq := true } else s
    | .idle => s

/-- A write while the engine is idle to anything but CTRL (20_memory R53 to R57). Writes to read-only registers and to
unmapped offsets are ignored. -/
def State.writeIdle (s : State) (l : Loc) (v : Word) : State :=
  match l with
  | .reg .cmd => s.issue v
  | .reg (.len b) => { s with data := s.data.setLen b (clampLen (s.params.cap b) v) }
  | .reg .padCnt => { s with data := { s.data with padCnt := v } }
  | .map b => { s with data := { s.data with mem := s.data.mem.setMap b (mapEntryOf v) } }
  | .dict c => { s with data := { s.data with mem := s.data.mem.setDict c (dictEntryOf v) } }
  | .elem b i =>
    if i < s.params.cap b then { s with data := { s.data with mem := s.data.mem.setElem b i v } } else s
  | .reg .status | .reg .ctrl | .reg .errCode | .reg .errPos | .reg .errVal | .reg .totalBytes | .reg .convBytes
  | .reg (.cap _) | .hist _ | .unmapped => s

/-- A host write: CTRL acts at any time; every other write is ignored while the engine is busy
(70_reset_and_hazards R240). -/
def State.hostWrite (s : State) (l : Loc) (v : Word) : State :=
  if l = .reg .ctrl then s.writeCtrl v
  else
    match s.engine with
    | .busy _ _ => s
    | .idle => s.writeIdle l v

/-- Whether an access touches the block's window of 2^27 bytes at BASE (20_memory R50). -/
def inWindow (p : Params) (a : Access) : Bool :=
  decide (p.base < a.addr + a.bytes) && decide (a.addr < p.base + 2 ^ 27)

/-- A host access. One that does not touch the window does not reach the block (log 10). One that is not an aligned word
is refused (20_memory R52, 93 I1; log 11). -/
def State.access (s : State) (a : Access) : Host.Outcome State Fault Refusal :=
  if !inWindow s.params a then .next s
  else if !a.widthOk then .refused .accessNotWord
  else if !a.aligned then .refused .accessMisaligned
  else
    match a with
    | .read addr _ => .next (s.hostRead (locate (addr - s.params.base)))
    | .write addr _ v => .next (s.hostWrite (locate (addr - s.params.base)) v)

end Sys2Proof.Machine
end

