-- ==== Sys2Proof/Machine/Step.lean ====
section
/-! DEFINITION. One step of the block: a host access, a turn of the engine, or a hardware reset (spec 20_memory R63). -/

namespace Sys2Proof.Machine

/-- One step takes the next event. On the engine's turn the command in flight runs to its end as one atomic step
(20_memory R63; log 2); an idle engine waits (60_exceptions R225). -/
def step (s : State) : Host.Outcome State Fault Refusal :=
  match s.nextEvent with
  | .access a => s.pop.access a
  | .hardReset => .next s.pop.toReset
  | .engine =>
    match s.fetch with
    | .nothing => .next s.pop
    | .illegal w => .next (s.pop.endIllegal w)
    | .command i => exec i s.pop

/-- `s` with the command word of an opcode-table row just issued to an idle engine, and the engine's turn next. CMD and
ENGINE are where the block takes its next command from (10_state R22, R38; log 3). -/
def State.withFetchWord (s : State) (nbits w : Nat) : State := s.issueNext (tableWord nbits w)

end Sys2Proof.Machine
end

