-- ==== Sys2Proof/Machine/HostProgram.lean ====
section
/-! DEFINITION. The host's statements and pseudo-instructions (spec 30_encoding R78, R79) as the accesses they cause at the
port. The block does not see the host's control flow (R81); it is given here as which statement the host takes next
(log 15). -/

namespace Sys2Proof.Machine

/-- `off(REG)` (20_memory R50). -/
def regOffset (r : Reg) : Nat := ((regMap.find? fun e => e.2 == r).map (·.1)).getD 0

/-- The offset of a location that a statement can name (20_memory R50, 30_encoding R78). -/
def offsetOf : Loc → Nat
  | .reg r => regOffset r
  | .hist b => 0x1000 + 4 * b
  | .map b => 0x2000 + 4 * b
  | .dict c => 0x4000 + 4 * c
  | .elem b i => 2 ^ 24 * bufId b + 4 * i
  | .unmapped => 0x18

/-- A statement of a host program (30_encoding R78, R79). Comments are no statements, and a label is the number of the
statement it stands on. -/
inductive Stmt where
  | wr (l : Loc) (v : Word)
  | rd (l : Loc)
  | cmd (i : Instr)
  | wait
  | run (i : Instr)
  | ld (b : Buf) (vs : List Word)
  | ldstr (b : Buf) (chars : List Byte)
  | lddict (c : Nat) (pattern : List Bit)
  | ldmap (b v : Byte)
  | bnz (l : Loc) (mask : Word) (target : Nat)
  | branch (target : Nat)
  | halt
deriving DecidableEq, Repr

/-- `MemRead(BASE + off, 4)` as an event at the port (00_scope R11). -/
def readEvent (p : Params) (l : Loc) : Event := .access (.read (p.base + offsetOf l) 4)

/-- `MemWrite(BASE + off, 4, v)` as an event at the port (00_scope R11). -/
def writeEvent (p : Params) (l : Loc) (v : Word) : Event := .access (.write (p.base + offsetOf l) 4 v)

/-- `wait` when `polls` reads of STATUS find the engine busy before its turn comes (30_encoding R79). -/
def waitEvents (p : Params) (polls : Nat) : List Event :=
  List.replicate polls (readEvent p (.reg .status)) ++ [.engine, readEvent p (.reg .status)]

/-- `ld BUF, [v0, ..., v(n-1)]` (30_encoding R79). -/
def ldEvents (p : Params) (b : Buf) (vs : List Word) : List Event :=
  vs.zipIdx.map (fun e => writeEvent p (.elem b e.2) e.1) ++ [writeEvent p (.reg (.len b)) (BitVec.ofNat 32 vs.length)]

/-- `lddict`; `none` where the host refuses the entry before any bus write, because its pattern is not ten bits or its code
is above 1023 (30_encoding R79, 20_memory R57, 93 section 3). -/
def lddictEvents (p : Params) (c : Nat) (pattern : List Bit) : Option (List Event) :=
  if pattern.length = 10 ∧ c < 1024 then
    some [writeEvent p (.dict c) (BitVec.ofNat 32 (0x8000 + bitsVal pattern))]
  else none

/-- The events that a statement causes, where `polls` is how many reads a `wait` in it makes in vain. `none` where the host
refuses the statement (30_encoding R78, R79). -/
def stmtEvents (p : Params) (polls : Nat) : Stmt → Option (List Event)
  | .wr l v => some [writeEvent p l v]
  | .rd l => some [readEvent p l]
  | .cmd i => some [writeEvent p (.reg .cmd) (encode i)]
  | .wait => some (waitEvents p polls)
  | .run i => some (writeEvent p (.reg .cmd) (encode i) :: waitEvents p polls)
  | .ld b vs => some (ldEvents p b vs)
  | .ldstr b chars => some (ldEvents p b (chars.map fun c => c.setWidth 32))
  | .lddict c pattern => lddictEvents p c pattern
  | .ldmap b v => some [writeEvent p (.map b.toNat) (BitVec.ofNat 32 (0x100 + v.toNat))]
  | .bnz l _ _ => some [readEvent p l]
  | .branch _ => some []
  | .halt => some []

/-- The number of the statement the host takes after statement `pc`, given the last word it was answered; `none` where the
program ends (30_encoding R78). -/
def stmtNext (pc : Nat) (reply : Word) : Stmt → Option Nat
  | .bnz _ mask target => if reply &&& mask ≠ 0 then some target else some (pc + 1)
  | .branch target => some target
  | .halt => none
  | .wr _ _ | .rd _ | .cmd _ | .wait | .run _ | .ld _ _ | .ldstr _ _ | .lddict _ _ | .ldmap _ _ => some (pc + 1)

end Sys2Proof.Machine
end

