-- ==== Sys2Proof/Safety.lean ====
section
/-! DEFINITION. The terms the statements use: how a command ended, what a reset leaves, the invariant, and the declarative
forms of tokenization, lookup and packing. -/

namespace Sys2Proof.Machine

/-! ### What happens next -/

/-- `s` with `e` as the next thing that happens. -/
def State.withEvent (s : State) (e : Event) : State := { s with inbox := e :: s.inbox }

/-- `s` with a host read of the word at offset `off` next. -/
def State.withRead (s : State) (off : Nat) : State := s.withEvent (.access (.read (s.params.base + off) 4))

/-- `s` with a host write of `v` to the word at offset `off` next. -/
def State.withWrite (s : State) (off : Nat) (v : Word) : State :=
  s.withEvent (.access (.write (s.params.base + off) 4 v))

/-- The idle block is issued command `i`, the engine's turn comes next, and `t` is the state after it. -/
def Runs (i : Instr) (s t : State) : Prop :=
  s.engine = .idle ∧ step ((s.issue (encode i)).withEvent .engine) = .next t

/-! ### Offsets (20_memory R50) -/

/-- The base of each buffer's window. -/
def windowBase : Buf → Nat
  | .byt => 0x01000000
  | .bit => 0x02000000
  | .sym => 0x03000000
  | .chr => 0x04000000
  | .code => 0x05000000
  | .pkb => 0x06000000

/-- The offset of each length register. -/
def lenOffset : Buf → Nat
  | .byt => 0x20
  | .bit => 0x24
  | .sym => 0x28
  | .chr => 0x2C
  | .code => 0x30
  | .pkb => 0x34

/-- The element width E_X of each buffer (20_memory R55). -/
def elemWidth : Buf → Nat
  | .byt | .sym | .chr | .pkb => 8
  | .bit => 1
  | .code => 10

/-- An offset that the map lists: a register, a table entry, or a slot of a buffer's window. -/
abbrev MappedOffset (off : Nat) : Prop :=
  off ∈ [0x00, 0x04, 0x08, 0x0C, 0x10, 0x14, 0x20, 0x24, 0x28, 0x2C, 0x30, 0x34, 0x38, 0x40, 0x44, 0x80, 0x84, 0x88, 0x8C,
    0x90, 0x94] ∨ (0x1000 ≤ off ∧ off < 0x1400) ∨ (0x2000 ≤ off ∧ off < 0x2400) ∨ (0x4000 ≤ off ∧ off < 0x5000) ∨
    (0x01000000 ≤ off ∧ off < 0x07000000)

/-- A word offset inside the block's window (20_memory R50, R52). -/
abbrev WordOffset (off : Nat) : Prop := off % 4 = 0 ∧ off < 2 ^ 27

/-! ### How a command ended -/

/-- The staged elements of a buffer, as words. -/
def Staged.elems (st : Staged) : Buf → Option (List Word)
  | .byt => st.byt.map fun xs => xs.map (·.setWidth 32)
  | .bit => st.bit.map fun xs => xs.map (·.setWidth 32)
  | .sym => st.sym.map fun xs => xs.map (·.setWidth 32)
  | .chr => st.chr.map fun xs => xs.map (·.setWidth 32)
  | .code => st.code.map fun xs => xs.map (·.setWidth 32)
  | .pkb => st.pkb.map fun xs => xs.map (·.setWidth 32)

/-- The staged length of a buffer. -/
def Staged.lens (st : Staged) : Buf → Option Word
  | .byt => st.lenByt
  | .bit => st.lenBit
  | .sym => st.lenSym
  | .chr => st.lenChr
  | .code => st.lenCode
  | .pkb => st.lenPkb

/-- `t` is what the normal end of a command leaves of `s` when it commits exactly `st`: those destinations, each element of
a staged buffer below the staged length, STATUS, ENGINE and ABORT_REQ, and nothing else (60_exceptions R206). -/
structure EndsNormally (s t : State) (st : Staged) : Prop where
  status : t.status = 2
  engine : t.engine = .idle
  abortReq : t.abortReq = false
  errCode : t.errCode = s.errCode
  errPos : t.errPos = s.errPos
  errVal : t.errVal = s.errVal
  cmd : t.cmd = s.cmd
  params : t.params = s.params
  inbox : t.inbox = s.inbox
  replies : t.replies = s.replies
  len : ∀ b, t.data.len b = (st.lens b).getD (s.data.len b)
  padCnt : t.data.padCnt = st.padCnt.getD s.data.padCnt
  totalBytes : t.data.totalBytes = st.totalBytes.getD s.data.totalBytes
  convBytes : t.data.convBytes = st.convBytes.getD s.data.convBytes
  elem : ∀ b i, t.data.mem.elem b i = ((st.elems b).getD []).getD i (s.data.mem.elem b i)
  hist : ∀ b, t.data.mem.histAt b = (st.hist.map fun h => Cells.entry 0 b h).getD (s.data.mem.histAt b)
  map : ∀ b, t.data.mem.mapAt b = s.data.mem.mapAt b
  dict : ∀ c, t.data.mem.dictAt c = s.data.mem.dictAt c

/-- `t` is what the error end of a command leaves of `s`: the error registers, STATUS, ENGINE and ABORT_REQ, and nothing
else (60_exceptions R205). -/
structure EndsInError (s t : State) (code : ErrCode) (pos val : Nat) : Prop where
  status : t.status = 6
  engine : t.engine = .idle
  abortReq : t.abortReq = false
  errCode : t.errCode = BitVec.ofNat 32 (errCodeNumber code)
  errPos : t.errPos = BitVec.ofNat 32 pos
  errVal : t.errVal = BitVec.ofNat 32 val
  cmd : t.cmd = s.cmd
  params : t.params = s.params
  inbox : t.inbox = s.inbox
  replies : t.replies = s.replies
  data : t.data = s.data

/-- `exec i s` answers a next state: the normal end that commits exactly `st`. -/
def Completes (i : Instr) (s : State) (st : Staged) : Prop := ∃ t, exec i s = .next t ∧ EndsNormally s t st

/-- `exec i s` answers a next state: the error end with this code, position and value. -/
def Fails (i : Instr) (s : State) (code : ErrCode) (pos val : Nat) : Prop :=
  ∃ t, exec i s = .next t ∧ EndsInError s t code pos val

/-! ### Resets and the invariant -/

/-- Every register and table at its reset value (10_state R40). -/
structure AtReset (t : State) : Prop where
  cmd : t.cmd = 0
  status : t.status = 0
  errCode : t.errCode = 0
  errPos : t.errPos = 0
  errVal : t.errVal = 0
  len : ∀ b, t.data.len b = 0
  padCnt : t.data.padCnt = 0
  totalBytes : t.data.totalBytes = 0
  convBytes : t.data.convBytes = 0
  hist : ∀ b, t.data.mem.histAt b = 0
  map : ∀ b, t.data.mem.mapAt b = ⟨false, 0⟩
  dict : ∀ c, t.data.mem.dictAt c = ⟨false, 0⟩
  engine : t.engine = .idle
  abortReq : t.abortReq = false

/-- No element at or past the capacity is listed (10_state R30). -/
abbrev Memory.Within (p : Params) (m : Memory) : Prop :=
  Cells.Below p.capByt m.byt ∧ Cells.Below p.capBit m.bit ∧ Cells.Below p.capSym m.sym ∧ Cells.Below p.capChr m.chr ∧
    Cells.Below p.capCode m.code ∧ Cells.Below p.capPkb m.pkb

/-- STATUS, ENGINE, ABORT_REQ, CMD and the snapshot agree: idle with STATUS 0, 2 or 6 and no abort request, or busy with
STATUS 1, CMD the word in flight and the snapshot still the committed data (10_state R21, R23, R38). -/
def State.engineOk (s : State) : Prop :=
  match s.engine with
  | .idle => s.abortReq = false ∧ (s.status = 0 ∨ s.status = 2 ∨ s.status = 6)
  | .busy w snapshot => s.status = 1 ∧ s.cmd = w ∧ snapshot = s.data

/-- ERR_CODE holds a code of 60_exceptions R200 exactly while STATUS.ERR is set, and the error registers are 0 otherwise
(10_state R23, R25). -/
abbrev State.errorsOk (s : State) : Prop :=
  (s.status = 6 → 1 ≤ s.errCode.toNat ∧ s.errCode.toNat ≤ 6) ∧
    (s.status ≠ 6 → s.errCode = 0 ∧ s.errPos = 0 ∧ s.errVal = 0)

/-- What every state of a run from reset satisfies. -/
structure Inv (s : State) : Prop where
  params : s.params.wf = true
  mem : s.data.mem.wf
  within : s.data.mem.Within s.params
  len : ∀ b, (s.data.len b).toNat ≤ s.params.cap b
  engine : s.engineOk
  errors : s.errorsOk

/-! ### What a command may depend on -/

/-- Two operand sets agree on a source; of a buffer, on its valid elements (10_state R30). -/
def AgreeOn (d e : Data) : Source → Prop
  | .len b => d.len b = e.len b
  | .buf b => ∀ i, i < (d.len b).toNat → d.mem.elem b i = e.mem.elem b i
  | .padCnt => d.padCnt = e.padCnt
  | .map => ∀ b, d.mem.mapAt b = e.mem.mapAt b
  | .dict => ∀ c, d.mem.dictAt c = e.mem.dictAt c

/-- Two results agree on a destination; of a buffer, on its valid elements. -/
def SameResult (d e : Data) : Dest → Prop
  | .len b => d.len b = e.len b
  | .buf b => ∀ i, i < (d.len b).toNat → d.mem.elem b i = e.mem.elem b i
  | .padCnt => d.padCnt = e.padCnt
  | .totalBytes => d.totalBytes = e.totalBytes
  | .convBytes => d.convBytes = e.convBytes
  | .hist => ∀ b, d.mem.histAt b = e.mem.histAt b

/-- The buffers whose CAPACITY error a command can end with (60_exceptions R204). -/
def capacityBufs : Instr → List Buf
  | .norm | .valid | .remap | .trim => []
  | .ser | .pad8 | .pad5 | .pad10 | .a2b | .cdec | .blkdec => [.bit]
  | .deserTrunc | .deserPadb | .b2a => [.byt]
  | .cenc | .sdec => [.sym]
  | .senc => [.chr]
  | .pack => [.pkb]
  | .unpack | .blkenc => [.code]
  | .bcomp => [.bit, .code, .pkb]
  | .bdecomp => [.code, .bit, .byt]

/-! ### Declarative forms -/

/-- A byte in the printable band (40_normalizer R100). -/
abbrev Printable (b : Byte) : Prop := 32 ≤ b.toNat ∧ b.toNat ≤ 126

/-- `s` falls into the tokens `ts` and then `rest`, where each token is a key that matches at its place and no longer key
matches there (42_chunk_codec R140). -/
def Tokenizes (keys : List (List Byte)) : List Byte → List (List Byte) → List Byte → Prop
  | s, [], rest => s = rest
  | s, t :: ts, rest =>
    t ∈ keys ∧ t <+: s ∧ (∀ k ∈ keys, k <+: s → k.length ≤ t.length) ∧ Tokenizes keys (s.drop t.length) ts rest

/-- The tokens of `ts` with the position each starts at, the first at `p` (42_chunk_codec R140). -/
def withPositions : Nat → List (List Byte) → List (Nat × List Byte)
  | _, [] => []
  | p, t :: ts => (p, t) :: withPositions (p + t.length) ts

/-- `c` is the lowest valid code whose pattern is `g` (44_block_codec R170). -/
abbrev IsLowestCode (m : Memory) (g c : Code) : Prop :=
  (m.dictAt c.toNat).valid = true ∧ (m.dictAt c.toNat).pat = g ∧
    ∀ c' < c.toNat, ¬ ((m.dictAt c').valid = true ∧ (m.dictAt c').pat = g)

/-- No valid code has the pattern `g` (44_block_codec R170). -/
abbrev NoCode (m : Memory) (g : Code) : Prop :=
  ∀ c < 1024, ¬ ((m.dictAt c).valid = true ∧ (m.dictAt c).pat = g)

/-- The number of a group as a 10-bit pattern. -/
abbrev groupPat (g : List Bit) : Code := BitVec.ofNat 10 (bitsVal g)

/-- The 10-bit groups of a bit string, the last one padded with zeros (44_block_codec R171). -/
def blockGroups (bits : List Bit) : List (List Bit) := groupsOf 10 (padZeros bits (padCount bits.length 10))

/-- The number of a group of 8 bits as a byte. -/
abbrev groupByte (g : List Bit) : Byte := BitVec.ofNat 8 (bitsVal g)

/-- What PACK makes of a sequence of codes: the codes' bits in a row, cut into bytes, with the last partial byte's bits at
its high end (MSB) or its low end (LSB) (44_block_codec R172). -/
def packedBytes (tail : PackTail) (codes : List Code) : List Byte :=
  let bits := codes.flatMap bitsOf
  match tail with
  | .msb => (groupsOf 8 (padZeros bits (padCount bits.length 8))).map groupByte
  | .lsb =>
    (groupsOf 8 bits).map groupByte ++
      if bits.length % 8 = 0 then [] else [groupByte (bits.drop (8 * (bits.length / 8)))]

/-- What UNPACK makes of a sequence of bytes: the bytes' bits in a row, cut into codes, the rest dropped
(44_block_codec R173). -/
def unpackedCodes (bytes : List Byte) : List Code := (groupsOf 10 (bytes.flatMap bitsOf)).map groupPat

/-- The runs of 1s of a bit string, each as that many dots; `n` dots are open (10_state R35). -/
def dotRuns : Nat → List Bit → List (List Byte)
  | n, [] => if n = 0 then [] else [List.replicate n dot]
  | n, b :: bs => if b = 1#1 then dotRuns (n + 1) bs else (if n = 0 then [] else [List.replicate n dot]) ++ dotRuns 0 bs

end Sys2Proof.Machine
end

