-- ==== Sys2Proof/Certificates/Slice0/Obligations.lean ====
section
/-! DEFINITION. The statements for the provers. -/

open Sys2Proof Sys2Proof.Machine

/-! ### Encoding -/

/-- The table of command words (30_encoding R80): each word decodes to its command, as an opcode-table row and as a word. -/
def Obligations.CommandWordsDecodeToTheirRows : Prop :=
  ∀ e ∈ [(0x00000001, Instr.norm), (0x00000002, .valid), (0x00000003, .remap), (0x00000010, .ser),
      (0x00000011, .deserTrunc), (0x00000111, .deserPadb), (0x00000012, .pad8), (0x00000112, .pad5), (0x00000212, .pad10),
      (0x00000013, .trim), (0x00000014, .a2b), (0x00000015, .b2a), (0x00000020, .cenc), (0x00000021, .cdec),
      (0x00000030, .senc), (0x00000031, .sdec), (0x00000040, .pack), (0x00000041, .unpack), (0x00000042, .blkenc),
      (0x00000043, .blkdec), (0x00000044, .bcomp), (0x00000045, .bdecomp)],
    decode (BitVec.ofNat 32 e.1) = .ok e.2 ∧ decodeTableWord 32 e.1 = some e.2

/-- 30_encoding R77: over all words, a word decodes to a command exactly when RSVD is 0, OPC is the command's and MODE is
the command's; equivalently, when the word under the mask 0xFFFF_FFFF is the command's word. So decoding and encoding agree in
both directions. -/
def Obligations.DecodeAcceptsExactlyTheEncodings : Prop :=
  ∀ (w : Word) (i : Instr),
    (decode w = .ok i ↔ w.extractLsb' 12 20 = 0 ∧ w.extractLsb' 0 8 = i.opc ∧ w.extractLsb' 8 4 = i.mode) ∧
      (decode w = .ok i ↔ w &&& 0xFFFFFFFF#32 = encode i)

/-- 30_encoding R76 (with the order of R73): which words are illegal, and which of the three checks refuses each. -/
def Obligations.IllegalWordsAreRefusedInDecodeOrder : Prop :=
  ∀ w : Word,
    let rsvd := (w.extractLsb' 12 20).toNat
    let mode := (w.extractLsb' 8 4).toNat
    let opc := (w.extractLsb' 0 8).toNat
    let unlisted := opc = 0 ∨ (0x04 ≤ opc ∧ opc ≤ 0x0F) ∨ (0x16 ≤ opc ∧ opc ≤ 0x1F) ∨ (0x22 ≤ opc ∧ opc ≤ 0x2F) ∨
      (0x32 ≤ opc ∧ opc ≤ 0x3F) ∨ (0x46 ≤ opc ∧ opc ≤ 0xFF)
    let modeTooBig := (if opc = 0x11 then 1 else if opc = 0x12 then 2 else 0) < mode
    (decode w = .error .reservedBits ↔ rsvd ≠ 0) ∧
      (decode w = .error .unknownOpcode ↔ rsvd = 0 ∧ unlisted) ∧
      (decode w = .error .illegalMode ↔ rsvd = 0 ∧ ¬ unlisted ∧ modeTooBig)

/-! ### The step -/

/-- When the engine's turn is next and the command in flight decodes to `i`, a step is `exec i` on the state with that event
taken, and the operands are the snapshot. The engine's turn is next when it is listed first, or when nothing is listed (log
2). An idle engine waits, and all state is kept (60_exceptions R225). -/
def Obligations.EngineTurnRunsTheDecodedCommand : Prop :=
  (∀ (s : State) (w : Word) (snapshot : Data) (i : Instr), s.engine = .busy w snapshot → decode w = .ok i →
      step (s.withEvent .engine) = exec i s ∧ (s.inbox = [] → step s = exec i s) ∧ s.operands = snapshot) ∧
    ∀ s : State, s.engine = .idle → step (s.withEvent .engine) = .next s ∧ (s.inbox = [] → step s = .next s)

/-- 30_encoding R73, 60_exceptions R207 item 1: on the engine's turn an illegal word ends with ILLEGAL_CMD(0, w), whether or
not an abort is requested, and changes nothing but STATUS, the error registers and the engine's state. That the turn is where
"at once" falls is the model's choice (log 9). -/
def Obligations.IllegalWordEndsWithIllegalCmd : Prop :=
  ∀ (s : State) (w : Word) (snapshot : Data),
    s.engine = .busy w snapshot → (¬ ∃ i, w = encode i) →
      ∃ t, step (s.withEvent .engine) = .next t ∧ EndsInError s t .illegalCmd 0 w.toNat ∧ t.draws = s.draws

/-- 30_encoding R70: a host write to CMD while the engine is idle issues the word in one step. A command that the word
decodes to then runs on the data as they were at the issue, whatever the host writes meanwhile, and ends. While the engine is
busy a write to CMD is ignored. -/
def Obligations.CmdWriteIssuesOnlyWhileIdle : Prop :=
  ∀ (s : State) (w : Word), s.params.baseOk = true →
    (s.engine = .idle →
      ∃ t, step (s.withWrite 0 w) = .next t ∧
        t = { s with
          cmd := w, status := 1, errCode := 0, errPos := 0, errVal := 0, engine := .busy w s.data, abortReq := false } ∧
        t.operands = s.data ∧
        ∀ i, decode w = .ok i →
          step (t.withEvent .engine) = exec i t ∧
            ∃ u, exec i t = .next u ∧ u.engine = .idle ∧ (u.status = 2 ∨ u.status = 6)) ∧
      (∀ v snapshot, s.engine = .busy v snapshot → step (s.withWrite 0 w) = .next s)

/-! ### The port -/

/-- 70_reset_and_hazards R240: while the engine is busy every host write but one to CTRL is ignored. -/
def Obligations.BusyEngineIgnoresWrites : Prop :=
  ∀ (s : State) (w : Word) (snapshot : Data) (off : Nat) (v : Word),
    s.params.baseOk = true → s.engine = .busy w snapshot → WordOffset off → off ≠ 0x08 →
      step (s.withWrite off v) = .next s

/-- 20_memory R52, 93 I1: an access that touches the window and is not an aligned word is refused, a wrong width first. -/
def Obligations.OnlyAlignedWordsAreAdmitted : Prop :=
  ∀ (s : State) (a : Access), s.params.base < a.addr + a.bytes → a.addr < s.params.base + 2 ^ 27 →
    (a.bytes ≠ 4 → step (s.withEvent (.access a)) = .refused .accessNotWord) ∧
      (a.bytes = 4 → a.addr % 4 ≠ 0 → step (s.withEvent (.access a)) = .refused .accessMisaligned)

/-- 20_memory R60: a host read of any word, at any time, is answered with one word and changes nothing else (`draws` counts
the free values used, log 6). -/
def Obligations.ReadsHaveNoSideEffects : Prop :=
  ∀ (s : State) (off : Nat), s.params.baseOk = true → WordOffset off →
    ∃ v n, step (s.withRead off) = .next { s with replies := s.replies ++ [v], draws := n }

/-- 20_memory R53: what a read of each register answers while the engine is idle. -/
def Obligations.RegisterReadsAnswerTheirValues : Prop :=
  ∀ s : State, s.params.baseOk = true → s.engine = .idle →
    ∀ e ∈ [(0x00, s.cmd), (0x04, s.status), (0x08, 0), (0x0C, s.errCode), (0x10, s.errPos), (0x14, s.errVal),
        (0x20, s.data.lenByt), (0x24, s.data.lenBit), (0x28, s.data.lenSym), (0x2C, s.data.lenChr), (0x30, s.data.lenCode),
        (0x34, s.data.lenPkb), (0x38, s.data.padCnt), (0x40, s.data.totalBytes), (0x44, s.data.convBytes),
        (0x80, BitVec.ofNat 32 s.params.capByt), (0x84, BitVec.ofNat 32 s.params.capBit),
        (0x88, BitVec.ofNat 32 s.params.capSym), (0x8C, BitVec.ofNat 32 s.params.capChr),
        (0x90, BitVec.ofNat 32 s.params.capCode), (0x94, BitVec.ofNat 32 s.params.capPkb)],
      step (s.withRead e.1) = .next { s with replies := s.replies ++ [e.2] }

/-- 20_memory R56, with R53 and R57: unmapped offsets read 0 and ignore writes, and writes to the read-only registers and to
HIST are ignored, at any time. -/
def Obligations.UnmappedAndReadOnlyOffsets : Prop :=
  ∀ (s : State) (off : Nat) (v : Word), s.params.baseOk = true →
    (WordOffset off → ¬ MappedOffset off →
      step (s.withRead off) = .next { s with replies := s.replies ++ [0] } ∧ step (s.withWrite off v) = .next s) ∧
    (off ∈ [0x04, 0x0C, 0x10, 0x14, 0x40, 0x44, 0x80, 0x84, 0x88, 0x8C, 0x90, 0x94] ∨ (∃ b < 256, off = 0x1000 + 4 * b) →
      step (s.withWrite off v) = .next s)

/-- 10_state R26, R27: a host write of `v` to a length register, while the engine is idle, stores min(v, CAP_X), as the next
read of it answers, and a write to PAD_CNT stores any 32-bit value; nothing else changes. All seven are 0 after reset. -/
def Obligations.LengthWritesAreClamped : Prop :=
  (∀ (s : State) (v : Word), s.params.wf = true → s.engine = .idle →
    (∀ b, ∃ t, step (s.withWrite (lenOffset b) v) = .next t ∧
      (t.data.len b).toNat = min v.toNat (s.params.cap b) ∧
      (∀ c, c ≠ b → t.data.len c = s.data.len c) ∧
      t = { s with data := t.data } ∧ t.data.padCnt = s.data.padCnt ∧ t.data.totalBytes = s.data.totalBytes ∧
      t.data.convBytes = s.data.convBytes ∧ t.data.mem = s.data.mem ∧
      step (t.withRead (lenOffset b)) = .next { t with replies := t.replies ++ [t.data.len b] }) ∧
    step (s.withWrite 0x38 v) = .next { s with data := { s.data with padCnt := v } }) ∧
  (∀ b, State.reset.data.len b = 0) ∧ State.reset.data.padCnt = 0

/-- 20_memory R54, R55: a host read of an element that exists answers it, whether or not it lies below the length, and a host
write stores the low E_X bits of the value, changes no other element and nothing else, so that the element then reads as
those bits. A slot at or past the capacity reads 0 and ignores writes. -/
def Obligations.ElementWritesKeepTheLowBits : Prop :=
  ∀ (s : State) (b : Buf) (i : Nat) (v : Word), s.params.wf = true → s.engine = .idle → i < 2 ^ 22 →
    (i < s.params.cap b →
      step (s.withRead (windowBase b + 4 * i)) = .next { s with replies := s.replies ++ [s.data.mem.elem b i] } ∧
      ∃ t, step (s.withWrite (windowBase b + 4 * i) v) = .next t ∧
        t.data.mem.elem b i = BitVec.ofNat 32 (v.toNat % 2 ^ elemWidth b) ∧
        (∀ c j, (c ≠ b ∨ j ≠ i) → t.data.mem.elem c j = s.data.mem.elem c j) ∧
        t.data.mem.hist = s.data.mem.hist ∧ t.data.mem.map = s.data.mem.map ∧ t.data.mem.dict = s.data.mem.dict ∧
        t = { s with data := { s.data with mem := t.data.mem } } ∧
        step (t.withRead (windowBase b + 4 * i)) =
          .next { t with replies := t.replies ++ [t.data.mem.elem b i] }) ∧
      (s.params.cap b ≤ i →
        step (s.withWrite (windowBase b + 4 * i) v) = .next s ∧
          step (s.withRead (windowBase b + 4 * i)) = .next { s with replies := s.replies ++ [0] })

/-- 20_memory R57: what reads and writes of the table windows do, while the engine is idle. -/
def Obligations.TableWindowsKeepTheirFields : Prop :=
  ∀ (s : State) (v : Word), s.params.baseOk = true → s.engine = .idle →
    (∀ b < 256,
      step (s.withRead (0x1000 + 4 * b)) = .next { s with replies := s.replies ++ [s.data.mem.histAt b] }) ∧
    (∀ b < 256, step (s.withRead (0x2000 + 4 * b)) = .next { s with
      replies := s.replies ++ [BitVec.ofNat 32 (256 * (s.data.mem.mapAt b).valid.toNat + (s.data.mem.mapAt b).value.toNat)] }) ∧
    (∀ c < 1024, step (s.withRead (0x4000 + 4 * c)) = .next { s with
      replies := s.replies ++ [BitVec.ofNat 32 (32768 * (s.data.mem.dictAt c).valid.toNat + (s.data.mem.dictAt c).pat.toNat)] }) ∧
    (∀ b < 256, ∃ t, step (s.withWrite (0x2000 + 4 * b) v) = .next t ∧
      t.data.mem.mapAt b = ⟨v.getLsbD 8, v.setWidth 8⟩ ∧
      (∀ c, c ≠ b → t.data.mem.mapAt c = s.data.mem.mapAt c) ∧
      (∀ c i, t.data.mem.elem c i = s.data.mem.elem c i) ∧
      t.data.mem.hist = s.data.mem.hist ∧ t.data.mem.dict = s.data.mem.dict ∧
      t = { s with data := { s.data with mem := t.data.mem } } ∧
      step (t.withRead (0x2000 + 4 * b)) = .next { t with replies := t.replies ++ [v &&& 0x1FF#32] }) ∧
    (∀ c < 1024, ∃ t, step (s.withWrite (0x4000 + 4 * c) v) = .next t ∧
      t.data.mem.dictAt c = ⟨v.getLsbD 15, v.setWidth 10⟩ ∧
      (∀ d, d ≠ c → t.data.mem.dictAt d = s.data.mem.dictAt d) ∧
      (∀ d i, t.data.mem.elem d i = s.data.mem.elem d i) ∧
      t.data.mem.hist = s.data.mem.hist ∧ t.data.mem.map = s.data.mem.map ∧
      t = { s with data := { s.data with mem := t.data.mem } } ∧
      step (t.withRead (0x4000 + 4 * c)) = .next { t with replies := t.replies ++ [v &&& 0x83FF#32] })

/-- 70_reset_and_hazards R241: while command `i` runs, a read of what it does not write (the writes column of 30_encoding
R74) answers the committed value, and a read of what it writes answers some value of its width. The model counts every
existing element of a written buffer as written (log 6). -/
def Obligations.BusyReadsAnswerWhatIsNotWritten : Prop :=
  ∀ (s : State) (w : Word) (snapshot : Data) (i : Instr) (off : Nat),
    s.params.baseOk = true → s.engine = .busy w snapshot → decode w = .ok i → WordOffset off →
      ((∀ d, destOf s.params (locate off) = some d → d ∉ writesOf i) →
        step (s.withRead off) = .next { s with replies := s.replies ++ [s.committed (locate off)] }) ∧
      (∀ d, destOf s.params (locate off) = some d → d ∈ writesOf i →
        ∃ v : Word, v.toNat < 2 ^ widthOf (locate off) ∧
          step (s.withRead off) = .next { s with replies := s.replies ++ [v], draws := s.draws + 1 })

/-- 10_state R24, 60_exceptions R212 item 1: a CTRL write with ABORT = 1 and SRST = 0 sets ABORT_REQ while the engine is busy
and does nothing while it is idle; with both bits 0 it does nothing. -/
def Obligations.CtrlAbortSetsTheRequestWhileBusy : Prop :=
  ∀ (s : State) (v : Word), s.params.baseOk = true → v.getLsbD 1 = false →
    (v.getLsbD 0 = false → step (s.withWrite 8 v) = .next s) ∧
      (s.engine = .idle → step (s.withWrite 8 v) = .next s) ∧
      (∀ w snapshot, s.engine = .busy w snapshot → v.getLsbD 0 = true →
        step (s.withWrite 8 v) = .next { s with abortReq := true })

/-- 10_state R40, 70_reset_and_hazards R230, R231: after the hardware reset, and after a CTRL write with SRST = 1 at any time
and whatever ABORT is, every register and table holds its reset value and a command in flight is abandoned. The build stays,
so the capacity registers keep their values. The state after reset is such a state. -/
def Obligations.ResetsPutEverythingAtItsResetValue : Prop :=
  AtReset State.reset ∧ (∀ p, AtReset (State.resetWith p)) ∧
  ∀ s : State,
    (∃ t, step (s.withEvent .hardReset) = .next t ∧ AtReset t ∧ t.params = s.params ∧ t.inbox = s.inbox ∧
      t.replies = s.replies ∧ ∀ b, t.readReg (.cap b) = BitVec.ofNat 32 (s.params.cap b)) ∧
    ∀ v : Word, s.params.baseOk = true → v.getLsbD 1 = true →
      ∃ t, step (s.withWrite 8 v) = .next t ∧ AtReset t ∧ t.params = s.params ∧ t.inbox = s.inbox ∧
        t.replies = s.replies

/-! ### How commands end -/

/-- 60_exceptions R205, R206, R208: every command, in every state, answers a next state: the engine is idle, ABORT_REQ is 0,
CMD is kept, and either STATUS is 2 with the error registers as issue left them, or STATUS is 6 with a code of R200 and the
committed data exactly as before. -/
def Obligations.EveryCommandCommitsAllOrNothing : Prop :=
  ∀ (i : Instr) (s : State), ∃ t, exec i s = .next t ∧ t.engine = .idle ∧ t.abortReq = false ∧ t.cmd = s.cmd ∧
    t.params = s.params ∧ t.inbox = s.inbox ∧ t.replies = s.replies ∧
    ((t.status = 2 ∧ t.errCode = s.errCode ∧ t.errPos = s.errPos ∧ t.errVal = s.errVal) ∨
      (t.status = 6 ∧ 1 ≤ t.errCode.toNat ∧ t.errCode.toNat ≤ 6 ∧ t.data = s.data))

/-- 30_encoding R74, the writes column: a command changes no length register, no element of a buffer, no count, no statistic
and no HIST entry outside its column, and no command changes MAP, DICT, CMD or the build. -/
def Obligations.CommandsWriteOnlyTheirColumn : Prop :=
  ∀ (i : Instr) (s t : State), exec i s = .next t →
    (∀ b, .len b ∉ writesOf i → t.data.len b = s.data.len b) ∧
    (∀ b, .buf b ∉ writesOf i → ∀ j, t.data.mem.elem b j = s.data.mem.elem b j) ∧
    (.padCnt ∉ writesOf i → t.data.padCnt = s.data.padCnt) ∧
    (.totalBytes ∉ writesOf i → t.data.totalBytes = s.data.totalBytes) ∧
    (.convBytes ∉ writesOf i → t.data.convBytes = s.data.convBytes) ∧
    (.hist ∉ writesOf i → ∀ b, t.data.mem.histAt b = s.data.mem.histAt b) ∧
    (∀ b, t.data.mem.mapAt b = s.data.mem.mapAt b) ∧ (∀ c, t.data.mem.dictAt c = s.data.mem.dictAt c) ∧
    t.cmd = s.cmd ∧ t.params = s.params

/-- 10_state R30: after a command, every element at or past its buffer's length holds what it held before. -/
def Obligations.ElementsPastTheLengthKeepTheirValue : Prop :=
  ∀ (i : Instr) (s t : State), Inv s → exec i s = .next t →
    ∀ b j, (t.data.len b).toNat ≤ j → t.data.mem.elem b j = s.data.mem.elem b j

/-- 30_encoding R74, the reads column, with 10_state R30 and 20_memory R66: a command's outcome depends on nothing but the
valid elements and registers its column names. Two runs whose operands agree there end alike: the same STATUS, the same
error registers on an error, and the same results on a commit. -/
def Obligations.CommandsReadOnlyTheirColumn : Prop :=
  ∀ (i : Instr) (s₁ s₂ t₁ t₂ : State), Inv s₁ → Inv s₂ → s₁.params = s₂.params →
    s₁.abortReq = false → s₂.abortReq = false →
    (∀ src ∈ readsOf i, AgreeOn s₁.data s₂.data src) →
    exec i s₁ = .next t₁ → exec i s₂ = .next t₂ →
      t₁.status = t₂.status ∧
      (t₁.status = 6 → t₁.errCode = t₂.errCode ∧ t₁.errPos = t₂.errPos ∧ t₁.errVal = t₂.errVal) ∧
      (t₁.status = 2 → ∀ d ∈ writesOf i, SameResult t₁.data t₂.data d)

/-- 60_exceptions R212 items 2 and 3: a command with an abort requested ends either with ABORTED(0, 0) and nothing committed,
or exactly as it would have ended without the request; `draws` counts the free value used (log 7). -/
def Obligations.AbortHasExactlyTwoOutcomes : Prop :=
  ∀ (i : Instr) (s : State), s.abortReq = true →
    ∃ t u, exec i s = .next t ∧ exec i { s with abortReq := false } = .next u ∧
      (EndsInError s t .aborted 0 0 ∨ t = { u with draws := t.draws })

/-- 60_exceptions R204: which command can end with which error, and for CAPACITY with which buffer. -/
def Obligations.CommandsEndOnlyWithTheirErrors : Prop :=
  ∀ (i : Instr) (s t : State), Inv s → exec i s = .next t → t.status = 6 →
    (s.abortReq = true ∧ t.errCode = 6) ∨
    (t.errCode = 1 ∧ i ∈ [Instr.valid, .a2b]) ∨
    (t.errCode = 2 ∧ i ∈ [Instr.cdec, .senc, .sdec, .blkenc, .blkdec, .bcomp, .bdecomp]) ∨
    (t.errCode = 3 ∧ ∃ b ∈ capacityBufs i, t.errVal = BitVec.ofNat 32 (bufId b)) ∨
    (t.errCode = 4 ∧ i = .trim)

/-! ### Normalizer -/

/-- 40_normalizer R103: NORM. -/
def Obligations.NormSubstitutesAndCounts : Prop :=
  encode .norm = 0x00000001 ∧
  ∀ s : State, s.abortReq = false → s.operands.lenByt.toNat ≤ s.params.capByt →
    ∃ h : Cells Word,
      (∀ b : Byte, Cells.entry 0 b.toNat h =
        BitVec.ofNat 32 (if Printable b then 0 else s.operands.bytSeq.count b)) ∧
      Completes .norm s
        { byt := some (s.operands.bytSeq.map fun b => if Printable b then b else normSubst s.params b)
          totalBytes := some s.operands.lenByt
          convBytes := some (BitVec.ofNat 32 (s.operands.bytSeq.countP fun b => ¬ Printable b))
          hist := some h }

/-- 10_state R31: the ConversionMap derived from HIST after NORM holds, for each output byte, exactly the substituted bytes of
the input that map to it. -/
def Obligations.ConversionMapHoldsTheSubstitutedBytes : Prop :=
  ∀ s t : State, Inv s → Runs .norm s t →
    ∀ (o : Byte) (n : Nat), n ∈ cmapOf t.params t.data.mem o ↔
      ∃ b ∈ s.data.bytSeq, b.toNat = n ∧ ¬ Printable b ∧ normSubst s.params b = o

/-- 40_normalizer R100, R101: the static substitution on each of the four ranges, the two fixed values, and the band. -/
def Obligations.NormFollowsItsFourCases : Prop :=
  ∀ (p : Params) (b : Byte), p.wf = true →
    Printable (normSubst p b) ∧ normSubst p (normSubst p b) = normSubst p b ∧ normSubst p 0 = 48 ∧ normSubst p 10 = 32 ∧
    (Printable b → normSubst p b = b) ∧
    (b.toNat ≤ 15 → normSubst p b = p.normCtrl.getD b.toNat 0) ∧
    (b = 27 → normSubst p b = p.normCtrl.getD 16 0) ∧ (b = 127 → normSubst p b = p.normCtrl.getD 17 0) ∧
    (16 ≤ b.toNat → b.toNat ≤ 31 → b ≠ 27 → (normSubst p b).toNat = b.toNat + p.normLinOffset) ∧
    (128 ≤ b.toNat → (normSubst p b).toNat = 48 + (b.toNat - 128) % 75)

/-- 40_normalizer R104: VALID. -/
def Obligations.ValidReportsTheFirstOffender : Prop :=
  encode .valid = 0x00000002 ∧
  ∀ s : State, s.abortReq = false →
    ((∀ b ∈ s.operands.bytSeq, Printable b) → Completes .valid s { }) ∧
    (∀ xs b ys, s.operands.bytSeq = xs ++ b :: ys → (∀ x ∈ xs, Printable x) → ¬ Printable b →
      Fails .valid s .invalidInput xs.length b.toNat)

/-- 40_normalizer R105: REMAP. -/
def Obligations.RemapSubstitutesMappedBytes : Prop :=
  encode .remap = 0x00000003 ∧
  ∀ s : State, s.abortReq = false → s.operands.lenByt.toNat ≤ s.params.capByt →
    Completes .remap s
      { byt := some (s.operands.bytSeq.map fun b =>
          if (s.operands.mem.mapAt b.toNat).valid then (s.operands.mem.mapAt b.toNat).value else b) }

/-! ### Bit Serializer -/

/-- 41_bit_serializer R120: SER. -/
def Obligations.SerEmitsMsbFirst : Prop :=
  encode .ser = 0x00000010 ∧
  ∀ s : State, s.abortReq = false →
    let n := s.operands.lenByt.toNat
    (8 * n ≤ s.params.capBit →
      Completes .ser s { bit := some (s.operands.bytSeq.flatMap bitsOf), lenBit := some (BitVec.ofNat 32 (8 * n)) }) ∧
    (s.params.capBit < 8 * n → Fails .ser s .capacity (s.params.capBit / 8) 2)

/-- 41_bit_serializer R122: PAD.8, PAD.5 and PAD.10. -/
def Obligations.PadAppendsZerosAndRecordsTheCount : Prop :=
  encode .pad8 = 0x00000012 ∧ encode .pad5 = 0x00000112 ∧ encode .pad10 = 0x00000212 ∧
  ∀ e ∈ [(Instr.pad8, 8), (.pad5, 5), (.pad10, 10)], ∀ s : State, s.abortReq = false →
    let len := s.operands.lenBit.toNat
    let n := (e.2 - len % e.2) % e.2
    (len + n ≤ s.params.capBit →
      Completes e.1 s
        { bit := some (s.operands.bitSeq ++ List.replicate n 0#1)
          lenBit := some (BitVec.ofNat 32 (len + n))
          padCnt := some (BitVec.ofNat 32 n) }) ∧
    (len ≤ s.params.capBit → s.params.capBit < len + n → Fails e.1 s .capacity len 2)

/-- 41_bit_serializer R123: DESER.TRUNC and DESER.PADB. -/
def Obligations.DeserReadsBytesMsbFirst : Prop :=
  encode .deserTrunc = 0x00000011 ∧ encode .deserPadb = 0x00000111 ∧
  ∀ s : State, s.abortReq = false →
    let len := s.operands.lenBit.toNat
    let n := (8 - len % 8) % 8
    (len / 8 ≤ s.params.capByt →
      Completes .deserTrunc s
        { byt := some ((groupsOf 8 s.operands.bitSeq).map groupByte), lenByt := some (BitVec.ofNat 32 (len / 8)) }) ∧
    (s.params.capByt < len / 8 → Fails .deserTrunc s .capacity (8 * s.params.capByt) 1) ∧
    ((len + n) / 8 ≤ s.params.capByt →
      Completes .deserPadb s
        { byt := some ((groupsOf 8 (padZeros s.operands.bitSeq n)).map groupByte)
          lenByt := some (BitVec.ofNat 32 ((len + n) / 8))
          padCnt := some (BitVec.ofNat 32 n) }) ∧
    (s.params.capByt < (len + n) / 8 → Fails .deserPadb s .capacity (8 * s.params.capByt) 1)

/-- 41_bit_serializer R124: TRIM. -/
def Obligations.TrimRemovesTheRecordedPadding : Prop :=
  encode .trim = 0x00000013 ∧
  ∀ s : State, s.abortReq = false →
    (s.operands.padCnt.toNat ≤ s.operands.lenBit.toNat →
      Completes .trim s
        { lenBit := some (BitVec.ofNat 32 (s.operands.lenBit.toNat - s.operands.padCnt.toNat)) }) ∧
    (s.operands.lenBit.toNat < s.operands.padCnt.toNat →
      Fails .trim s .padRange s.operands.lenBit.toNat s.operands.padCnt.toNat)

/-- 41_bit_serializer R125: A2B. -/
def Obligations.A2bParsesBinaryText : Prop :=
  encode .a2b = 0x00000014 ∧
  ∀ s : State, s.abortReq = false →
    let binary : Byte → Prop := fun c => c = 0x30#8 ∨ c = 0x31#8
    ((∀ c ∈ s.operands.bytSeq, binary c) → s.operands.lenByt.toNat ≤ s.params.capBit →
      Completes .a2b s
        { bit := some (s.operands.bytSeq.map fun c => if c = 0x31#8 then 1#1 else 0#1)
          lenBit := some (BitVec.ofNat 32 s.operands.lenByt.toNat) }) ∧
    (∀ xs c ys, s.operands.bytSeq = xs ++ c :: ys → (∀ x ∈ xs, binary x) → ¬ binary c → xs.length ≤ s.params.capBit →
      Fails .a2b s .invalidInput xs.length c.toNat) ∧
    (s.params.capBit < s.operands.lenByt.toNat → (∀ c ∈ s.operands.bytSeq.take (s.params.capBit + 1), binary c) →
      Fails .a2b s .capacity s.params.capBit 2)

/-- 41_bit_serializer R126: B2A. -/
def Obligations.B2aWritesBinaryText : Prop :=
  encode .b2a = 0x00000015 ∧
  ∀ s : State, s.abortReq = false →
    (s.operands.lenBit.toNat ≤ s.params.capByt →
      Completes .b2a s
        { byt := some (s.operands.bitSeq.map fun b => if b = 1#1 then 0x31#8 else 0x30#8)
          lenByt := some (BitVec.ofNat 32 s.operands.lenBit.toNat) }) ∧
    (s.params.capByt < s.operands.lenBit.toNat → Fails .b2a s .capacity s.params.capByt 1)

/-! ### Chunk Codec and Symbol Codec -/

/-- 42_chunk_codec R140: every sequence falls into greedy tokens and a rest where no key matches, and LM answers exactly
those tokens with their positions, or raises DICT_LOOKUP where the rest begins. -/
def Obligations.LongestMatchIsGreedyTokenization : Prop :=
  ∀ keys : List (List Byte), [] ∉ keys → ∀ s : List Byte,
    (∃ ts rest, Tokenizes keys s ts rest ∧ ∀ k ∈ keys, ¬ k <+: rest) ∧
    (∀ ts, Tokenizes keys s ts [] → longestMatch keys s = .ok (withPositions 0 ts)) ∧
    (∀ ts c rest, Tokenizes keys s ts (c :: rest) → (∀ k ∈ keys, ¬ k <+: c :: rest) →
      longestMatch keys s = .error ⟨.dictLookup, ts.flatten.length, c.toNat⟩)

/-- 10_state R34, R35, R36, R37: every entry of CHUNK_TAB is its chunk's runs of 1s as dots joined by single spaces, the keys
are the 12 distinct non-empty entries, CHUNK_REV_LOWEST takes the smallest chunk of each, and SYM_TAB pairs its six keys with
their six characters, both ways. -/
def Obligations.ChunkTableFollowsTheRunRule : Prop :=
  (∀ c : Chunk, chunkString c.toNat = [spc].intercalate (dotRuns 0 (bitsOf c))) ∧
    (∀ k, k ∈ chunkKeys ↔ k ≠ [] ∧ ∃ c < 32, chunkString c = k) ∧ chunkKeys.Nodup ∧
    (∀ j (h : j < chunkKeys.length), (chunksOf chunkKeys[j]).head? = some (chunkRevLowest.getD j 0).toNat) ∧
    dot = 0x2E#8 ∧ spc = 0x20#8 ∧
    symKeys = [[dot], [dot, dot], [dot, dot, dot], [dot, dot, dot, dot], [dot, dot, dot, dot, dot], [dot, spc, dot]] ∧
    symKeys.map symChar = [0x2A#8, 0x25#8, 0x24#8, 0x23#8, 0x21#8, 0x26#8] ∧ (symKeys.map symChar).Nodup ∧
    ∀ c k, symKeyOf c = some k ↔ k ∈ symKeys ∧ symChar k = c

/-- 42_chunk_codec R142: CENC. -/
def Obligations.CencConcatenatesChunkStrings : Prop :=
  encode .cenc = 0x00000020 ∧
  ∀ s : State, s.abortReq = false →
    let n := (5 - s.operands.lenBit.toNat % 5) % 5
    let chunks := groupsOf 5 (padZeros s.operands.bitSeq n)
    let out := chunks.flatMap fun g => chunkString (bitsVal g)
    (out.length ≤ s.params.capSym →
      Completes .cenc s
        { sym := some out, lenSym := some (BitVec.ofNat 32 out.length), padCnt := some (BitVec.ofNat 32 n) }) ∧
    (∀ xs g ys, chunks = xs ++ g :: ys → (xs.flatMap fun g => chunkString (bitsVal g)).length ≤ s.params.capSym →
      s.params.capSym < ((xs ++ [g]).flatMap fun g => chunkString (bitsVal g)).length →
      Fails .cenc s .capacity (5 * xs.length) 3)

/-- 42_chunk_codec R143: CDEC, with R141: the empty string is no key; and 10_state R36: CHUNK_REV is the parameter of the
build, and CHUNK_TAB maps the chunk it gives each key to that key. -/
def Obligations.CdecDecodesGreedyTokens : Prop :=
  encode .cdec = 0x00000021 ∧
  (∀ p : Params, p.wf = true →
    (∀ k ∈ chunkKeys, chunkString (chunkRev p k).toNat = k) ∧
    ∀ j (h : j < chunkKeys.length), p.chunkRev[j]? = some (chunkRev p chunkKeys[j])) ∧
  ∀ s : State, s.abortReq = false →
    (∀ ts, Tokenizes chunkKeys s.operands.symSeq ts [] → 5 * ts.length ≤ s.params.capBit →
      Completes .cdec s
        { bit := some (ts.flatMap fun k => bitsOf (chunkRev s.params k))
          lenBit := some (BitVec.ofNat 32 (5 * ts.length)) }) ∧
    (∀ ts c rest, Tokenizes chunkKeys s.operands.symSeq ts (c :: rest) → (∀ k ∈ chunkKeys, ¬ k <+: c :: rest) →
      5 * ts.length ≤ s.params.capBit → Fails .cdec s .dictLookup ts.flatten.length c.toNat) ∧
    (∀ ts k rest, Tokenizes chunkKeys s.operands.symSeq (ts ++ [k]) rest → 5 * ts.length ≤ s.params.capBit →
      s.params.capBit < 5 * (ts.length + 1) → Fails .cdec s .capacity ts.flatten.length 2)

/-- 42_chunk_codec R144 item 1: what CENC stages holds only dots and single inner spaces. -/
def Obligations.CencOutputIsDotsAndSingleSpaces : Prop :=
  ∀ s t : State, Inv s → s.abortReq = false → exec .cenc s = .next t → t.status = 2 →
    let out := t.data.symSeq
    (∀ c ∈ out, c = dot ∨ c = spc) ∧ out.head? ≠ some spc ∧ out.getLast? ≠ some spc ∧ ¬ [spc, spc] <:+: out

/-- 43_symbol_codec R160: SENC. -/
def Obligations.SencEncodesGreedyTokens : Prop :=
  encode .senc = 0x00000030 ∧
  ∀ s : State, s.abortReq = false →
    (∀ ts, Tokenizes symKeys s.operands.symSeq ts [] → ts.length ≤ s.params.capChr →
      Completes .senc s { chr := some (ts.map symChar), lenChr := some (BitVec.ofNat 32 ts.length) }) ∧
    (∀ ts c rest, Tokenizes symKeys s.operands.symSeq ts (c :: rest) → (∀ k ∈ symKeys, ¬ k <+: c :: rest) →
      ts.length ≤ s.params.capChr → Fails .senc s .dictLookup ts.flatten.length c.toNat) ∧
    (∀ ts k rest, Tokenizes symKeys s.operands.symSeq (ts ++ [k]) rest → ts.length = s.params.capChr →
      Fails .senc s .capacity ts.flatten.length 4)

/-- 43_symbol_codec R161: SDEC. -/
def Obligations.SdecExpandsCharacters : Prop :=
  encode .sdec = 0x00000031 ∧
  ∀ s : State, s.abortReq = false →
    let keys : List Byte → List (List Byte) := fun cs => cs.filterMap symKeyOf
    let coded : Byte → Prop := fun c => c ∈ [0x2A#8, 0x25#8, 0x24#8, 0x23#8, 0x21#8, 0x26#8]
    ((∀ c ∈ s.operands.chrSeq, coded c) → (keys s.operands.chrSeq).flatten.length ≤ s.params.capSym →
      Completes .sdec s
        { sym := some (keys s.operands.chrSeq).flatten
          lenSym := some (BitVec.ofNat 32 (keys s.operands.chrSeq).flatten.length) }) ∧
    (∀ xs c ys, s.operands.chrSeq = xs ++ c :: ys → (∀ x ∈ xs, coded x) →
      (keys xs).flatten.length ≤ s.params.capSym →
      (¬ coded c → Fails .sdec s .dictLookup xs.length c.toNat) ∧
      (coded c → s.params.capSym < (keys (xs ++ [c])).flatten.length → Fails .sdec s .capacity xs.length 3))

/-! ### Block Codec -/

/-- 44_block_codec R172: PACK, under either PACK_TAIL. -/
def Obligations.PackCutsCodesIntoBytes : Prop :=
  encode .pack = 0x00000040 ∧
  ∀ s : State, s.abortReq = false →
    let k := s.operands.lenCode.toNat
    ((10 * k + 7) / 8 ≤ s.params.capPkb →
      Completes .pack s
        { pkb := some (packedBytes s.params.packTail s.operands.codeSeq)
          lenPkb := some (BitVec.ofNat 32 ((10 * k + 7) / 8)) }) ∧
    (∀ j < k, 10 * j / 8 ≤ s.params.capPkb → s.params.capPkb < 10 * (j + 1) / 8 → Fails .pack s .capacity j 6) ∧
    (10 * k / 8 = s.params.capPkb → 10 * k % 8 ≠ 0 → Fails .pack s .capacity k 6)

/-- 44_block_codec R173: UNPACK. -/
def Obligations.UnpackCutsBytesIntoCodes : Prop :=
  encode .unpack = 0x00000041 ∧
  ∀ s : State, s.abortReq = false →
    let m := s.operands.lenPkb.toNat
    (8 * m / 10 ≤ s.params.capCode →
      Completes .unpack s
        { code := some (unpackedCodes s.operands.pkbSeq), lenCode := some (BitVec.ofNat 32 (8 * m / 10)) }) ∧
    (∀ i < m, 8 * i / 10 ≤ s.params.capCode → s.params.capCode < 8 * (i + 1) / 10 → Fails .unpack s .capacity i 5)

/-- 44_block_codec R171 with the lookup of R170: BLKENC. -/
def Obligations.BlkencLooksUpLowestCodes : Prop :=
  encode .blkenc = 0x00000042 ∧
  ∀ s : State, s.abortReq = false →
    let groups := blockGroups s.operands.bitSeq
    let n := (10 - s.operands.lenBit.toNat % 10) % 10
    (∀ cs, List.Forall₂ (fun g c => IsLowestCode s.operands.mem (groupPat g) c) groups cs →
      cs.length ≤ s.params.capCode →
      Completes .blkenc s
        { code := some cs
          lenCode := some (BitVec.ofNat 32 ((s.operands.lenBit.toNat + n) / 10))
          padCnt := some (BitVec.ofNat 32 n) }) ∧
    (∀ gs g rest, groups = gs ++ g :: rest → (∀ x ∈ gs, ¬ NoCode s.operands.mem (groupPat x)) →
      gs.length ≤ s.params.capCode →
      (NoCode s.operands.mem (groupPat g) → Fails .blkenc s .dictLookup (10 * gs.length) (bitsVal g)) ∧
      (¬ NoCode s.operands.mem (groupPat g) → gs.length = s.params.capCode →
        Fails .blkenc s .capacity (10 * gs.length) 5))

/-- 44_block_codec R174 with the lookup of R170: BLKDEC. -/
def Obligations.BlkdecConcatenatesPatterns : Prop :=
  encode .blkdec = 0x00000043 ∧
  ∀ s : State, s.abortReq = false →
    let entry : Code → DictEntry := fun c => s.operands.mem.dictAt c.toNat
    ((∀ c ∈ s.operands.codeSeq, (entry c).valid = true) → 10 * s.operands.lenCode.toNat ≤ s.params.capBit →
      Completes .blkdec s
        { bit := some (s.operands.codeSeq.flatMap fun c => bitsOf (entry c).pat)
          lenBit := some (BitVec.ofNat 32 (10 * s.operands.lenCode.toNat)) }) ∧
    (∀ xs c ys, s.operands.codeSeq = xs ++ c :: ys → (∀ x ∈ xs, (entry x).valid = true) →
      10 * xs.length ≤ s.params.capBit →
      ((entry c).valid = false → Fails .blkdec s .dictLookup xs.length c.toNat) ∧
      ((entry c).valid = true → s.params.capBit < 10 * (xs.length + 1) → Fails .blkdec s .capacity xs.length 2))

/-- 44_block_codec R175: BCOMP is SER, then BLKENC, then PACK on staged results with one commit; the first step that raises
ends it. -/
def Obligations.BcompIsSerBlkencPack : Prop :=
  encode .bcomp = 0x00000044 ∧
  ∀ s : State, s.abortReq = false →
    let n := s.operands.lenByt.toNat
    let bits := s.operands.bytSeq.flatMap bitsOf
    let groups := blockGroups bits
    (s.params.capBit < 8 * n → Fails .bcomp s .capacity (s.params.capBit / 8) 2) ∧
    (8 * n ≤ s.params.capBit →
      (∀ gs g rest, groups = gs ++ g :: rest → (∀ x ∈ gs, ¬ NoCode s.operands.mem (groupPat x)) →
        gs.length ≤ s.params.capCode →
        (NoCode s.operands.mem (groupPat g) → Fails .bcomp s .dictLookup (10 * gs.length) (bitsVal g)) ∧
        (¬ NoCode s.operands.mem (groupPat g) → gs.length = s.params.capCode →
          Fails .bcomp s .capacity (10 * gs.length) 5)) ∧
      (∀ cs, List.Forall₂ (fun g c => IsLowestCode s.operands.mem (groupPat g) c) groups cs →
        cs.length ≤ s.params.capCode →
        ((10 * cs.length + 7) / 8 ≤ s.params.capPkb →
          Completes .bcomp s
            { bit := some bits
              lenBit := some (BitVec.ofNat 32 (8 * n))
              code := some cs
              lenCode := some (BitVec.ofNat 32 cs.length)
              pkb := some (packedBytes s.params.packTail cs)
              lenPkb := some (BitVec.ofNat 32 ((10 * cs.length + 7) / 8))
              padCnt := some (BitVec.ofNat 32 ((10 - 8 * n % 10) % 10)) }) ∧
        (∀ j < cs.length, 10 * j / 8 ≤ s.params.capPkb → s.params.capPkb < 10 * (j + 1) / 8 →
          Fails .bcomp s .capacity j 6) ∧
        (10 * cs.length / 8 = s.params.capPkb → 10 * cs.length % 8 ≠ 0 → Fails .bcomp s .capacity cs.length 6)))

/-- 44_block_codec R176: BDECOMP is UNPACK, then BLKDEC, then DESER.TRUNC on staged results with one commit; the first step
that raises ends it. -/
def Obligations.BdecompIsUnpackBlkdecDeser : Prop :=
  encode .bdecomp = 0x00000045 ∧
  ∀ s : State, s.abortReq = false →
    let m := s.operands.lenPkb.toNat
    let cs := unpackedCodes s.operands.pkbSeq
    let entry : Code → DictEntry := fun c => s.operands.mem.dictAt c.toNat
    let bits := cs.flatMap fun c => bitsOf (entry c).pat
    (∀ i < m, 8 * i / 10 ≤ s.params.capCode → s.params.capCode < 8 * (i + 1) / 10 → Fails .bdecomp s .capacity i 5) ∧
    (8 * m / 10 ≤ s.params.capCode →
      (∀ xs c ys, cs = xs ++ c :: ys → (∀ x ∈ xs, (entry x).valid = true) → 10 * xs.length ≤ s.params.capBit →
        ((entry c).valid = false → Fails .bdecomp s .dictLookup xs.length c.toNat) ∧
        ((entry c).valid = true → s.params.capBit < 10 * (xs.length + 1) → Fails .bdecomp s .capacity xs.length 2)) ∧
      ((∀ c ∈ cs, (entry c).valid = true) → 10 * cs.length ≤ s.params.capBit →
        (10 * cs.length / 8 ≤ s.params.capByt →
          Completes .bdecomp s
            { code := some cs
              lenCode := some (BitVec.ofNat 32 (8 * m / 10))
              bit := some bits
              lenBit := some (BitVec.ofNat 32 (10 * cs.length))
              byt := some ((groupsOf 8 bits).map groupByte)
              lenByt := some (BitVec.ofNat 32 (10 * cs.length / 8)) }) ∧
        (s.params.capByt < 10 * cs.length / 8 → Fails .bdecomp s .capacity (8 * s.params.capByt) 1)))

/-! ### Laws over several commands -/

/-- 40_normalizer R106 item 1: VALID after NORM succeeds. -/
def Obligations.ValidAfterNormSucceeds : Prop :=
  ∀ s t u : State, Inv s → Runs .norm s t → Runs .valid t u → t.status = 2 ∧ u.status = 2

/-- 41_bit_serializer R127 item 1: SER, then DESER.TRUNC, restores BYT and LEN_BYT. -/
def Obligations.DeserAfterSerRestoresBytes : Prop :=
  ∀ s t u : State, Inv s → Runs .ser s t → t.status = 2 → Runs .deserTrunc t u →
    u.status = 2 ∧ u.data.lenByt = s.data.lenByt ∧ u.data.bytSeq = s.data.bytSeq

/-- 41_bit_serializer R127 item 2: SER, PAD.W, TRIM and DESER.TRUNC restore BYT, for each W. -/
def Obligations.PaddingIsUndoneByTrim : Prop :=
  ∀ s t₁ t₂ t₃ u : State, ∀ pad ∈ [Instr.pad8, .pad5, .pad10], Inv s →
    Runs .ser s t₁ → t₁.status = 2 → Runs pad t₁ t₂ → t₂.status = 2 → Runs .trim t₂ t₃ → Runs .deserTrunc t₃ u →
      t₃.status = 2 ∧ u.status = 2 ∧ u.data.lenByt = s.data.lenByt ∧ u.data.bytSeq = s.data.bytSeq

/-- 41_bit_serializer R127 item 3: B2A, then A2B, restores BIT and LEN_BIT. -/
def Obligations.A2bAfterB2aRestoresBits : Prop :=
  ∀ s t u : State, Inv s → Runs .b2a s t → t.status = 2 → Runs .a2b t u →
    u.status = 2 ∧ u.data.lenBit = s.data.lenBit ∧ u.data.bitSeq = s.data.bitSeq

/-- 43_symbol_codec R162 item 1: whenever SENC succeeds, SDEC of its output gives back SYM. -/
def Obligations.SdecAfterSencRestoresSymbols : Prop :=
  ∀ s t u : State, Inv s → Runs .senc s t → t.status = 2 → Runs .sdec t u →
    u.status = 2 ∧ u.data.lenSym = s.data.lenSym ∧ u.data.symSeq = s.data.symSeq

/-- 44_block_codec R177 items 1 and 2: UNPACK after PACK gives LEN_CODE codes. It restores CODE under MSB for every length,
and under LSB where LEN_CODE is a multiple of 4. Under LSB only the last code can differ: where `nb` = 10 LEN_CODE mod 8 of its
bits went into the final partial byte, its high 10 - `nb` bits are followed by the first `nb` bits of that byte. -/
def Obligations.UnpackAfterPackRestoresCodes : Prop :=
  ∀ s t u : State, Inv s → Runs .pack s t → t.status = 2 → Runs .unpack t u →
    u.status = 2 ∧ u.data.lenCode = s.data.lenCode ∧
      (s.params.packTail = .msb ∨ s.data.lenCode.toNat % 4 = 0 → u.data.codeSeq = s.data.codeSeq) ∧
      (s.params.packTail = .lsb → ∀ xs c, s.data.codeSeq = xs ++ [c] →
        let nb := 10 * s.data.lenCode.toNat % 8
        u.data.codeSeq = xs ++ [BitVec.ofNat 10 (c.toNat / 2 ^ nb * 2 ^ nb + c.toNat % 2 ^ nb / 2 ^ (8 - nb))])

/-- 44_block_codec R177 items 3 and 4, where the codes survive packing (log 18): BDECOMP after BCOMP gives BYT back, with one
0x00 more where LEN_BYT mod 5 = 4. They survive under MSB, and under LSB where the bits of the last code in the final partial
byte are zeros: with the identity dictionary they are the padding zeros of item 3, and a number of codes that is a multiple
of 4 leaves no partial byte. -/
def Obligations.BdecompAfterBcompRestoresBytes : Prop :=
  ∀ s t u : State, Inv s → Runs .bcomp s t → t.status = 2 → Runs .bdecomp t u → u.errCode ≠ 3 →
    s.params.packTail = .msb ∨ (∀ c : Code, s.data.mem.dictAt c.toNat = ⟨true, c⟩) ∨
      (∀ c, t.data.codeSeq.getLast? = some c → c.toNat % 2 ^ (10 * t.data.lenCode.toNat % 8) = 0) →
      u.status = 2 ∧
        u.data.bytSeq = s.data.bytSeq ++ if s.data.lenByt.toNat % 5 = 4 then [0] else []

/-- What 44_block_codec R177 item 3 claims for PACK_TAIL = LSB is false of its own rules R170 to R176 (log 18): with a
dictionary that is not the identity, the last code can lose its bits, and BDECOMP after BCOMP ends with DICT_LOOKUP. -/
def Obligations.LsbTailCanLoseTheLastCode : Prop :=
  ∃ s t u : State, Inv s ∧ s.params.packTail = .lsb ∧ Runs .bcomp s t ∧ t.status = 2 ∧ Runs .bdecomp t u ∧
    u.status = 6 ∧ u.errCode = 2

/-- 30_encoding R78, R79 with 20_memory R54: `ld BUF, [v0, ..., v(n-1)]` on an idle block stores the low bits of each
value and then the length, and leaves every other buffer, table and register alone. -/
def Obligations.LoadStatementFillsTheBuffer : Prop :=
  ∀ (s : State) (b : Buf) (vs : List Word), Inv s → s.engine = .idle → s.inbox = [] → vs.length ≤ s.params.cap b →
    ∃ es t, stmtEvents s.params 0 (.ld b vs) = some es ∧ es.length = vs.length + 1 ∧
      Sys2Proof.core.run es.length { s with inbox := es } = .next t ∧
      (t.data.len b).toNat = vs.length ∧ (∀ c, c ≠ b → t.data.len c = s.data.len c) ∧
      (∀ i (h : i < vs.length), t.data.mem.elem b i = BitVec.ofNat 32 (vs[i].toNat % 2 ^ elemWidth b)) ∧
      (∀ c i, (c ≠ b ∨ vs.length ≤ i) → t.data.mem.elem c i = s.data.mem.elem c i) ∧
      t.data.mem.hist = s.data.mem.hist ∧ t.data.mem.map = s.data.mem.map ∧ t.data.mem.dict = s.data.mem.dict ∧
      t.data.padCnt = s.data.padCnt ∧ t.data.totalBytes = s.data.totalBytes ∧ t.data.convBytes = s.data.convBytes ∧
      t = { s with data := t.data }

/-! ### Invariant, isolation and progress -/

/-- The invariant holds after reset, for every build that meets the constraints of 00_scope R6. -/
def Obligations.ResetSatisfiesTheInvariant : Prop :=
  Inv State.reset ∧ ∀ p : Params, p.wf = true → Inv (State.resetWith p)

/-- Every step from a state that satisfies the invariant leads to one that does: the memory keeps its canonical form within
the capacities, no length exceeds its capacity, STATUS is 0, 1, 2 or 6 and agrees with ENGINE, and the error registers agree
with STATUS. -/
def Obligations.EveryStepKeepsTheInvariant : Prop := ∀ s t : State, Inv s → step s = .next t → Inv t

/-- 20_memory R63 item 4, R66, with 60_exceptions R212: no admitted host access made while a command is in flight, but a
write to CTRL, reaches the command. Whatever reads and writes the host makes before the engine's turn, the command ends as
it does with no access made and no abort requested, or, where an abort is requested, with ABORTED(0, 0) and no effect. -/
def Obligations.BusyAccessesDoNotReachTheCommand : Prop :=
  ∀ (s : State) (w : Word) (snapshot : Data) (as : List Access),
    s.params.baseOk = true → s.engine = .busy w snapshot →
    (∀ a ∈ as, a.bytes = 4 ∧ a.addr % 4 = 0 ∧ (∀ b n v, a = .write b n v → b ≠ s.params.base + 8)) →
      ∃ t u, Sys2Proof.core.run (as.length + 1) { s with inbox := as.map .access ++ [.engine] } = .next t ∧
        step { s with inbox := [.engine], abortReq := false } = .next u ∧ t.engine = .idle ∧ t.cmd = u.cmd ∧
        ((t.data = u.data ∧ t.status = u.status ∧ t.errCode = u.errCode ∧ t.errPos = u.errPos ∧ t.errVal = u.errVal) ∨
          (s.abortReq = true ∧ t.data = s.data ∧ t.status = 6 ∧ t.errCode = 6 ∧ t.errPos = 0 ∧ t.errVal = 0))

/-- 70_reset_and_hazards R245: every command ends after finitely many steps. A busy engine is idle after at most one step
more than there are events listed, whatever the events are, as long as the accesses among them are aligned words. -/
def Obligations.EveryCommandEnds : Prop :=
  ∀ (s : State) (w : Word) (snapshot : Data), s.engine = .busy w snapshot →
    (∀ a, .access a ∈ s.inbox → a.bytes = 4 ∧ a.addr % 4 = 0) →
      ∃ k t, k ≤ s.inbox.length + 1 ∧ Sys2Proof.core.run k s = .next t ∧ t.engine = .idle
end

