-- ==== Sys2Proof/Laws/Operands.lean ====
section
/-! SUPPORT. Sequences of valid elements, bit strings, padding and grouping. -/

namespace Sys2Proof.Machine

variable {α : Type}

@[simp] theorem Data.bytSeq_length (d : Data) : d.bytSeq.length = d.lenByt.toNat := by simp [Data.bytSeq]
@[simp] theorem Data.bitSeq_length (d : Data) : d.bitSeq.length = d.lenBit.toNat := by simp [Data.bitSeq]
@[simp] theorem Data.symSeq_length (d : Data) : d.symSeq.length = d.lenSym.toNat := by simp [Data.symSeq]
@[simp] theorem Data.chrSeq_length (d : Data) : d.chrSeq.length = d.lenChr.toNat := by simp [Data.chrSeq]
@[simp] theorem Data.codeSeq_length (d : Data) : d.codeSeq.length = d.lenCode.toNat := by simp [Data.codeSeq]
@[simp] theorem Data.pkbSeq_length (d : Data) : d.pkbSeq.length = d.lenPkb.toNat := by simp [Data.pkbSeq]

@[simp] theorem bitsOf_length {n : Nat} (v : BitVec n) : (bitsOf v).length = n := by simp [bitsOf]

/-- Reading a longer bit string: the new bit is the least significant (00_scope R10). -/
theorem bitsVal_append_singleton (bs : List Bit) (b : Bit) : bitsVal (bs ++ [b]) = 2 * bitsVal bs + b.toNat := by
  simp [bitsVal]

@[simp] theorem bitsVal_nil : bitsVal [] = 0 := rfl

/-- Two bit strings in a row. -/
theorem bitsVal_append (xs ys : List Bit) : bitsVal (xs ++ ys) = bitsVal xs * 2 ^ ys.length + bitsVal ys := by
  induction ys using List.reverseRecOn with
  | nil => simp
  | append_singleton ys b ih =>
    rw [← List.append_assoc, bitsVal_append_singleton, bitsVal_append_singleton, ih, List.length_append,
      List.length_singleton, pow_succ]
    ring

theorem bitsVal_lt (bs : List Bit) : bitsVal bs < 2 ^ bs.length := by
  induction bs using List.reverseRecOn with
  | nil => simp
  | append_singleton bs b ih =>
    rw [bitsVal_append_singleton, List.length_append, List.length_singleton, pow_succ]
    have := b.isLt
    omega

@[simp] theorem bitsVal_replicate_zero (n : Nat) : bitsVal (List.replicate n 0#1) = 0 := by
  induction n with
  | zero => rfl
  | succ n ih => rw [List.replicate_succ', bitsVal_append_singleton, ih]; rfl

/-- The bit string of a value one bit wider starts with the value's upper bits. -/
theorem bitsOf_succ {n : Nat} (v : BitVec (n + 1)) :
    bitsOf v = bitsOf (v.extractLsb' 1 n) ++ [BitVec.ofBool (v.getLsbD 0)] := by
  apply List.ext_getElem
  · simp
  · intro i h1 h2
    simp only [bitsOf_length] at h1
    by_cases hi : i < n
    · rw [List.getElem_append_left (by simpa using hi)]
      simp only [bitsOf, List.getElem_map, List.getElem_range, BitVec.getLsbD_extractLsb']
      have h3 : n - 1 - i < n := by omega
      rw [show n + 1 - 1 - i = 1 + (n - 1 - i) from by omega]
      simp [h3]
    · rw [List.getElem_append_right (by simpa using hi)]
      have : i = n := by omega
      subst this
      simp [bitsOf]

/-- `val(bits_N(v)) = v` (00_scope R10). -/
@[simp] theorem bitsVal_bitsOf {n : Nat} (v : BitVec n) : bitsVal (bitsOf v) = v.toNat := by
  induction n with
  | zero => simp [bitsOf, BitVec.of_length_zero]
  | succ n ih =>
    rw [bitsOf_succ, bitsVal_append_singleton, ih]
    have h1 : (v.extractLsb' 1 n).toNat = v.toNat / 2 := by
      have hv := v.isLt
      rw [BitVec.extractLsb'_toNat, Nat.shiftRight_eq_div_pow, Nat.mod_eq_of_lt]
      rw [pow_succ] at hv
      omega
    have h2 : (BitVec.ofBool (v.getLsbD 0)).toNat = v.toNat % 2 := by
      rw [BitVec.toNat_ofBool, BitVec.getLsbD, Nat.testBit_zero]
      have := Nat.mod_two_eq_zero_or_one v.toNat
      rcases this with h | h <;> simp [h]
    rw [h1, h2]
    omega

/-- Bit strings of one length are equal where their numbers are. -/
theorem bitsVal_injective {xs ys : List Bit} (hl : xs.length = ys.length) (h : bitsVal xs = bitsVal ys) : xs = ys := by
  induction xs using List.reverseRecOn generalizing ys with
  | nil => exact (List.eq_nil_of_length_eq_zero hl.symm).symm
  | append_singleton xs b ih =>
    rcases List.eq_nil_or_concat ys with rfl | ⟨ys, c, rfl⟩
    · simp at hl
    · rw [List.concat_eq_append] at *
      rw [bitsVal_append_singleton, bitsVal_append_singleton] at h
      have hb := b.isLt
      have hc := c.isLt
      have h1 : bitsVal xs = bitsVal ys := by omega
      have h2 : b.toNat = c.toNat := by omega
      rw [ih (by simpa using hl) h1, BitVec.eq_of_toNat_eq h2]

/-- `bits_N(val(S)) = S` for a bit string of N elements (00_scope R10). -/
theorem bitsOf_bitsVal {n : Nat} {bs : List Bit} (h : bs.length = n) : bitsOf (BitVec.ofNat n (bitsVal bs)) = bs := by
  apply bitsVal_injective (by simp [h])
  rw [bitsVal_bitsOf, BitVec.toNat_ofNat, Nat.mod_eq_of_lt (h ▸ bitsVal_lt bs)]

/-! ### Padding and grouping -/

theorem padCount_lt {w : Nat} (hw : 0 < w) (len : Nat) : padCount len w < w := Nat.mod_lt _ hw

/-- Padding makes the length a multiple of the width (41_bit_serializer R121). -/
theorem padCount_dvd {w : Nat} (hw : 0 < w) (len : Nat) : w ∣ len + padCount len w := by
  unfold padCount
  rcases Nat.eq_zero_or_pos (len % w) with h | h
  · rw [h, Nat.sub_zero, Nat.mod_self, Nat.add_zero]
    exact Nat.dvd_of_mod_eq_zero h
  · have hlt := Nat.mod_lt len hw
    rw [Nat.mod_eq_of_lt (by omega)]
    refine ⟨len / w + 1, ?_⟩
    have := Nat.div_add_mod len w
    rw [Nat.mul_add, Nat.mul_one]
    omega

@[simp] theorem padZeros_length (bs : List Bit) (p : Nat) : (padZeros bs p).length = bs.length + p := by simp [padZeros]

@[simp] theorem groupsOf_length (w : Nat) (xs : List α) : (groupsOf w xs).length = xs.length / w := by simp [groupsOf]

@[simp] theorem groupsOf_nil (w : Nat) : groupsOf w ([] : List α) = [] := by simp [groupsOf]

theorem groupsOf_getElem (w : Nat) (xs : List α) (j : Nat) (h : j < (groupsOf w xs).length) :
    (groupsOf w xs)[j] = (xs.drop (w * j)).take w := by simp [groupsOf]

/-- Every group has the group width. -/
theorem length_of_mem_groupsOf {w : Nat} {xs g : List α} (h : g ∈ groupsOf w xs) : g.length = w := by
  obtain ⟨j, hj, rfl⟩ := List.mem_map.mp h
  have hj' := List.mem_range.mp hj
  rw [List.length_take, List.length_drop]
  have h1 : w * (j + 1) ≤ w * (xs.length / w) := Nat.mul_le_mul_left w hj'
  have h2 : w * (xs.length / w) ≤ xs.length := Nat.mul_div_le _ _
  rw [Nat.mul_add, Nat.mul_one] at h1
  omega

/-- The first group, and the groups of what follows it. -/
theorem groupsOf_append {w : Nat} (hw : 0 < w) {g : List α} (hg : g.length = w) (xs : List α) :
    groupsOf w (g ++ xs) = g :: groupsOf w xs := by
  subst hg
  apply List.ext_getElem
  · simp [Nat.add_div_left _ hw]
  · intro j h1 h2
    cases j with
    | zero => rw [groupsOf_getElem]; simp
    | succ j =>
      rw [List.getElem_cons_succ, groupsOf_getElem, groupsOf_getElem, Nat.mul_succ, Nat.add_comm, ← List.drop_drop,
        List.drop_left]

/-- Grouping takes apart what was joined from pieces of the group width; a shorter tail is dropped. -/
theorem groupsOf_flatMap {β : Type} {w : Nat} (hw : 0 < w) {f : β → List α} (hf : ∀ x, (f x).length = w) (ys : List β)
    {tail : List α} (ht : tail.length < w) : groupsOf w (ys.flatMap f ++ tail) = ys.map f := by
  induction ys with
  | nil => simp [groupsOf, Nat.div_eq_of_lt ht]
  | cons y rest ih => rw [List.flatMap_cons, List.append_assoc, groupsOf_append hw (hf y), ih, List.map_cons]

/-- The first group of a sequence that has one. -/
theorem groupsOf_of_le {w : Nat} (hw : 0 < w) {xs : List α} (h : w ≤ xs.length) :
    groupsOf w xs = xs.take w :: groupsOf w (xs.drop w) := by
  conv_lhs => rw [← List.take_append_drop w xs]
  rw [groupsOf_append hw (by rw [List.length_take, Nat.min_eq_left h])]

/-- A sequence shorter than the group width has no group. -/
theorem groupsOf_of_lt {w : Nat} {xs : List α} (h : xs.length < w) : groupsOf w xs = [] := by
  simp [groupsOf, Nat.div_eq_of_lt h]

/-- What is left of a sequence after its whole groups. -/
theorem length_drop_groups (w : Nat) (xs : List α) : (xs.drop (w * (xs.length / w))).length = xs.length % w := by
  rw [List.length_drop]
  have := Nat.div_add_mod xs.length w
  omega

/-- The groups of two sequences in a row: those of the first, then those of its rest and the second. -/
theorem groupsOf_append_rest {w : Nat} (hw : 0 < w) (xs ys : List α) :
    groupsOf w (xs ++ ys) = groupsOf w xs ++ groupsOf w (xs.drop (w * (xs.length / w)) ++ ys) := by
  induction h : xs.length using Nat.strong_induction_on generalizing xs with
  | _ n ih =>
    by_cases hle : w ≤ xs.length
    · have hd : (xs.drop w).length < n := by rw [List.length_drop]; omega
      have hs : w + w * ((n - w) / w) = w * (n / w) := by
        have hd' := Nat.add_div_right (n - w) hw
        rw [Nat.sub_add_cancel (h ▸ hle)] at hd'
        rw [hd', Nat.mul_succ, Nat.add_comm]
      rw [groupsOf_of_le hw hle, groupsOf_of_le hw (xs := xs ++ ys) (by rw [List.length_append]; omega),
        List.take_append_of_le_length hle, List.drop_append_of_le_length hle, ih _ hd (xs.drop w) rfl, List.cons_append,
        List.drop_drop, List.length_drop, h, hs]
    · rw [groupsOf_of_lt (xs := xs) (by omega), ← h, Nat.div_eq_of_lt (by omega)]
      simp

/-- The bits of a sequence of values, one after the other. -/
theorem length_flatMap_bitsOf {n : Nat} (vs : List (BitVec n)) : (vs.flatMap bitsOf).length = n * vs.length := by
  simp [List.length_flatMap, Nat.mul_comm]

end Sys2Proof.Machine
end

