-- ==== Sys2Proof/Laws/Cells.lean ====
section
/-! SUPPORT. What the operations on cells do: read after write, frame, and the canonical form. -/

namespace Sys2Proof.Machine

variable {α : Type}

@[simp] theorem Cells.find_nil (i : Nat) : Cells.find i ([] : Cells α) = none := rfl

theorem Cells.find_cons (i : Nat) (e : Nat × α) (c : Cells α) :
    Cells.find i (e :: c) = if e.1 = i then some e.2 else Cells.find i c := rfl

/-- A listed index is found in the list. -/
theorem Cells.mem_of_find {i : Nat} {x : α} {c : Cells α} (h : Cells.find i c = some x) : (i, x) ∈ c := by
  induction c with
  | nil => simp at h
  | cons e rest ih =>
    rw [Cells.find_cons] at h
    split at h
    · rename_i he
      simp only [Option.some.injEq] at h
      subst he h
      exact List.mem_cons_self
    · exact List.mem_cons_of_mem _ (ih h)

theorem Cells.find_eq_none_of_below {i n : Nat} {c : Cells α} (h : Cells.Below n c) (hi : n ≤ i) :
    Cells.find i c = none := by
  cases hf : Cells.find i c with
  | none => rfl
  | some x => exact absurd (h _ (Cells.mem_of_find hf)) (by simpa using hi)

theorem Cells.find_append (i : Nat) (c d : Cells α) :
    Cells.find i (c ++ d) = (Cells.find i c).or (Cells.find i d) := by
  induction c with
  | nil => rfl
  | cons e rest ih =>
    rw [List.cons_append, Cells.find_cons, Cells.find_cons, ih]
    split <;> rfl

/-- Filtering by index keeps the listed values of the indexes that stay. -/
theorem Cells.find_filter (i : Nat) (q : Nat → Bool) (c : Cells α) :
    Cells.find i (c.filter fun e => q e.1) = if q i then Cells.find i c else none := by
  induction c with
  | nil => simp
  | cons e rest ih =>
    rw [List.filter_cons, Cells.find_cons]
    by_cases he : e.1 = i
    · subst he
      by_cases hq : q e.1 <;> simp [hq, Cells.find_cons, ih]
    · by_cases hq : q e.1 <;> simp [hq, Cells.find_cons, ih, he]

/-- A read after a write to the same index gives the value written. -/
@[simp] theorem Cells.find_put_self (i : Nat) (x : α) (c : Cells α) : Cells.find i (Cells.put i x c) = some x := by
  induction c with
  | nil => simp [Cells.put, Cells.find]
  | cons e rest ih =>
    unfold Cells.put
    split
    · simp [Cells.find_cons]
    · split
      · simp [Cells.find_cons]
      · rename_i h1 h2
        rw [Cells.find_cons, if_neg (fun h => h2 h.symm), ih]

/-- A write leaves every other index alone. -/
theorem Cells.find_put_ne {i j : Nat} (h : j ≠ i) (x : α) (c : Cells α) :
    Cells.find j (Cells.put i x c) = Cells.find j c := by
  induction c with
  | nil => simp [Cells.put, Cells.find_cons, Ne.symm h]
  | cons e rest ih =>
    unfold Cells.put
    split
    · rw [Cells.find_cons]
      simp [Ne.symm h]
    · split
      · rename_i h1 h2
        subst h2
        simp [Cells.find_cons, Ne.symm h]
      · simp [Cells.find_cons, ih]

theorem Cells.find_put (i j : Nat) (x : α) (c : Cells α) :
    Cells.find j (Cells.put i x c) = if j = i then some x else Cells.find j c := by
  split
  · rename_i h
    subst h
    exact Cells.find_put_self ..
  · rename_i h
    exact Cells.find_put_ne h ..

/-- Unlisting removes one index and leaves the others alone. -/
theorem Cells.find_unlist (i j : Nat) (c : Cells α) :
    Cells.find j (Cells.unlist i c) = if j = i then none else Cells.find j c := by
  have h := Cells.find_filter j (fun k => decide (k ≠ i)) c
  unfold Cells.unlist
  rw [h]
  by_cases hj : j = i <;> simp [hj]

/-- A table entry after a table write. -/
theorem Cells.entry_setEntry [DecidableEq α] (d : α) (i j : Nat) (x : α) (c : Cells α) :
    Cells.entry d j (Cells.setEntry d i x c) = if j = i then x else Cells.entry d j c := by
  unfold Cells.entry Cells.setEntry
  by_cases hx : x = d
  · rw [if_pos hx, Cells.find_unlist]
    split <;> simp [hx]
  · rw [if_neg hx, Cells.find_put]
    split <;> simp

/-- The element listed at each index of a whole sequence. -/
theorem Cells.find_zipIdx (xs : List α) (n i : Nat) :
    Cells.find i ((xs.zipIdx n).map fun e => (e.2, e.1)) = if n ≤ i then xs[i - n]? else none := by
  induction xs generalizing n with
  | nil => simp
  | cons x rest ih =>
    rw [List.zipIdx_cons, List.map_cons, Cells.find_cons, ih]
    rcases Nat.lt_trichotomy i n with h | h | h
    · rw [if_neg (by simp; omega), if_neg (by omega), if_neg (by omega)]
    · subst h
      simp
    · rw [if_neg (by simp; omega), if_pos (by omega), if_pos (by omega)]
      obtain ⟨k, rfl⟩ := Nat.exists_eq_add_of_lt h
      rw [show n + k + 1 - (n + 1) = k from by omega, show n + k + 1 - n = k + 1 from by omega, List.getElem?_cons_succ]

/-- A commit replaces the elements below the staged length and leaves the others alone (10_state R30). -/
theorem Cells.find_putPrefix (xs : List α) (c : Cells α) (i : Nat) :
    Cells.find i (Cells.putPrefix xs c) = if i < xs.length then xs[i]? else Cells.find i c := by
  unfold Cells.putPrefix
  rw [Cells.find_append, Cells.find_zipIdx, Cells.find_filter i (fun k => decide (xs.length ≤ k))]
  by_cases h : i < xs.length
  · simp [h]
  · simp [h]

/-! ### The canonical form -/

theorem Cells.mem_put {i : Nat} {x : α} {c : Cells α} {e : Nat × α} (h : e ∈ Cells.put i x c) :
    e = (i, x) ∨ e ∈ c := by
  induction c with
  | nil => simpa [Cells.put] using h
  | cons f rest ih =>
    unfold Cells.put at h
    split at h
    · simpa using h
    · split at h
      · rcases List.mem_cons.mp h with h | h
        · exact .inl h
        · exact .inr (List.mem_cons_of_mem _ h)
      · rcases List.mem_cons.mp h with h | h
        · exact .inr (h ▸ List.mem_cons_self)
        · exact (ih h).imp id (List.mem_cons_of_mem _)

theorem Cells.rising_put (i : Nat) (x : α) {c : Cells α} (h : c.Rising) : (Cells.put i x c).Rising := by
  induction c with
  | nil => simp [Cells.put]
  | cons e rest ih =>
    obtain ⟨he, hr⟩ := List.pairwise_cons.mp h
    unfold Cells.put
    split
    · rename_i hi
      refine List.pairwise_cons.mpr ⟨?_, h⟩
      intro f hf
      rcases List.mem_cons.mp hf with rfl | hf
      · exact hi
      · exact Nat.lt_trans hi (he f hf)
    · split
      · rename_i h1 h2
        subst h2
        exact List.pairwise_cons.mpr ⟨he, hr⟩
      · refine List.pairwise_cons.mpr ⟨?_, ih hr⟩
        intro f hf
        rcases Cells.mem_put hf with rfl | hf
        · show e.1 < i
          omega
        · exact he f hf

theorem Cells.below_put {i n : Nat} (hi : i < n) (x : α) {c : Cells α} (h : Cells.Below n c) :
    Cells.Below n (Cells.put i x c) := fun _ he =>
  (Cells.mem_put he).elim (fun e => e ▸ hi) (h _)

theorem Cells.never_put {d x : α} (hx : x ≠ d) (i : Nat) {c : Cells α} (h : Cells.Never d c) :
    Cells.Never d (Cells.put i x c) := fun _ he =>
  (Cells.mem_put he).elim (fun e => e ▸ hx) (h _)

theorem Cells.rising_unlist (i : Nat) {c : Cells α} (h : c.Rising) : (Cells.unlist i c).Rising :=
  List.Pairwise.filter _ h

theorem Cells.rising_setEntry [DecidableEq α] (d : α) (i : Nat) (x : α) {c : Cells α} (h : c.Rising) :
    (Cells.setEntry d i x c).Rising := by
  unfold Cells.setEntry
  split
  · exact Cells.rising_unlist i h
  · exact Cells.rising_put i x h

theorem Cells.below_setEntry [DecidableEq α] (d : α) {i n : Nat} (hi : i < n) (x : α) {c : Cells α}
    (h : Cells.Below n c) : Cells.Below n (Cells.setEntry d i x c) := by
  unfold Cells.setEntry
  split
  · exact fun e he => h e (List.mem_filter.mp he).1
  · exact Cells.below_put hi x h

theorem Cells.never_setEntry [DecidableEq α] (d : α) (i : Nat) (x : α) {c : Cells α} (h : Cells.Never d c) :
    Cells.Never d (Cells.setEntry d i x c) := by
  unfold Cells.setEntry
  split
  · exact fun e he => h e (List.mem_filter.mp he).1
  · rename_i hx
    exact Cells.never_put hx i h

theorem Cells.mem_putPrefix {xs : List α} {c : Cells α} {e : Nat × α} (h : e ∈ Cells.putPrefix xs c) :
    e.1 < xs.length ∨ e ∈ c := by
  rcases List.mem_append.mp h with h | h
  · obtain ⟨f, hf, rfl⟩ := List.mem_map.mp h
    obtain ⟨-, hlt, -⟩ := List.mem_zipIdx hf
    exact .inl (by simpa using hlt)
  · exact .inr (List.mem_filter.mp h).1

theorem Cells.rising_putPrefix (xs : List α) {c : Cells α} (h : c.Rising) : (Cells.putPrefix xs c).Rising := by
  refine List.pairwise_append.mpr ⟨?_, h.filter _, ?_⟩
  · rw [List.pairwise_map]
    have key : ∀ (ys : List α) (n : Nat), (ys.zipIdx n).Pairwise fun a b => a.2 < b.2 := by
      intro ys
      induction ys with
      | nil => simp
      | cons y rest ih =>
        intro n
        rw [List.zipIdx_cons]
        refine List.pairwise_cons.mpr ⟨?_, ih (n + 1)⟩
        intro f hf
        obtain ⟨hle, -, -⟩ := List.mem_zipIdx hf
        exact hle
    exact key xs 0
  · intro a ha b hb
    obtain ⟨f, hf, rfl⟩ := List.mem_map.mp ha
    obtain ⟨-, hlt, -⟩ := List.mem_zipIdx hf
    have hle : xs.length ≤ b.1 := by simpa using (List.mem_filter.mp hb).2
    show f.2 < b.1
    omega

theorem Cells.below_putPrefix {n : Nat} {xs : List α} (hx : xs.length ≤ n) {c : Cells α} (h : Cells.Below n c) :
    Cells.Below n (Cells.putPrefix xs c) := fun _ he =>
  (Cells.mem_putPrefix he).elim (fun hlt => Nat.lt_of_lt_of_le hlt hx) (h _)

end Sys2Proof.Machine
end

