-- ==== Sys2Proof/Laws/State.lean ====
section
/-! SUPPORT. One lemma for each field of each update of the state, the registers and the memory. -/

namespace Sys2Proof.Machine

/-! ### `State.issue` -/

@[simp] theorem State.issue_params (s : State) (w : Word) : (s.issue w).params = s.params := rfl
@[simp] theorem State.issue_cmd (s : State) (w : Word) : (s.issue w).cmd = w := rfl
@[simp] theorem State.issue_status (s : State) (w : Word) : (s.issue w).status = statusWord true false false := rfl
@[simp] theorem State.issue_errCode (s : State) (w : Word) : (s.issue w).errCode = 0 := rfl
@[simp] theorem State.issue_errPos (s : State) (w : Word) : (s.issue w).errPos = 0 := rfl
@[simp] theorem State.issue_errVal (s : State) (w : Word) : (s.issue w).errVal = 0 := rfl
@[simp] theorem State.issue_data (s : State) (w : Word) : (s.issue w).data = s.data := rfl
@[simp] theorem State.issue_engine (s : State) (w : Word) : (s.issue w).engine = .busy w s.data := rfl
@[simp] theorem State.issue_abortReq (s : State) (w : Word) : (s.issue w).abortReq = false := rfl
@[simp] theorem State.issue_inbox (s : State) (w : Word) : (s.issue w).inbox = s.inbox := rfl
@[simp] theorem State.issue_replies (s : State) (w : Word) : (s.issue w).replies = s.replies := rfl
@[simp] theorem State.issue_draws (s : State) (w : Word) : (s.issue w).draws = s.draws := rfl

/-! ### `State.endErr` -/

@[simp] theorem State.endErr_params (s : State) (e : Raise) : (s.endErr e).params = s.params := rfl
@[simp] theorem State.endErr_cmd (s : State) (e : Raise) : (s.endErr e).cmd = s.cmd := rfl
@[simp] theorem State.endErr_status (s : State) (e : Raise) : (s.endErr e).status = statusWord false true true := rfl
@[simp] theorem State.endErr_errCode (s : State) (e : Raise) : (s.endErr e).errCode = BitVec.ofNat 32 (errCodeNumber e.code) := rfl
@[simp] theorem State.endErr_errPos (s : State) (e : Raise) : (s.endErr e).errPos = BitVec.ofNat 32 e.pos := rfl
@[simp] theorem State.endErr_errVal (s : State) (e : Raise) : (s.endErr e).errVal = BitVec.ofNat 32 e.val := rfl
@[simp] theorem State.endErr_data (s : State) (e : Raise) : (s.endErr e).data = s.data := rfl
@[simp] theorem State.endErr_engine (s : State) (e : Raise) : (s.endErr e).engine = .idle := rfl
@[simp] theorem State.endErr_abortReq (s : State) (e : Raise) : (s.endErr e).abortReq = false := rfl
@[simp] theorem State.endErr_inbox (s : State) (e : Raise) : (s.endErr e).inbox = s.inbox := rfl
@[simp] theorem State.endErr_replies (s : State) (e : Raise) : (s.endErr e).replies = s.replies := rfl
@[simp] theorem State.endErr_draws (s : State) (e : Raise) : (s.endErr e).draws = s.draws := rfl

/-! ### `State.endOk` -/

@[simp] theorem State.endOk_params (s : State) (st : Staged) : (s.endOk st).params = s.params := rfl
@[simp] theorem State.endOk_cmd (s : State) (st : Staged) : (s.endOk st).cmd = s.cmd := rfl
@[simp] theorem State.endOk_status (s : State) (st : Staged) : (s.endOk st).status = statusWord false true false := rfl
@[simp] theorem State.endOk_errCode (s : State) (st : Staged) : (s.endOk st).errCode = s.errCode := rfl
@[simp] theorem State.endOk_errPos (s : State) (st : Staged) : (s.endOk st).errPos = s.errPos := rfl
@[simp] theorem State.endOk_errVal (s : State) (st : Staged) : (s.endOk st).errVal = s.errVal := rfl
@[simp] theorem State.endOk_data (s : State) (st : Staged) : (s.endOk st).data = s.data.commit st := rfl
@[simp] theorem State.endOk_engine (s : State) (st : Staged) : (s.endOk st).engine = .idle := rfl
@[simp] theorem State.endOk_abortReq (s : State) (st : Staged) : (s.endOk st).abortReq = false := rfl
@[simp] theorem State.endOk_inbox (s : State) (st : Staged) : (s.endOk st).inbox = s.inbox := rfl
@[simp] theorem State.endOk_replies (s : State) (st : Staged) : (s.endOk st).replies = s.replies := rfl
@[simp] theorem State.endOk_draws (s : State) (st : Staged) : (s.endOk st).draws = s.draws := rfl

/-! ### `State.draw` -/

@[simp] theorem State.draw_params (s : State) : (s.draw).params = s.params := rfl
@[simp] theorem State.draw_cmd (s : State) : (s.draw).cmd = s.cmd := rfl
@[simp] theorem State.draw_status (s : State) : (s.draw).status = s.status := rfl
@[simp] theorem State.draw_errCode (s : State) : (s.draw).errCode = s.errCode := rfl
@[simp] theorem State.draw_errPos (s : State) : (s.draw).errPos = s.errPos := rfl
@[simp] theorem State.draw_errVal (s : State) : (s.draw).errVal = s.errVal := rfl
@[simp] theorem State.draw_data (s : State) : (s.draw).data = s.data := rfl
@[simp] theorem State.draw_engine (s : State) : (s.draw).engine = s.engine := rfl
@[simp] theorem State.draw_abortReq (s : State) : (s.draw).abortReq = s.abortReq := rfl
@[simp] theorem State.draw_inbox (s : State) : (s.draw).inbox = s.inbox := rfl
@[simp] theorem State.draw_replies (s : State) : (s.draw).replies = s.replies := rfl
@[simp] theorem State.draw_draws (s : State) : (s.draw).draws = s.draws + 1 := rfl

/-! ### `State.pop` -/

@[simp] theorem State.pop_params (s : State) : (s.pop).params = s.params := rfl
@[simp] theorem State.pop_cmd (s : State) : (s.pop).cmd = s.cmd := rfl
@[simp] theorem State.pop_status (s : State) : (s.pop).status = s.status := rfl
@[simp] theorem State.pop_errCode (s : State) : (s.pop).errCode = s.errCode := rfl
@[simp] theorem State.pop_errPos (s : State) : (s.pop).errPos = s.errPos := rfl
@[simp] theorem State.pop_errVal (s : State) : (s.pop).errVal = s.errVal := rfl
@[simp] theorem State.pop_data (s : State) : (s.pop).data = s.data := rfl
@[simp] theorem State.pop_engine (s : State) : (s.pop).engine = s.engine := rfl
@[simp] theorem State.pop_abortReq (s : State) : (s.pop).abortReq = s.abortReq := rfl
@[simp] theorem State.pop_inbox (s : State) : (s.pop).inbox = s.inbox.tail := rfl
@[simp] theorem State.pop_replies (s : State) : (s.pop).replies = s.replies := rfl
@[simp] theorem State.pop_draws (s : State) : (s.pop).draws = s.draws := rfl

/-! ### `State.reply` -/

@[simp] theorem State.reply_params (s : State) (v : Word) : (s.reply v).params = s.params := rfl
@[simp] theorem State.reply_cmd (s : State) (v : Word) : (s.reply v).cmd = s.cmd := rfl
@[simp] theorem State.reply_status (s : State) (v : Word) : (s.reply v).status = s.status := rfl
@[simp] theorem State.reply_errCode (s : State) (v : Word) : (s.reply v).errCode = s.errCode := rfl
@[simp] theorem State.reply_errPos (s : State) (v : Word) : (s.reply v).errPos = s.errPos := rfl
@[simp] theorem State.reply_errVal (s : State) (v : Word) : (s.reply v).errVal = s.errVal := rfl
@[simp] theorem State.reply_data (s : State) (v : Word) : (s.reply v).data = s.data := rfl
@[simp] theorem State.reply_engine (s : State) (v : Word) : (s.reply v).engine = s.engine := rfl
@[simp] theorem State.reply_abortReq (s : State) (v : Word) : (s.reply v).abortReq = s.abortReq := rfl
@[simp] theorem State.reply_inbox (s : State) (v : Word) : (s.reply v).inbox = s.inbox := rfl
@[simp] theorem State.reply_replies (s : State) (v : Word) : (s.reply v).replies = s.replies ++ [v] := rfl
@[simp] theorem State.reply_draws (s : State) (v : Word) : (s.reply v).draws = s.draws := rfl

/-! ### `State.toReset` -/

@[simp] theorem State.toReset_params (s : State) : (s.toReset).params = s.params := rfl
@[simp] theorem State.toReset_cmd (s : State) : (s.toReset).cmd = 0 := rfl
@[simp] theorem State.toReset_status (s : State) : (s.toReset).status = 0 := rfl
@[simp] theorem State.toReset_errCode (s : State) : (s.toReset).errCode = 0 := rfl
@[simp] theorem State.toReset_errPos (s : State) : (s.toReset).errPos = 0 := rfl
@[simp] theorem State.toReset_errVal (s : State) : (s.toReset).errVal = 0 := rfl
@[simp] theorem State.toReset_data (s : State) : (s.toReset).data = Data.afterReset (s.data.mem.epoch + 1) := rfl
@[simp] theorem State.toReset_engine (s : State) : (s.toReset).engine = .idle := rfl
@[simp] theorem State.toReset_abortReq (s : State) : (s.toReset).abortReq = false := rfl
@[simp] theorem State.toReset_inbox (s : State) : (s.toReset).inbox = s.inbox := rfl
@[simp] theorem State.toReset_replies (s : State) : (s.toReset).replies = s.replies := rfl
@[simp] theorem State.toReset_draws (s : State) : (s.toReset).draws = s.draws := rfl

/-! ### `Data.commit` and `Data.setLen` -/

@[simp] theorem Data.commit_lenByt (d : Data) (st : Staged) : (d.commit st).lenByt = st.lenByt.getD d.lenByt := rfl
@[simp] theorem Data.commit_lenBit (d : Data) (st : Staged) : (d.commit st).lenBit = st.lenBit.getD d.lenBit := rfl
@[simp] theorem Data.commit_lenSym (d : Data) (st : Staged) : (d.commit st).lenSym = st.lenSym.getD d.lenSym := rfl
@[simp] theorem Data.commit_lenChr (d : Data) (st : Staged) : (d.commit st).lenChr = st.lenChr.getD d.lenChr := rfl
@[simp] theorem Data.commit_lenCode (d : Data) (st : Staged) : (d.commit st).lenCode = st.lenCode.getD d.lenCode := rfl
@[simp] theorem Data.commit_lenPkb (d : Data) (st : Staged) : (d.commit st).lenPkb = st.lenPkb.getD d.lenPkb := rfl
@[simp] theorem Data.commit_padCnt (d : Data) (st : Staged) : (d.commit st).padCnt = st.padCnt.getD d.padCnt := rfl
@[simp] theorem Data.commit_totalBytes (d : Data) (st : Staged) : (d.commit st).totalBytes = st.totalBytes.getD d.totalBytes := rfl
@[simp] theorem Data.commit_convBytes (d : Data) (st : Staged) : (d.commit st).convBytes = st.convBytes.getD d.convBytes := rfl
@[simp] theorem Data.commit_mem (d : Data) (st : Staged) : (d.commit st).mem = d.mem.commit st := rfl

@[simp] theorem Data.len_setLen (d : Data) (b c : Buf) (v : Word) :
    (d.setLen b v).len c = if c = b then v else d.len c := by
  cases b <;> cases c <;> rfl

@[simp] theorem Data.setLen_padCnt (d : Data) (b : Buf) (v : Word) : (d.setLen b v).padCnt = d.padCnt := by
  cases b <;> rfl
@[simp] theorem Data.setLen_totalBytes (d : Data) (b : Buf) (v : Word) : (d.setLen b v).totalBytes = d.totalBytes := by
  cases b <;> rfl
@[simp] theorem Data.setLen_convBytes (d : Data) (b : Buf) (v : Word) : (d.setLen b v).convBytes = d.convBytes := by
  cases b <;> rfl
@[simp] theorem Data.setLen_mem (d : Data) (b : Buf) (v : Word) : (d.setLen b v).mem = d.mem := by
  cases b <;> rfl

/-! ### `Memory.commit` -/

@[simp] theorem Memory.commit_byt (m : Memory) (st : Staged) : (m.commit st).byt = Cells.commit st.byt m.byt := rfl
@[simp] theorem Memory.commit_bit (m : Memory) (st : Staged) : (m.commit st).bit = Cells.commit st.bit m.bit := rfl
@[simp] theorem Memory.commit_sym (m : Memory) (st : Staged) : (m.commit st).sym = Cells.commit st.sym m.sym := rfl
@[simp] theorem Memory.commit_chr (m : Memory) (st : Staged) : (m.commit st).chr = Cells.commit st.chr m.chr := rfl
@[simp] theorem Memory.commit_code (m : Memory) (st : Staged) : (m.commit st).code = Cells.commit st.code m.code := rfl
@[simp] theorem Memory.commit_pkb (m : Memory) (st : Staged) : (m.commit st).pkb = Cells.commit st.pkb m.pkb := rfl
@[simp] theorem Memory.commit_hist (m : Memory) (st : Staged) : (m.commit st).hist = st.hist.getD m.hist := rfl
@[simp] theorem Memory.commit_map (m : Memory) (st : Staged) : (m.commit st).map = m.map := rfl
@[simp] theorem Memory.commit_dict (m : Memory) (st : Staged) : (m.commit st).dict = m.dict := rfl
@[simp] theorem Memory.commit_epoch (m : Memory) (st : Staged) : (m.commit st).epoch = m.epoch := rfl

@[simp] theorem Cells.commit_none {α : Type} (c : Cells α) : Cells.commit none c = c := rfl
@[simp] theorem Cells.commit_some {α : Type} (xs : List α) (c : Cells α) :
    Cells.commit (some xs) c = Cells.putPrefix xs c := rfl

/-! ### The memory after a host write -/

@[simp] theorem Memory.setMap_dict (m : Memory) (b : Nat) (e : MapEntry) : (m.setMap b e).dict = m.dict := rfl
@[simp] theorem Memory.setMap_hist (m : Memory) (b : Nat) (e : MapEntry) : (m.setMap b e).hist = m.hist := rfl
@[simp] theorem Memory.setMap_epoch (m : Memory) (b : Nat) (e : MapEntry) : (m.setMap b e).epoch = m.epoch := rfl
@[simp] theorem Memory.setDict_map (m : Memory) (c : Nat) (e : DictEntry) : (m.setDict c e).map = m.map := rfl
@[simp] theorem Memory.setDict_hist (m : Memory) (c : Nat) (e : DictEntry) : (m.setDict c e).hist = m.hist := rfl
@[simp] theorem Memory.setDict_epoch (m : Memory) (c : Nat) (e : DictEntry) : (m.setDict c e).epoch = m.epoch := rfl
@[simp] theorem Memory.setElem_hist (m : Memory) (b : Buf) (i : Nat) (v : Word) : (m.setElem b i v).hist = m.hist := by
  cases b <;> rfl
@[simp] theorem Memory.setElem_map (m : Memory) (b : Buf) (i : Nat) (v : Word) : (m.setElem b i v).map = m.map := by
  cases b <;> rfl
@[simp] theorem Memory.setElem_dict (m : Memory) (b : Buf) (i : Nat) (v : Word) : (m.setElem b i v).dict = m.dict := by
  cases b <;> rfl
@[simp] theorem Memory.setElem_epoch (m : Memory) (b : Buf) (i : Nat) (v : Word) :
    (m.setElem b i v).epoch = m.epoch := by
  cases b <;> rfl

end Sys2Proof.Machine
end

