-- ==== Sys2Proof/Laws/Ops.lean ====
section
/-! SUPPORT. What the shared operations do: `emit`, the loops, how a command ends, the memory under reads and writes. -/

namespace Sys2Proof.Machine

variable {α σ : Type}

/-! ### `emit` and the loops -/

theorem emit_ok {p : Params} {b : Buf} {staged : List α} (h : staged.length < p.cap b) (pos : Nat) (x : α) :
    emit p b pos staged x = .ok (staged ++ [x]) := by
  rw [emit, if_neg (by omega)]

theorem emit_full {p : Params} {b : Buf} {staged : List α} (h : p.cap b ≤ staged.length) (pos : Nat) (x : α) :
    emit p b pos staged x = .error ⟨.capacity, pos, bufId b⟩ := by
  rw [emit, if_pos h]

/-- `emitAll` appends everything where it fits, and otherwise raises CAPACITY at its one source position
(60_exceptions R202). -/
theorem emitAll_eq (p : Params) (b : Buf) (pos : Nat) (staged xs : List α) :
    emitAll p b pos staged xs =
      if staged.length + xs.length ≤ p.cap b ∨ xs = [] then .ok (staged ++ xs)
      else .error ⟨.capacity, pos, bufId b⟩ := by
  induction xs generalizing staged with
  | nil => simp [emitAll]
  | cons x rest ih =>
    unfold emitAll
    by_cases h : p.cap b ≤ staged.length
    · rw [emit_full h]
      simp only [List.length_cons, reduceCtorEq, or_false]
      rw [if_neg (by omega)]
    · rw [emit_ok (by omega)]
      simp only [ih, List.length_append, List.length_cons, List.length_nil, List.append_assoc, List.cons_append,
        List.nil_append, reduceCtorEq, or_false]
      by_cases h2 : staged.length + (0 + 1) + rest.length ≤ p.cap b
      · rw [if_pos (.inl h2), if_pos (by omega)]
      · by_cases h3 : rest = []
        · subst h3
          simp only [List.length_nil] at h2
          omega
        · rw [if_neg (by tauto), if_neg (by omega)]

theorem emitAll_ok {p : Params} {b : Buf} {staged xs : List α} (h : staged.length + xs.length ≤ p.cap b) (pos : Nat) :
    emitAll p b pos staged xs = .ok (staged ++ xs) := by
  rw [emitAll_eq, if_pos (.inl h)]

theorem emitAll_full {p : Params} {b : Buf} {staged xs : List α} (h : p.cap b < staged.length + xs.length)
    (hs : staged.length ≤ p.cap b) (pos : Nat) :
    emitAll p b pos staged xs = .error ⟨.capacity, pos, bufId b⟩ := by
  rw [emitAll_eq, if_neg]
  rintro (h' | rfl)
  · omega
  · simp at h
    omega

@[simp] theorem forEach_nil (body : Nat → α → σ → Except Raise σ) (k : Nat) (st : σ) :
    forEach body k [] st = .ok st := rfl

/-- A loop over two sequences in a row is the loop over the first and then, unless it raised, over the second. -/
theorem forEach_append (body : Nat → α → σ → Except Raise σ) (k : Nat) (xs ys : List α) (st : σ) :
    forEach body k (xs ++ ys) st =
      match forEach body k xs st with
      | .ok st' => forEach body (k + xs.length) ys st'
      | .error e => .error e := by
  induction xs generalizing k st with
  | nil => rfl
  | cons x rest ih =>
    simp only [List.cons_append, forEach]
    cases body k x st with
    | ok st' =>
      simp only [ih]
      rw [show k + 1 + rest.length = k + (x :: rest).length from by simp; omega]
    | error e => rfl

/-- A loop that stages `f x` for each element `x` ends with all of it staged where that fits. -/
theorem forEach_emitAll_ok {β : Type} {p : Params} {b : Buf} {f : α → List β} {pos : Nat → Nat} {xs : List α}
    {staged : List β} (h : staged.length + (xs.flatMap f).length ≤ p.cap b) (k : Nat) :
    forEach (fun i x out => emitAll p b (pos i) out (f x)) k xs staged = .ok (staged ++ xs.flatMap f) := by
  induction xs generalizing k staged with
  | nil => simp
  | cons x rest ih =>
    simp only [List.flatMap_cons, List.length_append] at h
    unfold forEach
    rw [emitAll_ok (by omega)]
    simp only
    rw [ih (by simp only [List.length_append]; omega), List.flatMap_cons, List.append_assoc]

/-- A loop that stages `f x` for each element `x` raises CAPACITY at the first element whose output does not fit. -/
theorem forEach_emitAll_full {β : Type} {p : Params} {b : Buf} {f : α → List β} {pos : Nat → Nat} {xs ys : List α} {x : α}
    {staged : List β} (h : staged.length + (xs.flatMap f).length ≤ p.cap b)
    (hx : p.cap b < staged.length + (xs.flatMap f).length + (f x).length) (k : Nat) :
    forEach (fun i x out => emitAll p b (pos i) out (f x)) k (xs ++ x :: ys) staged =
      .error ⟨.capacity, pos (k + xs.length), bufId b⟩ := by
  rw [forEach_append, forEach_emitAll_ok h]
  simp only
  unfold forEach
  rw [emitAll_full (by simp only [List.length_append]; omega) (by simp only [List.length_append]; omega)]

/-- A loop that stages one element `f x` for each element `x`, where that fits. -/
theorem forEach_emit_ok {β : Type} {p : Params} {b : Buf} {f : α → β} {pos : Nat → Nat} {xs : List α}
    {staged : List β} (h : staged.length + xs.length ≤ p.cap b) (k : Nat) :
    forEach (fun i x out => emit p b (pos i) out (f x)) k xs staged = .ok (staged ++ xs.map f) := by
  induction xs generalizing k staged with
  | nil => simp
  | cons x rest ih =>
    simp only [List.length_cons] at h
    unfold forEach
    rw [emit_ok (by omega)]
    simp only
    rw [ih (by simp only [List.length_append, List.length_cons, List.length_nil]; omega)]
    simp

/-- A loop that stages one element for each raises CAPACITY at the first that does not fit. -/
theorem forEach_emit_full {β : Type} {p : Params} {b : Buf} {f : α → β} {pos : Nat → Nat} {xs : List α}
    {staged : List β} (hs : staged.length ≤ p.cap b) (h : p.cap b < staged.length + xs.length) (k : Nat) :
    forEach (fun i x out => emit p b (pos i) out (f x)) k xs staged =
      .error ⟨.capacity, pos (k + (p.cap b - staged.length)), bufId b⟩ := by
  induction xs generalizing k staged with
  | nil => simp at h; omega
  | cons x rest ih =>
    simp only [List.length_cons] at h
    unfold forEach
    by_cases hf : staged.length = p.cap b
    · rw [emit_full (by omega)]
      simp [hf]
    · rw [emit_ok (by omega)]
      simp only
      rw [ih (by simp only [List.length_append, List.length_cons, List.length_nil]; omega)
        (by simp only [List.length_append, List.length_cons, List.length_nil]; omega)]
      simp only [List.length_append, List.length_cons, List.length_nil]
      rw [show k + 1 + (p.cap b - (staged.length + (0 + 1))) = k + (p.cap b - staged.length) from by omega]

/-! ### Longest match -/

/-- `longestKey` finds a key that `s` begins with, and no key that `s` begins with is longer; it finds none only where `s`
begins with no key (42_chunk_codec R140). -/
theorem longestKey_spec (keys : List (List Byte)) (s : List Byte) :
    match longestKey keys s with
    | some k => k ∈ keys ∧ k <+: s ∧ ∀ k' ∈ keys, k' <+: s → k'.length ≤ k.length
    | none => ∀ k' ∈ keys, ¬ k' <+: s := by
  induction keys with
  | nil => simp [longestKey]
  | cons k ks ih =>
    unfold longestKey
    cases hb : longestKey ks s with
    | none =>
      rw [hb] at ih
      simp only at ih ⊢
      by_cases hp : k <+: s
      · rw [if_pos (List.isPrefixOf_iff_prefix.mpr hp)]
        refine ⟨List.mem_cons_self, hp, ?_⟩
        intro k' hk' hp'
        rcases List.mem_cons.mp hk' with rfl | hk'
        · exact Nat.le_refl _
        · exact absurd hp' (ih k' hk')
      · rw [if_neg (fun h => hp (List.isPrefixOf_iff_prefix.mp h))]
        intro k' hk'
        rcases List.mem_cons.mp hk' with rfl | hk'
        · exact hp
        · exact ih k' hk'
    | some best =>
      rw [hb] at ih
      obtain ⟨hm, hp, hmax⟩ := ih
      simp only [Bool.and_eq_true, decide_eq_true_eq]
      by_cases hk : k.isPrefixOf s = true ∧ best.length < k.length
      · rw [if_pos hk]
        refine ⟨List.mem_cons_self, List.isPrefixOf_iff_prefix.mp hk.1, ?_⟩
        intro k' hk' hp'
        rcases List.mem_cons.mp hk' with rfl | hk'
        · exact Nat.le_refl _
        · exact Nat.le_trans (hmax k' hk' hp') (Nat.le_of_lt hk.2)
      · rw [if_neg hk]
        refine ⟨List.mem_cons_of_mem _ hm, hp, ?_⟩
        intro k' hk' hp'
        rcases List.mem_cons.mp hk' with rfl | hk'
        · have := List.isPrefixOf_iff_prefix.mpr hp'
          by_contra hlt
          exact hk ⟨this, by omega⟩
        · exact hmax k' hk' hp'

/-- A longest matching key is the one `longestKey` finds: two keys of one length that both match are the same string. -/
theorem longestKey_eq_some {keys : List (List Byte)} {s k : List Byte} (hm : k ∈ keys) (hp : k <+: s)
    (hmax : ∀ k' ∈ keys, k' <+: s → k'.length ≤ k.length) : longestKey keys s = some k := by
  have h := longestKey_spec keys s
  cases hl : longestKey keys s with
  | none =>
    rw [hl] at h
    exact absurd hp (h k hm)
  | some k' =>
    rw [hl] at h
    obtain ⟨hm', hp', hmax'⟩ := h
    have hlen : k'.length = k.length := Nat.le_antisymm (hmax k' hm' hp') (hmax' k hm hp)
    rw [Option.some.injEq, List.prefix_iff_eq_take.mp hp', List.prefix_iff_eq_take.mp hp, hlen]

theorem longestKey_eq_none {keys : List (List Byte)} {s : List Byte} (h : ∀ k ∈ keys, ¬ k <+: s) :
    longestKey keys s = none := by
  have hs := longestKey_spec keys s
  cases hl : longestKey keys s with
  | none => rfl
  | some k =>
    rw [hl] at hs
    exact absurd hs.2.1 (h k hs.1)

theorem tokenLoop_skip (keys : List (List Byte)) (act : Nat → List Byte → σ → Except Raise σ) (p : Nat)
    (xs s : List Byte) (st : σ) :
    tokenLoop keys act p xs.length (xs ++ s) st = tokenLoop keys act (p + xs.length) 0 s st := by
  induction xs generalizing p with
  | nil => rfl
  | cons x rest ih =>
    rw [List.length_cons, List.cons_append, tokenLoop, ih]
    congr 1
    omega

/-- One token of the tokenization: the longest matching key is taken, its action runs, and the loop goes on after it. -/
theorem tokenLoop_token {keys : List (List Byte)} (act : Nat → List Byte → σ → Except Raise σ) {k s : List Byte}
    (hk : longestKey keys (k ++ s) = some k) (hne : k ≠ []) (p : Nat) (st : σ) :
    tokenLoop keys act p 0 (k ++ s) st =
      match act p k st with
      | .ok st' => tokenLoop keys act (p + k.length) 0 s st'
      | .error e => .error e := by
  obtain ⟨c, rest, rfl⟩ := List.exists_cons_of_ne_nil hne
  rw [List.cons_append] at hk ⊢
  rw [tokenLoop, hk]
  simp only [List.length_cons, Nat.add_sub_cancel]
  cases act p (c :: rest) st with
  | error e => rfl
  | ok st' =>
    simp only [tokenLoop_skip]
    congr 1
    omega

/-- The tokenization stops where no key matches (42_chunk_codec R140). -/
theorem tokenLoop_stop {keys : List (List Byte)} (act : Nat → List Byte → σ → Except Raise σ) {c : Byte} {s : List Byte}
    (h : ∀ k ∈ keys, ¬ k <+: c :: s) (p : Nat) (st : σ) :
    tokenLoop keys act p 0 (c :: s) st = .error ⟨.dictLookup, p, c.toNat⟩ := by
  rw [tokenLoop, longestKey_eq_none h]

/-- What every turn of a loop keeps, the loop keeps. -/
theorem forEach_inv {body : Nat → α → σ → Except Raise σ} {P : σ → Prop}
    (hb : ∀ k x st st', P st → body k x st = .ok st' → P st') {xs : List α} {k : Nat} {st st' : σ} (h : P st)
    (hr : forEach body k xs st = .ok st') : P st' := by
  induction xs generalizing k st with
  | nil =>
    rw [forEach_nil, Except.ok.injEq] at hr
    exact hr ▸ h
  | cons x rest ih =>
    unfold forEach at hr
    cases hx : body k x st with
    | error e => simp [hx] at hr
    | ok st₁ =>
      simp only [hx] at hr
      exact ih (hb _ _ _ _ h hx) hr

/-- What every token's action keeps, the tokenization keeps. -/
theorem tokenLoop_inv {keys : List (List Byte)} {act : Nat → List Byte → σ → Except Raise σ} {P : σ → Prop}
    (hb : ∀ p k st st', P st → act p k st = .ok st' → P st') {s : List Byte} {p skip : Nat} {st st' : σ} (h : P st)
    (hr : tokenLoop keys act p skip s st = .ok st') : P st' := by
  induction s generalizing p skip st with
  | nil =>
    rw [tokenLoop, Except.ok.injEq] at hr
    exact hr ▸ h
  | cons c rest ih =>
    cases skip with
    | succ skip => exact ih h hr
    | zero =>
      unfold tokenLoop at hr
      split at hr
      · cases hr
      · rename_i k hk
        cases hx : act p k st with
        | error e => simp [hx] at hr
        | ok st₁ =>
          simp only [hx] at hr
          exact ih (hb _ _ _ _ h hx) hr

/-- A staged copy never outgrows the capacity (60_exceptions R202). -/
theorem emit_le {p : Params} {b : Buf} {pos : Nat} {staged out : List α} {x : α} (h : emit p b pos staged x = .ok out) :
    out.length ≤ p.cap b := by
  unfold emit at h
  split at h
  · cases h
  · rw [Except.ok.injEq] at h
    rw [← h, List.length_append, List.length_singleton]
    omega

theorem emitAll_le {p : Params} {b : Buf} {pos : Nat} {staged xs out : List α} (hs : staged.length ≤ p.cap b)
    (h : emitAll p b pos staged xs = .ok out) : out.length ≤ p.cap b := by
  rw [emitAll_eq] at h
  split at h
  · rename_i hc
    rw [Except.ok.injEq] at h
    rw [← h, List.length_append]
    rcases hc with hc | rfl
    · exact hc
    · simpa using hs
  · cases h

/-! ### How a command ends -/

/-- Without an abort request a command ends with its own outcome. -/
theorem State.finish_of_no_abort {s : State} (h : s.abortReq = false) (r : Except Raise Staged) :
    s.finish r = s.complete r := by
  rw [State.finish, h]
  rfl

/-- Everything the end of a command can be: the abort, its own error, or its commit; and which free value was used. -/
theorem State.finish_cases (s : State) (r : Except Raise Staged) :
    (∃ u, (u = s ∨ u = s.draw) ∧ ∃ e, (r = .error e ∨ s.abortReq = true ∧ e = ⟨.aborted, 0, 0⟩) ∧ s.finish r = u.endErr e) ∨
      (∃ u, (u = s ∨ u = s.draw) ∧ ∃ st, r = .ok st ∧ s.finish r = u.endOk st) := by
  unfold State.finish
  by_cases ha : s.abortReq = true
  · rw [if_pos ha]
    by_cases hd : Config.abortTaken s.draws = true
    · rw [if_pos hd]
      exact .inl ⟨s.draw, .inr rfl, _, .inr ⟨ha, rfl⟩, rfl⟩
    · rw [if_neg hd]
      cases r with
      | ok st => exact .inr ⟨s.draw, .inr rfl, st, rfl, rfl⟩
      | error e => exact .inl ⟨s.draw, .inr rfl, e, .inl rfl, rfl⟩
  · rw [if_neg ha]
    cases r with
    | ok st => exact .inr ⟨s, .inl rfl, st, rfl, rfl⟩
    | error e => exact .inl ⟨s, .inl rfl, e, .inl rfl, rfl⟩

/-! ### The memory -/

/-- The element width E_X of each buffer (20_memory R55). -/
theorem Memory.elem_setElem (m : Memory) (b c : Buf) (i j : Nat) (v : Word) :
    (m.setElem b i v).elem c j =
      if c = b ∧ j = i then
        match b with
        | .bit => (v.setWidth 1).setWidth 32
        | .code => (v.setWidth 10).setWidth 32
        | .byt | .sym | .chr | .pkb => (v.setWidth 8).setWidth 32
      else m.elem c j := by
  by_cases hj : j = i
  · subst hj
    cases b <;> cases c <;>
      simp [Memory.elem, Memory.setElem, Memory.bytAt, Memory.bitAt, Memory.symAt, Memory.chrAt, Memory.codeAt,
        Memory.pkbAt]
  · cases b <;> cases c <;>
      simp [Memory.elem, Memory.setElem, Memory.bytAt, Memory.bitAt, Memory.symAt, Memory.chrAt, Memory.codeAt,
        Memory.pkbAt, hj, Cells.find_put_ne hj]

@[simp] theorem Memory.elem_setMap (m : Memory) (b : Nat) (e : MapEntry) (c : Buf) (j : Nat) :
    (m.setMap b e).elem c j = m.elem c j := by
  cases c <;> rfl

@[simp] theorem Memory.elem_setDict (m : Memory) (b : Nat) (e : DictEntry) (c : Buf) (j : Nat) :
    (m.setDict b e).elem c j = m.elem c j := by
  cases c <;> rfl

theorem Memory.mapAt_setMap (m : Memory) (b : Nat) (e : MapEntry) (c : Nat) :
    (m.setMap b e).mapAt c = if c = b then e else m.mapAt c := Cells.entry_setEntry ..

theorem Memory.dictAt_setDict (m : Memory) (b : Nat) (e : DictEntry) (c : Nat) :
    (m.setDict b e).dictAt c = if c = b then e else m.dictAt c := Cells.entry_setEntry ..

theorem Memory.wf_afterReset (epoch : Nat) : (Memory.afterReset epoch).wf := by
  simp [Memory.afterReset, Memory.wf, Cells.Rising, Cells.Below, Cells.Never]

/-- A host write to an element keeps the canonical form. -/
theorem Memory.wf_setElem {m : Memory} (h : m.wf) (b : Buf) (i : Nat) (v : Word) : (m.setElem b i v).wf := by
  obtain ⟨h1, h2, h3, h4, h5, h6, h7⟩ := h
  cases b
  · exact ⟨Cells.rising_put _ _ h1, h2, h3, h4, h5, h6, h7⟩
  · exact ⟨h1, Cells.rising_put _ _ h2, h3, h4, h5, h6, h7⟩
  · exact ⟨h1, h2, Cells.rising_put _ _ h3, h4, h5, h6, h7⟩
  · exact ⟨h1, h2, h3, Cells.rising_put _ _ h4, h5, h6, h7⟩
  · exact ⟨h1, h2, h3, h4, Cells.rising_put _ _ h5, h6, h7⟩
  · exact ⟨h1, h2, h3, h4, h5, Cells.rising_put _ _ h6, h7⟩

/-- A host write to MAP keeps the canonical form. -/
theorem Memory.wf_setMap {m : Memory} (h : m.wf) {b : Nat} (hb : b < 256) (e : MapEntry) : (m.setMap b e).wf := by
  obtain ⟨h1, h2, h3, h4, h5, h6, h7, ⟨m1, m2, m3⟩, h9⟩ := h
  exact ⟨h1, h2, h3, h4, h5, h6, h7,
    ⟨Cells.rising_setEntry _ _ _ m1, Cells.below_setEntry _ hb _ m2, Cells.never_setEntry _ _ _ m3⟩, h9⟩

/-- A host write to DICT keeps the canonical form. -/
theorem Memory.wf_setDict {m : Memory} (h : m.wf) {c : Nat} (hc : c < 1024) (e : DictEntry) : (m.setDict c e).wf := by
  obtain ⟨h1, h2, h3, h4, h5, h6, h7, h8, d1, d2, d3⟩ := h
  exact ⟨h1, h2, h3, h4, h5, h6, h7, h8, Cells.rising_setEntry _ _ _ d1, Cells.below_setEntry _ hc _ d2,
    Cells.never_setEntry _ _ _ d3⟩

theorem Cells.rising_commit {c : Cells α} (h : c.Rising) (staged : Option (List α)) : (Cells.commit staged c).Rising := by
  cases staged with
  | none => exact h
  | some xs => exact Cells.rising_putPrefix xs h

/-- A commit keeps the canonical form where the staged histogram, if there is one, has it. -/
theorem Memory.wf_commit {m : Memory} (h : m.wf) {st : Staged}
    (hh : ∀ t, st.hist = some t → t.Rising ∧ Cells.Below 256 t ∧ Cells.Never 0#32 t) : (m.commit st).wf := by
  obtain ⟨h1, h2, h3, h4, h5, h6, h7, h8, h9⟩ := h
  refine ⟨Cells.rising_commit h1 _, Cells.rising_commit h2 _, Cells.rising_commit h3 _, Cells.rising_commit h4 _,
    Cells.rising_commit h5 _, Cells.rising_commit h6 _, ?_, h8, h9⟩
  rw [Memory.commit_hist]
  cases hs : st.hist with
  | none => exact h7
  | some t => exact hh t hs

theorem State.reset_mem_wf : State.reset.data.mem.wf := Memory.wf_afterReset 0

theorem State.resetWith_mem_wf (p : Params) : (State.resetWith p).data.mem.wf := Memory.wf_afterReset 0

end Sys2Proof.Machine
end

