-- ==== Sys2Proof/Laws/Block.lean ====
section
/-! SUPPORT. The parts that the Block Codec's commands share: the two lookups, and what packing, unpacking and decoding make
of a sequence, or where they raise (spec 44_block_codec). -/

namespace Sys2Proof.Machine

/-! ### The lookups (44_block_codec R170) -/

theorem dictCode_of_lowest {m : Memory} {g c : Code} (h : IsLowestCode m g c) : dictCode m g = some c := by
  obtain ⟨h1, h2, h3⟩ := h
  have hc : c.toNat < 1024 := c.isLt
  have hf : (List.range 1024).find? (fun c => (m.dictAt c).valid && (m.dictAt c).pat == g) = some c.toNat := by
    rw [List.find?_range_eq_some]
    refine ⟨by simp [h1, h2], by simpa using hc, fun j hj => ?_⟩
    by_contra hcon
    have hcon' : ((m.dictAt j).valid && (m.dictAt j).pat == g) = true := by simpa using hcon
    rw [Bool.and_eq_true, beq_iff_eq] at hcon'
    exact h3 j hj hcon'
  simp only [dictCode, hf, Option.map_some]
  simp

theorem dictCode_eq_none_iff {m : Memory} {g : Code} : dictCode m g = none ↔ NoCode m g := by
  simp only [dictCode, Option.map_eq_none_iff, List.find?_eq_none]
  constructor
  · intro h c hc
    simpa using h c (by simpa using hc)
  · intro h c hc
    simpa using h c (by simpa using hc)

/-- A group that some valid code has as its pattern has a lowest one. -/
theorem exists_lowest {m : Memory} {g : Code} (h : ¬ NoCode m g) : ∃ c, IsLowestCode m g c := by
  classical
  have h' : ∃ n, n < 1024 ∧ (m.dictAt n).valid = true ∧ (m.dictAt n).pat = g := by
    unfold NoCode at h
    push Not at h
    exact h
  have hs := Nat.find_spec h'
  have he : (BitVec.ofNat 10 (Nat.find h')).toNat = Nat.find h' := by
    rw [BitVec.toNat_ofNat, Nat.mod_eq_of_lt hs.1]
  refine ⟨BitVec.ofNat 10 (Nat.find h'), by rw [he]; exact hs.2.1, by rw [he]; exact hs.2.2, fun c' hc' hh => ?_⟩
  rw [he] at hc'
  exact Nat.find_min h' hc' ⟨by omega, hh⟩

theorem blkencGroup_of_lowest {p : Params} {m : Memory} {g : List Bit} {c : Code} (h : IsLowestCode m (groupPat g) c)
    (j : Nat) (out : List Code) : blkencGroup p m j g out = emit p .code (10 * j) out c := by
  unfold blkencGroup
  rw [dictCode_of_lowest h]

theorem blkencGroup_of_noCode {p : Params} {m : Memory} {g : List Bit} (h : NoCode m (groupPat g)) (j : Nat)
    (out : List Code) : blkencGroup p m j g out = .error ⟨.dictLookup, 10 * j, bitsVal g⟩ := by
  unfold blkencGroup
  rw [dictCode_eq_none_iff.mpr h]

/-- BLKENC's loop over groups that all have a code, where the codes fit. -/
theorem forEach_blkencGroup_ok {p : Params} {m : Memory} {gs : List (List Bit)} {cs : List Code}
    (h : List.Forall₂ (fun g c => IsLowestCode m (groupPat g) c) gs cs) (k : Nat) {st : List Code}
    (hc : st.length + cs.length ≤ p.capCode) : forEach (blkencGroup p m) k gs st = .ok (st ++ cs) := by
  induction h generalizing k st with
  | nil => simp
  | cons h1 h2 ih =>
    simp only [List.length_cons] at hc
    unfold forEach
    rw [blkencGroup_of_lowest h1, emit_ok (by simp only [Params.cap]; omega)]
    simp only
    rw [ih _ (by simp only [List.length_append, List.length_singleton]; omega)]
    simp

/-! ### Decoding codes (44_block_codec R174) -/

/-- BLKDEC's loop over codes that all have a pattern, where the patterns fit. -/
theorem forEach_blkdecCode_ok {p : Params} {m : Memory} {cs : List Code} (k : Nat) {st : List Bit}
    (hv : ∀ c ∈ cs, (m.dictAt c.toNat).valid = true) (h : st.length + 10 * cs.length ≤ p.capBit) :
    forEach (blkdecCode p m) k cs st = .ok (st ++ cs.flatMap fun c => bitsOf (m.dictAt c.toNat).pat) := by
  induction cs generalizing k st with
  | nil => simp
  | cons c rest ih =>
    simp only [List.length_cons] at h
    unfold forEach
    simp only [blkdecCode, dictPat, hv c (by simp), if_true]
    rw [emitAll_ok (by simp only [bitsOf_length, Params.cap]; omega)]
    simp only
    rw [ih _ (fun c hc => hv c (by simp [hc])) (by simp only [List.length_append, bitsOf_length]; omega)]
    simp

/-! ### Packing (44_block_codec R172) -/

/-- One turn of the bit buffer: of 8 and some more bits it holds, it gives the first 8 and keeps the rest. -/
theorem bitBuffer_turn {acc : Nat} {x y : List Bit} (h : acc % 2 ^ (x.length + y.length) = bitsVal (x ++ y)) :
    acc / 2 ^ y.length % 2 ^ x.length = bitsVal x ∧ acc % 2 ^ y.length = bitsVal y := by
  have hy := bitsVal_lt y
  have hpos : 0 < 2 ^ y.length := by positivity
  rw [bitsVal_append, Nat.add_comm x.length, pow_add] at h
  constructor
  · rw [← Nat.mod_mul_right_div_self, h, Nat.add_comm, Nat.add_mul_div_right _ _ hpos, Nat.div_eq_of_lt hy, Nat.zero_add]
  · have hm : acc % 2 ^ y.length = acc % (2 ^ y.length * 2 ^ x.length) % 2 ^ y.length := by rw [Nat.mod_mul_right_mod]
    rw [hm, h, Nat.mul_add_mod_of_lt hy]

/-- Draining a buffer of the bits `b`: the whole bytes go out, the rest stays. -/
theorem packDrain_ok (p : Params) (pos : Nat) {fuel : Nat} {b : List Bit} {acc : Nat} {out : List Byte}
    (hf : b.length ≤ fuel) (h : acc % 2 ^ b.length = bitsVal b) (hc : out.length + b.length / 8 ≤ p.capPkb) :
    packDrain p pos fuel ⟨acc, b.length, out⟩ = .ok ⟨acc, b.length % 8, out ++ (groupsOf 8 b).map groupByte⟩ ∧
      acc % 2 ^ (b.length % 8) = bitsVal (b.drop (8 * (b.length / 8))) := by
  induction fuel generalizing b out with
  | zero =>
    obtain rfl : b = [] := List.eq_nil_of_length_eq_zero (by omega)
    simp [packDrain, Nat.mod_one]
  | succ fuel ih =>
    unfold packDrain
    by_cases h8 : 8 ≤ b.length
    · have hl : (b.take 8).length = 8 := by rw [List.length_take]; omega
      have hd : (b.drop 8).length = b.length - 8 := List.length_drop
      obtain ⟨h1, h2⟩ := bitBuffer_turn (x := b.take 8) (y := b.drop 8)
        (by rw [List.take_append_drop, hl, hd, Nat.add_sub_cancel' h8]; exact h)
      rw [hl, hd] at h1
      rw [if_pos h8]
      simp only
      rw [show (256 : Nat) = 2 ^ 8 from rfl, h1, emit_ok (by simp only [Params.cap]; omega)]
      simp only
      rw [← hd]
      obtain ⟨h3, h4⟩ := ih (b := b.drop 8) (out := out ++ [BitVec.ofNat 8 (bitsVal (b.take 8))]) (by omega) h2
        (by simp only [List.length_append, List.length_singleton]; omega)
      have hm : (b.drop 8).length % 8 = b.length % 8 := by omega
      rw [hm] at h3 h4
      refine ⟨?_, ?_⟩
      · rw [h3, groupsOf_of_le (by decide) h8]
        simp [groupByte]
      · rw [h4, List.drop_drop]
        congr 2
        omega
    · rw [if_neg h8, Nat.mod_eq_of_lt (by omega), groupsOf_of_lt (by omega), Nat.div_eq_of_lt (by omega)]
      exact ⟨by simp, by simpa using h⟩

theorem packDrain_full (p : Params) (pos : Nat) {fuel : Nat} {b : List Bit} (acc : Nat) {out : List Byte}
    (hf : b.length ≤ fuel) (hs : out.length ≤ p.capPkb) (hc : p.capPkb < out.length + b.length / 8) :
    packDrain p pos fuel ⟨acc, b.length, out⟩ = .error ⟨.capacity, pos, 6⟩ := by
  induction fuel generalizing b out with
  | zero => omega
  | succ fuel ih =>
    unfold packDrain
    rw [if_pos (by simp only; omega)]
    simp only
    by_cases he : out.length = p.capPkb
    · rw [emit_full (by simp only [Params.cap]; omega)]
      rfl
    · rw [emit_ok (by simp only [Params.cap]; omega)]
      have hd : (b.drop 8).length = b.length - 8 := List.length_drop
      simp only
      rw [← hd, ih (b := b.drop 8) (by omega) (by simp only [List.length_append, List.length_singleton]; omega)
        (by simp only [List.length_append, List.length_singleton]; omega)]

/-- PACK's buffer after the bits `bs`: their whole bytes are out, the rest is held. -/
def packState (bs : List Bit) : PackAcc :=
  ⟨bitsVal (bs.drop (8 * (bs.length / 8))), bs.length % 8, (groupsOf 8 bs).map groupByte⟩

theorem packState_nil : packState [] = ⟨0, 0, []⟩ := by simp [packState]

theorem packCode_ok (p : Params) (j : Nat) (c : Code) {bs : List Bit} (hc : (bs.length + 10) / 8 ≤ p.capPkb) :
    packCode p j c (packState bs) = .ok (packState (bs ++ bitsOf c)) := by
  set pend := bs.drop (8 * (bs.length / 8)) with hp
  have hpl : pend.length = bs.length % 8 := length_drop_groups 8 bs
  have hl : (pend ++ bitsOf c).length = bs.length % 8 + 10 := by simp [hpl]
  have hv : bitsVal pend * 2 ^ 10 + c.toNat = bitsVal (pend ++ bitsOf c) := by
    rw [bitsVal_append, bitsVal_bitsOf, bitsOf_length]
  obtain ⟨h1, h2⟩ := packDrain_ok p j (fuel := bs.length % 8 + 10) (b := pend ++ bitsOf c)
    (acc := bitsVal (pend ++ bitsOf c)) (out := (groupsOf 8 bs).map groupByte) (by omega)
    (Nat.mod_eq_of_lt (bitsVal_lt _)) (by simp only [List.length_map, groupsOf_length]; omega)
  rw [hl] at h1 h2
  simp only [packCode, packState]
  rw [← hp, hv, h1]
  simp only
  have e1 : (bs ++ bitsOf c).length % 8 = (bs.length % 8 + 10) % 8 := by simp
  have e2 : pend ++ bitsOf c = (bs ++ bitsOf c).drop (8 * (bs.length / 8)) := by
    rw [List.drop_append_of_le_length (by omega)]
  rw [e1, h2, groupsOf_append_rest (by decide) bs (bitsOf c), List.map_append, ← hp]
  congr 3
  rw [e2, List.drop_drop]
  congr 2
  simp
  omega

theorem packCode_full (p : Params) (j : Nat) (c : Code) {bs : List Bit} (hs : bs.length / 8 ≤ p.capPkb)
    (hc : p.capPkb < (bs.length + 10) / 8) : packCode p j c (packState bs) = .error ⟨.capacity, j, 6⟩ := by
  set pend := bs.drop (8 * (bs.length / 8)) with hp
  have hpl : pend.length = bs.length % 8 := length_drop_groups 8 bs
  have hl : (pend ++ bitsOf c).length = bs.length % 8 + 10 := by simp [hpl]
  simp only [packCode, packState]
  rw [← hl, packDrain_full p j _ (by omega) (by simpa using hs)
    (by simp only [List.length_map, groupsOf_length, hl]; omega)]

/-- PACK's loop over codes whose whole bytes fit. -/
theorem forEach_packCode_ok (p : Params) {cs : List Code} (j : Nat) {bs : List Bit}
    (hc : (bs.length + 10 * cs.length) / 8 ≤ p.capPkb) :
    forEach (packCode p) j cs (packState bs) = .ok (packState (bs ++ cs.flatMap bitsOf)) := by
  induction cs generalizing j bs with
  | nil => simp
  | cons c cs ih =>
    simp only [List.length_cons] at hc
    unfold forEach
    rw [packCode_ok p j c (by omega)]
    simp only
    rw [ih _ (by simp only [List.length_append, bitsOf_length]; omega)]
    simp

/-! ### Unpacking (44_block_codec R173) -/

/-- UNPACK's buffer after the bits `bs`: their whole codes are out, the rest is held. -/
def unpackState (bs : List Bit) : UnpackAcc :=
  ⟨bitsVal (bs.drop (10 * (bs.length / 10))), bs.length % 10, (groupsOf 10 bs).map groupPat⟩

theorem unpackState_nil : unpackState [] = ⟨0, 0, []⟩ := by simp [unpackState]

/-- One byte of UNPACK: at most one code comes out, and it fits or CAPACITY is raised. -/
theorem unpackByte_eq (p : Params) (i : Nat) (b : Byte) {bs : List Bit} (hs : bs.length / 10 ≤ p.capCode) :
    unpackByte p i b (unpackState bs) =
      if (bs.length + 8) / 10 ≤ p.capCode then .ok (unpackState (bs ++ bitsOf b)) else .error ⟨.capacity, i, 5⟩ := by
  set pend := bs.drop (10 * (bs.length / 10)) with hp
  have hpl : pend.length = bs.length % 10 := length_drop_groups 10 bs
  set w := pend ++ bitsOf b with hw
  have hl : w.length = bs.length % 10 + 8 := by simp [hw, hpl]
  have hv : bitsVal pend * 256 + b.toNat = bitsVal w := by
    rw [hw, bitsVal_append, bitsVal_bitsOf, bitsOf_length]
    rfl
  have e2 : w = (bs ++ bitsOf b).drop (10 * (bs.length / 10)) := by
    rw [hw, List.drop_append_of_le_length (by omega)]
  have hlen : (bs ++ bitsOf b).length = bs.length + 8 := by simp
  have hun : unpackByte p i b (unpackState bs) =
      if 10 ≤ bs.length % 10 + 8 then
        match emit p .code i ((groupsOf 10 bs).map groupPat)
          (BitVec.ofNat 10 ((bitsVal pend * 256 + b.toNat) / 2 ^ (bs.length % 10 + 8 - 10) % 1024)) with
        | .ok out => .ok ⟨(bitsVal pend * 256 + b.toNat) % 2 ^ (bs.length % 10 + 8 - 10), bs.length % 10 + 8 - 10, out⟩
        | .error e => .error e
      else .ok ⟨bitsVal pend * 256 + b.toNat, bs.length % 10 + 8, (groupsOf 10 bs).map groupPat⟩ := rfl
  rw [hun, hv]
  simp only [unpackState]
  rw [groupsOf_append_rest (by decide) bs (bitsOf b), ← hp, ← hw]
  by_cases h10 : 10 ≤ bs.length % 10 + 8
  · rw [if_pos h10]
    have hd : (w.drop 10).length = bs.length % 10 + 8 - 10 := by rw [List.length_drop, hl]
    have ht : (w.take 10).length = 10 := by rw [List.length_take]; omega
    obtain ⟨h1, h2⟩ := bitBuffer_turn (acc := bitsVal w) (x := w.take 10) (y := w.drop 10) (by
      have hlt := bitsVal_lt w
      rw [List.take_append_drop, ← List.length_append, List.take_append_drop, Nat.mod_eq_of_lt hlt])
    rw [hd, ht] at h1
    rw [hd] at h2
    rw [show (1024 : Nat) = 2 ^ 10 from rfl, h1, h2]
    by_cases hcap : (bs.length + 8) / 10 ≤ p.capCode
    · rw [if_pos hcap, emit_ok (by simp only [Params.cap, List.length_map, groupsOf_length]; omega)]
      simp only
      rw [groupsOf_of_le (by decide) (xs := w) (by omega), groupsOf_of_lt (xs := w.drop 10) (by omega), e2, List.drop_drop,
        hlen]
      congr 2
      · congr 2
        omega
      · omega
      · simp
    · rw [if_neg hcap, emit_full (by simp only [Params.cap, List.length_map, groupsOf_length]; omega)]
      rfl
  · rw [if_neg h10, if_pos (by omega), groupsOf_of_lt (xs := w) (by omega), e2, hlen]
    congr 2
    · congr 2
      omega
    · omega
    · simp

/-- UNPACK's loop over bytes whose codes fit. -/
theorem forEach_unpackByte_ok (p : Params) {xs : List Byte} (i : Nat) {bs : List Bit}
    (hc : (bs.length + 8 * xs.length) / 10 ≤ p.capCode) :
    forEach (unpackByte p) i xs (unpackState bs) = .ok (unpackState (bs ++ xs.flatMap bitsOf)) := by
  induction xs generalizing i bs with
  | nil => simp
  | cons x xs ih =>
    simp only [List.length_cons] at hc
    unfold forEach
    rw [unpackByte_eq p i x (by omega), if_pos (by omega)]
    simp only
    rw [ih _ (by simp only [List.length_append, bitsOf_length]; omega)]
    simp

end Sys2Proof.Machine
end

