-- ==== Sys2Proof/Laws/Config.lean ====
section
/-! SUPPORT. The build that `State.reset` describes meets every constraint of spec 00_scope R6. -/

namespace Sys2Proof

theorem Config.cap_range (b : Buf) : 1 ≤ Config.cap b ∧ Config.cap b ≤ 2 ^ 22 := by
  have := (Config.rawCap b).isLt
  unfold Config.cap
  omega

/-- The chunk that `Config.chunkRev` picks for a key is one that CHUNK_TAB maps to it. -/
theorem Config.pick_sound (k : List Byte) (r : Nat) (h : Machine.chunksOf k ≠ []) :
    Machine.chunkString (BitVec.ofNat 5 ((Machine.chunksOf k).getD (r % (Machine.chunksOf k).length) 0)).toNat = k := by
  have hlt : r % (Machine.chunksOf k).length < (Machine.chunksOf k).length :=
    Nat.mod_lt _ (List.length_pos_iff.mpr h)
  rw [List.getD_eq_getElem _ _ hlt]
  have hm := List.getElem_mem hlt
  obtain ⟨hr, hs⟩ := List.mem_filter.mp hm
  have h32 := List.mem_range.mp hr
  rw [BitVec.toNat_ofNat, Nat.mod_eq_of_lt (by simpa using h32)]
  exact eq_of_beq hs

theorem Config.params_wf : Config.params.wf = true := by
  have hc := Config.cap_range
  have hcaps : Config.params.capsOk = true := by
    simp only [Params.capsOk, Config.params, List.all_cons, List.all_nil, Bool.and_eq_true, decide_eq_true_eq]
    exact ⟨hc _, hc _, hc _, hc _, hc _, hc _, trivial⟩
  have hctrl : Config.params.normCtrlOk = true := by
    have hall : Config.normCtrl.all (fun b => decide (32 ≤ b.toNat) && decide (b.toNat ≤ 126)) = true := by
      rw [List.all_eq_true]
      intro b hb
      obtain ⟨j, -, rfl⟩ := List.mem_map.mp hb
      have := (Config.rawCtrl j).isLt
      split
      · decide
      · split
        · decide
        · rw [BitVec.toNat_ofNat, Nat.mod_eq_of_lt (by omega)]
          simp only [Bool.and_eq_true, decide_eq_true_eq]
          omega
    have hlen : Config.normCtrl.length = 18 := by simp [Config.normCtrl]
    have h0 : Config.normCtrl.getD 0 0 = 48#8 := by simp [Config.normCtrl]
    have h10 : Config.normCtrl.getD 10 0 = 32#8 := by simp [Config.normCtrl]
    simp only [Params.normCtrlOk, Config.params, hall, hlen, h0, h10, beq_self_eq_true, Bool.and_self]
  have hoff : Config.params.offsetOk = true := by
    have := Config.rawOffset.isLt
    simp only [Params.offsetOk, Config.params, Bool.and_eq_true]
    exact ⟨decide_eq_true (by omega), decide_eq_true (by omega)⟩
  have hrev : Config.params.chunkRevOk = true := by
    have hne : ∀ k ∈ Machine.chunkKeys, Machine.chunksOf k ≠ [] := by decide
    simp only [Params.chunkRevOk, Config.params, Config.chunkRev, List.map_map, beq_iff_eq]
    apply List.ext_getElem
    · simp
    · intro j h1 h2
      simp only [List.getElem_map, List.getElem_zipIdx, Function.comp]
      exact Config.pick_sound _ _ (hne _ (List.getElem_mem _))
  have hbase : Config.params.baseOk = true := by
    simp [Params.baseOk, Config.params]
  simp only [Params.wf, hcaps, hctrl, hoff, hrev, hbase, Bool.and_self]

end Sys2Proof
end

