-- ==== Sys2Proof/Laws/Exec.lean ====
section
/-! SUPPORT. Every command's meaning in one form: its pseudocode on its operands, and then the end of a command. -/

namespace Sys2Proof.Machine

/-- The pseudocode of each command. -/
def runOf (i : Instr) (p : Params) (d : Data) : Except Raise Staged :=
  match i with
  | .norm => normRun p d
  | .valid => validRun d
  | .remap => remapRun p d
  | .ser => serRun p d
  | .deserTrunc => deserTruncRun p d
  | .deserPadb => deserPadbRun p d
  | .pad8 => padRun 8 p d
  | .pad5 => padRun 5 p d
  | .pad10 => padRun 10 p d
  | .trim => trimRun d
  | .a2b => a2bRun p d
  | .b2a => b2aRun p d
  | .cenc => cencRun p d
  | .cdec => cdecRun p d
  | .senc => sencRun p d
  | .sdec => sdecRun p d
  | .pack => packRun p d
  | .unpack => unpackRun p d
  | .blkenc => blkencRun p d
  | .blkdec => blkdecRun p d
  | .bcomp => bcompRun p d
  | .bdecomp => bdecompRun p d

/-- Every meaning runs the command's pseudocode on its operands and ends as 60_exceptions R205, R206 and R212 say. -/
theorem exec_eq (i : Instr) (s : State) : exec i s = .next (s.finish (runOf i s.params s.operands)) := by
  cases i <;> rfl

/-- A word whose fields are those of a command decodes to it. -/
theorem step_engine_command {s : State} {i : Instr} (he : s.nextEvent = .engine) (hf : s.fetch = .command i) :
    step s = exec i s.pop := by
  simp only [step, he, hf]

theorem step_engine_illegal {s : State} {w : Word} (he : s.nextEvent = .engine) (hf : s.fetch = .illegal w) :
    step s = .next (s.pop.endIllegal w) := by
  simp only [step, he, hf]

theorem step_engine_nothing {s : State} (he : s.nextEvent = .engine) (hf : s.fetch = .nothing) :
    step s = .next s.pop := by
  simp only [step, he, hf]

theorem step_access {s : State} {a : Access} (he : s.nextEvent = .access a) : step s = s.pop.access a := by
  simp only [step, he]

theorem step_hardReset {s : State} (he : s.nextEvent = .hardReset) : step s = .next s.pop.toReset := by
  simp only [step, he]

/-! ### Runs of several steps -/

theorem core_run_succ (M : Host.Core) {s t : M.State} (h : M.step s = .next t) (n : Nat) : M.run (n + 1) s = M.run n t := by
  simp only [Host.Core.run, h]

theorem run_succ {s t : State} (h : step s = .next t) (n : Nat) :
    Sys2Proof.core.run (n + 1) s = Sys2Proof.core.run n t := core_run_succ Sys2Proof.core h n

/-- A run that answers a next state took a first step that did. -/
theorem core_step_of_run (M : Host.Core) {s u : M.State} {n : Nat} (h : M.run (n + 1) s = .next u) :
    ∃ t, M.step s = .next t ∧ M.run n t = .next u := by
  cases hs : M.step s with
  | next t => exact ⟨t, rfl, by simpa only [Host.Core.run, hs] using h⟩
  | fault r => simp [Host.Core.run, hs] at h
  | refused r => simp [Host.Core.run, hs] at h

theorem step_of_run {s u : State} {n : Nat} (h : Sys2Proof.core.run (n + 1) s = .next u) :
    ∃ t, step s = .next t ∧ Sys2Proof.core.run n t = .next u := core_step_of_run Sys2Proof.core h

end Sys2Proof.Machine
end

