-- ==== Sys2Proof/Laws/Ends.lean ====
section
/-! SUPPORT. From the outcome of a command's pseudocode to how the command ends. -/

namespace Sys2Proof.Machine

variable {α : Type}

/-- A committed element: the staged one below the staged length, and otherwise what it was (10_state R30). -/
theorem Cells.find_commit_getD (staged : Option (List α)) (c : Cells α) (i : Nat) (d : α) :
    (Cells.find i (Cells.commit staged c)).getD d = (staged.getD []).getD i ((Cells.find i c).getD d) := by
  cases staged with
  | none => simp
  | some xs =>
    rw [Cells.commit_some, Cells.find_putPrefix]
    by_cases h : i < xs.length
    · simp [h, List.getD_eq_getElem?_getD]
    · simp [h, List.getD_eq_getElem?_getD]

theorem Memory.elem_commit (m : Memory) (st : Staged) (b : Buf) (i : Nat) :
    (m.commit st).elem b i = ((st.elems b).getD []).getD i (m.elem b i) := by
  have key : ∀ {n : Nat} (staged : Option (List (BitVec n))) (c : Cells (BitVec n)) (d : BitVec n),
      ((Cells.find i (Cells.commit staged c)).getD d).setWidth 32 =
        ((staged.map fun xs => xs.map (·.setWidth 32)).getD []).getD i (((Cells.find i c).getD d).setWidth 32) := by
    intro n staged c d
    rw [Cells.find_commit_getD]
    cases staged with
    | none => simp
    | some xs => simp [List.getD_eq_getElem?_getD, Option.getD_map]
  cases b <;> exact key _ _ _

/-- The normal end commits exactly what was staged (60_exceptions R206). -/
theorem State.endOk_endsNormally (s : State) (st : Staged) : EndsNormally s (s.endOk st) st where
  status := rfl
  engine := rfl
  abortReq := rfl
  errCode := rfl
  errPos := rfl
  errVal := rfl
  cmd := rfl
  params := rfl
  inbox := rfl
  replies := rfl
  len := fun b => by cases b <;> rfl
  padCnt := rfl
  totalBytes := rfl
  convBytes := rfl
  elem := fun b i => Memory.elem_commit s.data.mem st b i
  hist := fun b => by
    show Cells.entry 0 b (st.hist.getD s.data.mem.hist) = _
    cases st.hist <;> rfl
  map := fun _ => rfl
  dict := fun _ => rfl

/-- The error end writes the error registers and discards everything staged (60_exceptions R205). -/
theorem State.endErr_endsInError (s : State) (e : Raise) : EndsInError s (s.endErr e) e.code e.pos e.val where
  status := rfl
  engine := rfl
  abortReq := rfl
  errCode := rfl
  errPos := rfl
  errVal := rfl
  cmd := rfl
  params := rfl
  inbox := rfl
  replies := rfl
  data := rfl

theorem completes_of_ok {i : Instr} {s : State} {st : Staged} (ha : s.abortReq = false)
    (h : runOf i s.params s.operands = .ok st) : Completes i s st :=
  ⟨s.endOk st, by rw [exec_eq, State.finish_of_no_abort ha, h]; rfl, State.endOk_endsNormally s st⟩

theorem fails_of_error {i : Instr} {s : State} {e : Raise} (ha : s.abortReq = false)
    (h : runOf i s.params s.operands = .error e) : Fails i s e.code e.pos e.val :=
  ⟨s.endErr e, by rw [exec_eq, State.finish_of_no_abort ha, h]; rfl, State.endErr_endsInError s e⟩

end Sys2Proof.Machine
end

