-- ==== Sys2Proof/Laws/PerInstr.lean ====
section
/-! SUPPORT. What is said of each command as syntax. -/

namespace Sys2Proof.Laws

/-- The fields cut from a command's word are the command's own, and they pass the three checks of 30_encoding R73. -/
def EncodingFields.Statement (i : Instr) : Prop := fieldsOf (encode i) = i.fields ∧ i.wf = true

theorem EncodingFields.norm : EncodingFields.Statement .norm := ⟨by decide, by decide⟩
theorem EncodingFields.valid : EncodingFields.Statement .valid := ⟨by decide, by decide⟩
theorem EncodingFields.remap : EncodingFields.Statement .remap := ⟨by decide, by decide⟩
theorem EncodingFields.ser : EncodingFields.Statement .ser := ⟨by decide, by decide⟩
theorem EncodingFields.deserTrunc : EncodingFields.Statement .deserTrunc := ⟨by decide, by decide⟩
theorem EncodingFields.deserPadb : EncodingFields.Statement .deserPadb := ⟨by decide, by decide⟩
theorem EncodingFields.pad8 : EncodingFields.Statement .pad8 := ⟨by decide, by decide⟩
theorem EncodingFields.pad5 : EncodingFields.Statement .pad5 := ⟨by decide, by decide⟩
theorem EncodingFields.pad10 : EncodingFields.Statement .pad10 := ⟨by decide, by decide⟩
theorem EncodingFields.trim : EncodingFields.Statement .trim := ⟨by decide, by decide⟩
theorem EncodingFields.a2b : EncodingFields.Statement .a2b := ⟨by decide, by decide⟩
theorem EncodingFields.b2a : EncodingFields.Statement .b2a := ⟨by decide, by decide⟩
theorem EncodingFields.cenc : EncodingFields.Statement .cenc := ⟨by decide, by decide⟩
theorem EncodingFields.cdec : EncodingFields.Statement .cdec := ⟨by decide, by decide⟩
theorem EncodingFields.senc : EncodingFields.Statement .senc := ⟨by decide, by decide⟩
theorem EncodingFields.sdec : EncodingFields.Statement .sdec := ⟨by decide, by decide⟩
theorem EncodingFields.pack : EncodingFields.Statement .pack := ⟨by decide, by decide⟩
theorem EncodingFields.unpack : EncodingFields.Statement .unpack := ⟨by decide, by decide⟩
theorem EncodingFields.blkenc : EncodingFields.Statement .blkenc := ⟨by decide, by decide⟩
theorem EncodingFields.blkdec : EncodingFields.Statement .blkdec := ⟨by decide, by decide⟩
theorem EncodingFields.bcomp : EncodingFields.Statement .bcomp := ⟨by decide, by decide⟩
theorem EncodingFields.bdecomp : EncodingFields.Statement .bdecomp := ⟨by decide, by decide⟩

end Sys2Proof.Laws
end

