-- ==== Sys2Proof/Laws/Port.lean ====
section
/-! SUPPORT. What a host access does: the step that takes it, and what lies at an offset. -/

namespace Sys2Proof.Machine

@[simp] theorem State.withEvent_pop (s : State) (e : Event) : (s.withEvent e).pop = s := by
  cases s
  rfl

theorem inWindow_of_offset {s : State} {off : Nat} (ho : off < 2 ^ 27) {a : Access} (ha : a.addr = s.params.base + off)
    (hn : a.bytes = 4) : inWindow s.params a = true := by
  unfold inWindow
  rw [ha, hn, Bool.and_eq_true, decide_eq_true_eq, decide_eq_true_eq]
  omega

theorem aligned_of_offset {s : State} {off : Nat} (hb : s.params.baseOk = true) (ho : off % 4 = 0) {a : Access}
    (ha : a.addr = s.params.base + off) : a.aligned = true := by
  have hb' : s.params.base % 2 ^ 27 = 0 := eq_of_beq hb
  unfold Access.aligned
  rw [ha, beq_iff_eq]
  omega

/-- A host read of a word of the window answers what lies there (20_memory R51, R52). -/
theorem step_withRead {s : State} (hb : s.params.baseOk = true) {off : Nat} (ho : WordOffset off) :
    step (s.withRead off) = .next (s.hostRead (locate off)) := by
  rw [State.withRead, step_access (s := s.withEvent _) rfl, State.withEvent_pop, State.access,
    inWindow_of_offset ho.2 rfl rfl, aligned_of_offset hb ho.1 rfl]
  simp [Access.widthOk, Access.bytes]

/-- A host write to a word of the window goes to what lies there (20_memory R51, R52). -/
theorem step_withWrite {s : State} (hb : s.params.baseOk = true) {off : Nat} (ho : WordOffset off) (v : Word) :
    step (s.withWrite off v) = .next (s.hostWrite (locate off) v) := by
  rw [State.withWrite, step_access (s := s.withEvent _) rfl, State.withEvent_pop, State.access,
    inWindow_of_offset ho.2 rfl rfl, aligned_of_offset hb ho.1 rfl]
  simp [Access.widthOk, Access.bytes]

/-- CTRL lies at its one offset (20_memory R50). -/
theorem locate_eq_ctrl {off : Nat} : locate off = .reg .ctrl ↔ off = 8 := by
  constructor
  · intro h
    have hm : ∀ l : List (Nat × Reg), l.lookup off = some .ctrl → (off, Reg.ctrl) ∈ l := by
      intro l
      induction l with
      | nil => simp
      | cons e l ih =>
        rw [List.lookup_cons]
        split
        · rename_i he
          intro h
          rw [Option.some.injEq] at h
          rw [eq_of_beq he, ← h]
          exact List.mem_cons_self
        · exact fun h => List.mem_cons_of_mem _ (ih h)
    unfold locate at h
    split at h
    · rename_i r hr
      have hall : ∀ e ∈ regMap, e.2 = .ctrl → e.1 = 8 := by decide
      rw [Loc.reg.injEq] at h
      exact hall _ (hm _ (h ▸ hr)) rfl
    · repeat' split at h
      all_goals cases h
  · rintro rfl
    rfl

/-- The registers of the map, by their offsets (20_memory R50). -/
theorem locate_reg : ∀ e ∈ regMap, locate e.1 = .reg e.2 := by decide

theorem lookup_regMap_of_le {off : Nat} (h : 0x98 ≤ off) : regMap.lookup off = none := by
  have hall : ∀ e ∈ regMap, e.1 < 0x98 := by decide
  rw [List.lookup_eq_none_iff]
  intro e he
  have := hall e he
  simp
  omega

theorem locate_hist {b : Nat} (h : b < 256) : locate (0x1000 + 4 * b) = .hist b := by
  rw [locate, lookup_regMap_of_le (by omega)]
  simp only
  rw [if_pos (by omega)]
  congr 1
  omega

theorem locate_map {b : Nat} (h : b < 256) : locate (0x2000 + 4 * b) = .map b := by
  rw [locate, lookup_regMap_of_le (by omega)]
  simp only
  rw [if_neg (by omega), if_pos (by omega)]
  congr 1
  omega

theorem locate_dict {c : Nat} (h : c < 1024) : locate (0x4000 + 4 * c) = .dict c := by
  rw [locate, lookup_regMap_of_le (by omega)]
  simp only
  rw [if_neg (by omega), if_neg (by omega), if_pos (by omega)]
  congr 1
  omega

theorem windowBase_eq (b : Buf) : windowBase b = 2 ^ 24 * bufId b := by
  cases b <;> rfl

theorem windowBuf_bufId (b : Buf) : windowBuf (bufId b) = some b := by
  cases b <;> rfl

theorem locate_elem (b : Buf) {i : Nat} (h : i < 2 ^ 22) : locate (windowBase b + 4 * i) = .elem b i := by
  have hid : 1 ≤ bufId b := by cases b <;> decide
  rw [windowBase_eq, locate, lookup_regMap_of_le (by omega)]
  simp only
  rw [if_neg (by omega), if_neg (by omega), if_neg (by omega),
    show (2 ^ 24 * bufId b + 4 * i) / 2 ^ 24 = bufId b from by omega, windowBuf_bufId]
  simp only
  congr 1
  omega

theorem locate_len (b : Buf) : locate (lenOffset b) = .reg (.len b) := by
  cases b <;> rfl

/-- What the map does not list is unmapped (20_memory R56). -/
theorem locate_unmapped {off : Nat} (h : ¬ MappedOffset off) (ho : off < 2 ^ 27) : locate off = .unmapped := by
  have hl : regMap.lookup off = none := by
    rw [List.lookup_eq_none_iff]
    intro e he
    have hall : ∀ e ∈ regMap, e.1 ∈ [0x00, 0x04, 0x08, 0x0C, 0x10, 0x14, 0x20, 0x24, 0x28, 0x2C, 0x30, 0x34, 0x38, 0x40,
      0x44, 0x80, 0x84, 0x88, 0x8C, 0x90, 0x94] := by decide
    rw [bne_iff_ne]
    rintro rfl
    exact h (.inl (hall e he))
  have h1 : ¬ (0x1000 ≤ off ∧ off < 0x1400) := fun e => h (.inr (.inl e))
  have h2 : ¬ (0x2000 ≤ off ∧ off < 0x2400) := fun e => h (.inr (.inr (.inl e)))
  have h3 : ¬ (0x4000 ≤ off ∧ off < 0x5000) := fun e => h (.inr (.inr (.inr (.inl e))))
  have h4 : ¬ (0x01000000 ≤ off ∧ off < 0x07000000) := fun e => h (.inr (.inr (.inr (.inr e))))
  rw [locate, hl]
  simp only
  rw [if_neg (by omega), if_neg (by omega), if_neg (by omega)]
  have hk : off / 2 ^ 24 = 0 ∨ off / 2 ^ 24 = 7 := by omega
  rcases hk with hk | hk <;> rw [hk] <;> rfl

/-- While the engine is idle no read is unreliable (70_reset_and_hazards R241). -/
theorem State.hostRead_of_idle {s : State} (h : s.engine = .idle) (l : Loc) : s.hostRead l = s.reply (s.committed l) := by
  have hu : s.unreliable l = false := by simp [State.unreliable, State.fetch, h]
  rw [State.hostRead, hu]
  rfl

theorem State.hostWrite_of_idle {s : State} (h : s.engine = .idle) {l : Loc} (hl : l ≠ .reg .ctrl) (v : Word) :
    s.hostWrite l v = s.writeIdle l v := by
  rw [State.hostWrite, if_neg hl, h]

/-- While the engine is busy a write to anything but CTRL changes nothing (70_reset_and_hazards R240). -/
theorem State.hostWrite_of_busy {s : State} {w : Word} {snapshot : Data} (h : s.engine = .busy w snapshot) {l : Loc}
    (hl : l ≠ .reg .ctrl) (v : Word) : s.hostWrite l v = s := by
  rw [State.hostWrite, if_neg hl, h]

end Sys2Proof.Machine
end

