-- ==== Sys2Proof/Laws/Sequences.lean ====
section
/-! SUPPORT. The valid elements of a buffer after a command that committed it, and what `Runs` says of `exec`. -/

namespace Sys2Proof.Machine

/-- Widening loses nothing. -/
theorem setWidth_word_injective {n : Nat} (hn : n ≤ 32) {a b : BitVec n} (h : a.setWidth 32 = b.setWidth 32) : a = b := by
  apply BitVec.eq_of_toNat_eq
  have h' := congrArg BitVec.toNat h
  have hp : 2 ^ n ≤ 2 ^ 32 := Nat.pow_le_pow_right (by decide) hn
  rwa [BitVec.toNat_setWidth, BitVec.toNat_setWidth, Nat.mod_eq_of_lt (lt_of_lt_of_le a.isLt hp),
    Nat.mod_eq_of_lt (lt_of_lt_of_le b.isLt hp)] at h'

/-- A sequence whose elements read as `xs`, with `g` past its end. -/
theorem map_range_eq {n : Nat} (hn : n ≤ 32) {f : Nat → BitVec n} {xs : List (BitVec n)} {len : Nat} (g : Nat → BitVec n)
    (hl : len = xs.length) (h : ∀ i, (f i).setWidth 32 = (xs[i]?.getD (g i)).setWidth 32) : (List.range len).map f = xs := by
  apply List.ext_getElem
  · simp [hl]
  · intro i h1 h2
    simp only [List.getElem_map, List.getElem_range]
    apply setWidth_word_injective hn
    rw [h]
    simp [h2]

variable {s t : State} {st : Staged}

theorem EndsNormally.bytSeq_eq (h : EndsNormally s t st) {xs : List Byte} (e : st.byt = some xs)
    (hl : t.data.lenByt.toNat = xs.length) : t.data.bytSeq = xs :=
  map_range_eq (by decide) s.data.mem.bytAt hl fun i => by
    have := h.elem .byt i
    simpa [Staged.elems, e, Memory.elem] using this

theorem EndsNormally.bitSeq_eq (h : EndsNormally s t st) {xs : List Bit} (e : st.bit = some xs)
    (hl : t.data.lenBit.toNat = xs.length) : t.data.bitSeq = xs :=
  map_range_eq (by decide) s.data.mem.bitAt hl fun i => by
    have := h.elem .bit i
    simpa [Staged.elems, e, Memory.elem] using this

theorem EndsNormally.symSeq_eq (h : EndsNormally s t st) {xs : List Byte} (e : st.sym = some xs)
    (hl : t.data.lenSym.toNat = xs.length) : t.data.symSeq = xs :=
  map_range_eq (by decide) s.data.mem.symAt hl fun i => by
    have := h.elem .sym i
    simpa [Staged.elems, e, Memory.elem] using this

theorem EndsNormally.chrSeq_eq (h : EndsNormally s t st) {xs : List Byte} (e : st.chr = some xs)
    (hl : t.data.lenChr.toNat = xs.length) : t.data.chrSeq = xs :=
  map_range_eq (by decide) s.data.mem.chrAt hl fun i => by
    have := h.elem .chr i
    simpa [Staged.elems, e, Memory.elem] using this

theorem EndsNormally.codeSeq_eq (h : EndsNormally s t st) {xs : List Code} (e : st.code = some xs)
    (hl : t.data.lenCode.toNat = xs.length) : t.data.codeSeq = xs :=
  map_range_eq (by decide) s.data.mem.codeAt hl fun i => by
    have := h.elem .code i
    simpa [Staged.elems, e, Memory.elem] using this

theorem EndsNormally.pkbSeq_eq (h : EndsNormally s t st) {xs : List Byte} (e : st.pkb = some xs)
    (hl : t.data.lenPkb.toNat = xs.length) : t.data.pkbSeq = xs :=
  map_range_eq (by decide) s.data.mem.pkbAt hl fun i => by
    have := h.elem .pkb i
    simpa [Staged.elems, e, Memory.elem] using this

/-- A command that runs on the idle block is `exec` on the state right after its issue. -/
theorem Runs.exec_issue {i : Instr} {s t : State} (h : Runs i s t) (hd : decode (encode i) = .ok i) :
    exec i (s.issue (encode i)) = .next t := by
  have hs := h.2
  rwa [step_engine_command (s := (s.issue (encode i)).withEvent .engine) (i := i) rfl
    (by simp [State.fetch, State.withEvent, State.issue, hd])] at hs

/-- `exec` answers one state. -/
theorem Completes.ends {i : Instr} {s t : State} {st : Staged} (hc : Completes i s st) (h : exec i s = .next t) :
    EndsNormally s t st := by
  obtain ⟨t', h1, h2⟩ := hc
  rw [h1] at h
  cases h
  exact h2

theorem Fails.ends {i : Instr} {s t : State} {code : ErrCode} {pos val : Nat} (hc : Fails i s code pos val)
    (h : exec i s = .next t) : EndsInError s t code pos val := by
  obtain ⟨t', h1, h2⟩ := hc
  rw [h1] at h
  cases h
  exact h2

end Sys2Proof.Machine
end

