-- ==== Sys2Proof/Laws/Tokens.lean ====
section
/-! SUPPORT. Greedy tokenization: what the token loop does over the tokens of a sequence (spec 42_chunk_codec R140). -/

namespace Sys2Proof.Machine

variable {σ β : Type}

theorem withPositions_append (p : Nat) (xs ys : List (List Byte)) :
    withPositions p (xs ++ ys) = withPositions p xs ++ withPositions (p + xs.flatten.length) ys := by
  induction xs generalizing p with
  | nil => simp [withPositions]
  | cons x xs ih => simp [withPositions, ih, Nat.add_assoc]

theorem map_snd_withPositions (p : Nat) (xs : List (List Byte)) : (withPositions p xs).map (·.2) = xs := by
  induction xs generalizing p with
  | nil => rfl
  | cons x xs ih => simp [withPositions, ih]

theorem Tokenizes.append {keys : List (List Byte)} {s rest : List Byte} {ts us : List (List Byte)}
    (h : Tokenizes keys s (ts ++ us) rest) : ∃ r, Tokenizes keys s ts r ∧ Tokenizes keys r us rest := by
  induction ts generalizing s with
  | nil => exact ⟨s, rfl, h⟩
  | cons t ts ih =>
    obtain ⟨h1, h2, h3, h4⟩ := h
    obtain ⟨r, h5, h6⟩ := ih h4
    exact ⟨r, ⟨h1, h2, h3, h5⟩, h6⟩

/-- The tokens and the rest, joined, are the sequence. -/
theorem Tokenizes.eq_flatten {keys : List (List Byte)} {s rest : List Byte} {ts : List (List Byte)}
    (h : Tokenizes keys s ts rest) : s = ts.flatten ++ rest := by
  induction ts generalizing s with
  | nil => simpa [Tokenizes] using h
  | cons t ts ih =>
    obtain ⟨-, ⟨r, rfl⟩, -, h4⟩ := h
    rw [List.drop_left] at h4
    rw [ih h4]
    simp

theorem Tokenizes.mem_keys {keys : List (List Byte)} {s rest : List Byte} {ts : List (List Byte)}
    (h : Tokenizes keys s ts rest) : ∀ t ∈ ts, t ∈ keys := by
  induction ts generalizing s with
  | nil => simp
  | cons t ts ih =>
    obtain ⟨h1, -, -, h4⟩ := h
    intro x hx
    rcases List.mem_cons.mp hx with rfl | hx
    · exact h1
    · exact ih h4 x hx

/-- A loop whose body does not read the index may start at any index. -/
theorem forEach_index {α : Type} (act : α → σ → Except Raise σ) (xs : List α) (i j : Nat) (st : σ) :
    forEach (fun _ x st => act x st) i xs st = forEach (fun _ x st => act x st) j xs st := by
  induction xs generalizing i j st with
  | nil => rfl
  | cons x xs ih =>
    unfold forEach
    cases act x st with
    | error e => rfl
    | ok st' => exact ih _ _ _

/-- The token loop does `act` for each token with its position, and then goes on with the rest. -/
theorem tokenLoop_tokens {keys : List (List Byte)} (hne : [] ∉ keys) (act : Nat → List Byte → σ → Except Raise σ)
    {ts : List (List Byte)} {s rest : List Byte} (ht : Tokenizes keys s ts rest) (p : Nat) (st : σ) :
    tokenLoop keys act p 0 s st =
      match forEach (fun _ e st => act e.1 e.2 st) 0 (withPositions p ts) st with
      | .ok st' => tokenLoop keys act (p + ts.flatten.length) 0 rest st'
      | .error e => .error e := by
  induction ts generalizing s p st with
  | nil =>
    obtain rfl : s = rest := ht
    simp [withPositions]
  | cons t ts ih =>
    obtain ⟨hm, hp, hmax, hrest⟩ := ht
    obtain ⟨s', rfl⟩ := hp
    rw [List.drop_left] at hrest
    rw [tokenLoop_token act (longestKey_eq_some hm (List.prefix_append t s') hmax) (fun e => hne (e ▸ hm))]
    unfold withPositions forEach
    cases act p t st with
    | error e => rfl
    | ok st' =>
      simp only
      rw [ih hrest, forEach_index (fun (e : Nat × List Byte) st => act e.1 e.2 st) _ (0 + 1) 0]
      simp only [List.flatten_cons, List.length_append, Nat.add_assoc]

/-- Emitting the elements of each token, where they all fit. -/
theorem forEach_withPositions_ok {p : Params} {b : Buf} {f : List Byte → List β} {ts : List (List Byte)} {p0 : Nat}
    {staged : List β} (h : staged.length + (ts.flatMap f).length ≤ p.cap b) :
    forEach (fun _ e out => emitAll p b e.1 out (f e.2)) 0 (withPositions p0 ts) staged = .ok (staged ++ ts.flatMap f) := by
  induction ts generalizing p0 staged with
  | nil => simp [withPositions]
  | cons t ts ih =>
    simp only [List.flatMap_cons, List.length_append] at h
    unfold withPositions forEach
    have h0 : emitAll p b p0 staged (f t) = .ok (staged ++ f t) := emitAll_ok (by omega) _
    simp only [h0]
    rw [forEach_index (fun (e : Nat × List Byte) out => emitAll p b e.1 out (f e.2)) _ (0 + 1) 0,
      ih (by simp only [List.length_append]; omega)]
    simp

end Sys2Proof.Machine
end

