-- ==== Sys2Proof/Tests/Slice0.lean ====
section
/-! SUPPORT. Tests: what the checks refuse, the command words, one step of each command on a small state, and a state that
meets the hypotheses of each statement. Every expected value is one of the spec's own vectors (95_test_vectors, or the worked
examples of the section files), or follows by hand from the rule the comment names. -/

namespace Sys2Proof.Tests

open Sys2Proof Sys2Proof.Machine

/-! ### Small builds and states -/

/-- A build with small capacities that meets 00_scope R6. -/
def build : Params where
  capByt := 8
  capBit := 40
  capSym := 20
  capChr := 8
  capCode := 4
  capPkb := 5
  normCtrl := [48, 33, 34, 35, 36, 37, 38, 39, 40, 41, 32, 43, 44, 45, 46, 47, 48, 126]
  normLinOffset := 16
  chunkRev := chunkRevLowest
  packTail := .msb
  base := 0

/-- The same build with PACK_TAIL = LSB. -/
def buildLsb : Params := { build with packTail := .lsb }

/-- Cells 0 to `xs.length - 1`. -/
def cells {α : Type} (xs : List α) : Cells α := xs.zipIdx.map fun e => (e.2, e.1)

/-- Operands with these valid elements. -/
def operandsOf (byt : List Byte) (bit : List Bit) (sym chr : List Byte) (code : List Code) (pkb : List Byte) (padCnt : Word)
    (dict : Cells DictEntry) : Data :=
  { Data.afterReset 0 with
    lenByt := BitVec.ofNat 32 byt.length
    lenBit := BitVec.ofNat 32 bit.length
    lenSym := BitVec.ofNat 32 sym.length
    lenChr := BitVec.ofNat 32 chr.length
    lenCode := BitVec.ofNat 32 code.length
    lenPkb := BitVec.ofNat 32 pkb.length
    padCnt := padCnt
    mem := { Memory.afterReset 0 with
      byt := cells byt, bit := cells bit, sym := cells sym, chr := cells chr, code := cells code, pkb := cells pkb
      dict := dict } }

/-- The idle machine with these operands. -/
def holding (p : Params) (d : Data) : State := { State.resetWith p with data := d }

def withByt (xs : List Byte) : State := holding build (operandsOf xs [] [] [] [] [] 0 [])
def withBit (bs : List Bit) (padCnt : Word) : State := holding build (operandsOf [] bs [] [] [] [] padCnt [])
def withSym (xs : List Byte) : State := holding build (operandsOf [] [] xs [] [] [] 0 [])
def withChr (xs : List Byte) : State := holding build (operandsOf [] [] [] xs [] [] 0 [])
def withCode (cs : List Code) (dict : Cells DictEntry) : State := holding build (operandsOf [] [] [] [] cs [] 0 dict)
def withPkb (xs : List Byte) (dict : Cells DictEntry) : State := holding build (operandsOf [] [] [] [] [] xs 0 dict)

/-- `f` of the state after the command word `w` is issued and runs. -/
def after {α : Type} (w : Nat) (s : State) (f : State → α) : Option α :=
  match step (s.withFetchWord 32 w) with
  | .next t => some (f t)
  | _ => none

/-- The error registers and STATUS. -/
def report (s : State) : Nat × Nat × Nat × Nat := (s.status.toNat, s.errCode.toNat, s.errPos.toNat, s.errVal.toNat)

/-- The engine is busy with the word `w`. -/
def busyWith (w : Word) : State := { State.resetWith build with cmd := w, status := 1, engine := .busy w (Data.afterReset 0) }

/-! ### What the checks refuse (WellFormed) -/

theorem test_rsvd_refused : CmdFields.rsvdOk ⟨1, 0, 0x01⟩ = false ∧ CmdFields.wf ⟨1, 0, 0x01⟩ = false := by decide
theorem test_opc_refused : CmdFields.opcOk ⟨0, 0, 0x16⟩ = false ∧ CmdFields.wf ⟨0, 0, 0x16⟩ = false := by decide
theorem test_mode_refused : CmdFields.modeOk ⟨0, 3, 0x12⟩ = false ∧ CmdFields.wf ⟨0, 2, 0x11⟩ = false := by decide
theorem test_every_command_is_well_formed : ∀ i ∈ Instr.all, i.wf = true := by decide
theorem test_width_refused : Access.widthOk (.read 0 2) = false ∧ Access.wf (.write 0 8 0) = false := by decide
theorem test_alignment_refused : Access.aligned (.read 2 4) = false ∧ Access.wf (.write 1 4 0) = false := by decide
theorem test_build_well_formed : build.wf = true ∧ buildLsb.wf = true := by decide
theorem test_caps_refused : { build with capByt := 0 }.capsOk = false ∧ { build with capPkb := 2 ^ 22 + 1 }.wf = false := by
  decide
theorem test_normCtrl_refused : { build with normCtrl := [48] }.normCtrlOk = false ∧
    { build with normCtrl := build.normCtrl.set 0 49 }.wf = false ∧
    { build with normCtrl := build.normCtrl.set 10 33 }.wf = false ∧
    { build with normCtrl := build.normCtrl.set 17 127 }.wf = false := by decide
theorem test_offset_refused : { build with normLinOffset := 15 }.offsetOk = false ∧
    { build with normLinOffset := 96 }.wf = false := by decide
theorem test_chunkRev_refused : { build with chunkRev := chunkRevLowest.set 0 3 }.chunkRevOk = false ∧
    { build with chunkRev := [] }.wf = false := by decide
theorem test_base_refused : { build with base := 2 ^ 26 }.baseOk = false ∧ { build with base := 4 }.wf = false := by decide

/-! ### The command words, bit by bit: RSVD in bits 31:12, MODE in bits 11:8, OPC in bits 7:0 (30_encoding R71, R74, R75) -/

theorem test_decode_norm : decode 0b00000000000000000000_0000_00000001#32 = .ok .norm := by decide
theorem test_decode_valid : decode 0b00000000000000000000_0000_00000010#32 = .ok .valid := by decide
theorem test_decode_remap : decode 0b00000000000000000000_0000_00000011#32 = .ok .remap := by decide
theorem test_decode_ser : decode 0b00000000000000000000_0000_00010000#32 = .ok .ser := by decide
theorem test_decode_deserTrunc : decode 0b00000000000000000000_0000_00010001#32 = .ok .deserTrunc := by decide
theorem test_decode_deserPadb : decode 0b00000000000000000000_0001_00010001#32 = .ok .deserPadb := by decide
theorem test_decode_pad8 : decode 0b00000000000000000000_0000_00010010#32 = .ok .pad8 := by decide
theorem test_decode_pad5 : decode 0b00000000000000000000_0001_00010010#32 = .ok .pad5 := by decide
theorem test_decode_pad10 : decode 0b00000000000000000000_0010_00010010#32 = .ok .pad10 := by decide
theorem test_decode_trim : decode 0b00000000000000000000_0000_00010011#32 = .ok .trim := by decide
theorem test_decode_a2b : decode 0b00000000000000000000_0000_00010100#32 = .ok .a2b := by decide
theorem test_decode_b2a : decode 0b00000000000000000000_0000_00010101#32 = .ok .b2a := by decide
theorem test_decode_cenc : decode 0b00000000000000000000_0000_00100000#32 = .ok .cenc := by decide
theorem test_decode_cdec : decode 0b00000000000000000000_0000_00100001#32 = .ok .cdec := by decide
theorem test_decode_senc : decode 0b00000000000000000000_0000_00110000#32 = .ok .senc := by decide
theorem test_decode_sdec : decode 0b00000000000000000000_0000_00110001#32 = .ok .sdec := by decide
theorem test_decode_pack : decode 0b00000000000000000000_0000_01000000#32 = .ok .pack := by decide
theorem test_decode_unpack : decode 0b00000000000000000000_0000_01000001#32 = .ok .unpack := by decide
theorem test_decode_blkenc : decode 0b00000000000000000000_0000_01000010#32 = .ok .blkenc := by decide
theorem test_decode_blkdec : decode 0b00000000000000000000_0000_01000011#32 = .ok .blkdec := by decide
theorem test_decode_bcomp : decode 0b00000000000000000000_0000_01000100#32 = .ok .bcomp := by decide
theorem test_decode_bdecomp : decode 0b00000000000000000000_0000_01000101#32 = .ok .bdecomp := by decide

/-- The order of 30_encoding R73: RSVD first, then OPC, then MODE. -/
theorem test_decode_refuses : decode 0x00001316#32 = .error .reservedBits ∧ decode 0x00000316#32 = .error .unknownOpcode ∧
    decode 0x00000312#32 = .error .illegalMode ∧ decode 0x00000101#32 = .error .illegalMode ∧
    decode 0#32 = .error .unknownOpcode ∧ decode 0xFFFFFFFF#32 = .error .reservedBits := by decide

/-! ### One step of each command. The byte and string values are those of the worked examples of 40 to 44 -/

/-- 40_normalizer R103: [0x00, 'H', 0x0A, 0xC8] becomes "0H x" with three substitutions. -/
theorem test_norm : after 0x01 (withByt [0x00, 0x48, 0x0A, 0xC8])
    (fun t => (t.data.bytSeq, t.data.totalBytes, t.data.convBytes, t.data.mem.hist)) =
    some ([0x30, 0x48, 0x20, 0x78], 4, 3, [(0, 1), (10, 1), (200, 1)]) := by decide
/-- 40_normalizer R100: the band, its two neighbours and the top of the modulo range. -/
theorem test_norm_edges : after 0x01 (withByt [0x1F, 0x20, 0x7E, 0x7F, 0x80, 0xCA, 0xCB, 0xFF]) (fun t => t.data.bytSeq) =
    some [0x2F, 0x20, 0x7E, 0x7E, 48, 122, 48, 100] := by decide
/-- 40_normalizer R104: the first offender, with its position. -/
theorem test_valid_rejects : after 0x02 (withByt [65, 66, 127, 0]) report = some (6, 1, 2, 127) := by decide
theorem test_valid_accepts : after 0x02 (withByt [32, 126]) report = some (2, 0, 0, 0) := by decide
/-- 40_normalizer R105: one pass, so the mapped value is not mapped again. -/
theorem test_remap : after 0x03
    { withByt [1, 2, 4] with data := { (withByt [1, 2, 4]).data with
        mem := { (withByt [1, 2, 4]).data.mem with map := [(1, ⟨true, 2⟩), (2, ⟨true, 3⟩)] } } }
    (fun t => t.data.bytSeq) = some [2, 3, 4] := by decide
/-- 41_bit_serializer R120: most significant bit first. -/
theorem test_ser : after 0x10 (withByt [0xA5, 0x01]) (fun t => t.data.bitSeq) =
    some [1, 0, 1, 0, 0, 1, 0, 1, 0, 0, 0, 0, 0, 0, 0, 1] := by decide
/-- 60_exceptions R202: five bytes fill 40 bits, the sixth raises at its own position. -/
theorem test_ser_capacity : after 0x10 (withByt [1, 2, 3, 4, 5, 6]) report = some (6, 3, 5, 2) := by decide
/-- 41_bit_serializer R123: the two bits past the last whole byte are not read. -/
theorem test_deserTrunc : after 0x11 (withBit [0, 0, 1, 1, 0, 0, 0, 0, 0, 1] 7) (fun t => (t.data.bytSeq, t.data.padCnt)) =
    some ([0x30], 7) := by decide
theorem test_deserPadb : after 0x111 (withBit [0, 0, 1, 1, 0, 0, 0, 0, 0, 1] 7) (fun t => (t.data.bytSeq, t.data.padCnt)) =
    some ([0x30, 0x40], 6) := by decide
/-- 41_bit_serializer R122: an aligned length gets no padding, and PAD_CNT becomes 0. -/
theorem test_pad8 : after 0x12 (withBit [1, 1, 1, 1, 1, 1, 1, 1] 7) (fun t => (t.data.bitSeq, t.data.padCnt)) =
    some ([1, 1, 1, 1, 1, 1, 1, 1], 0) := by decide
theorem test_pad5 : after 0x112 (withBit [1, 0, 1] 7) (fun t => (t.data.bitSeq, t.data.padCnt)) =
    some ([1, 0, 1, 0, 0], 2) := by decide
theorem test_pad10 : after 0x212 (withBit [1, 1, 1, 1, 1, 1, 1, 1] 0) (fun t => (t.data.bitSeq, t.data.padCnt)) =
    some ([1, 1, 1, 1, 1, 1, 1, 1, 0, 0], 2) := by decide
/-- 41_bit_serializer R124: the whole string may go; more than that is PAD_RANGE. -/
theorem test_trim : after 0x13 (withBit [1, 0, 1, 0] 4) (fun t => (t.data.lenBit, t.data.padCnt)) = some (0, 4) := by decide
theorem test_trim_range : after 0x13 (withBit [1, 0, 1] 5) report = some (6, 4, 3, 5) := by decide
/-- 41_bit_serializer R125. -/
theorem test_a2b : after 0x14 (withByt [0x30, 0x31, 0x31, 0x30]) (fun t => t.data.bitSeq) = some [0, 1, 1, 0] := by decide
theorem test_a2b_rejects : after 0x14 (withByt [0x30, 0x31, 0x61]) report = some (6, 1, 2, 0x61) := by decide
/-- 41_bit_serializer R126. -/
theorem test_b2a : after 0x15 (withBit [1, 0, 1] 0) (fun t => t.data.bytSeq) = some [0x31, 0x30, 0x31] := by decide
theorem test_b2a_capacity : after 0x15 (withBit [1, 0, 1, 0, 1, 0, 1, 0, 1] 0) report = some (6, 3, 8, 1) := by decide
/-- 42_chunk_codec R142: 00101 11111 gives ". .", ".....". -/
theorem test_cenc : after 0x20 (withBit [0, 0, 1, 0, 1, 1, 1, 1, 1, 1] 9) (fun t => (t.data.symSeq, t.data.padCnt)) =
    some ([0x2E, 0x20, 0x2E, 0x2E, 0x2E, 0x2E, 0x2E, 0x2E], 0) := by decide
/-- 42_chunk_codec R142: the zero chunk gives the empty string. -/
theorem test_cenc_zero : after 0x20 (withBit [0, 0, 0] 0) (fun t => (t.data.lenSym, t.data.padCnt)) = some (0, 2) := by decide
/-- 42_chunk_codec R143: ". ......" is ". ..." and "...", so 10111 00111 and not what CENC began with. -/
theorem test_cdec : after 0x21 (withSym [0x2E, 0x20, 0x2E, 0x2E, 0x2E, 0x2E, 0x2E, 0x2E]) (fun t => t.data.bitSeq) =
    some [1, 0, 1, 1, 1, 0, 0, 1, 1, 1] := by decide
theorem test_cdec_rejects : after 0x21 (withSym [0x2E, 0x2E, 0x20, 0x2E, 0x2E, 0x20, 0x2E]) report = some (6, 2, 5, 0x20) := by
  decide
/-- 43_symbol_codec R160: ". .." is "&*". -/
theorem test_senc : after 0x30 (withSym [0x2E, 0x20, 0x2E, 0x2E]) (fun t => t.data.chrSeq) = some [0x26, 0x2A] := by decide
theorem test_senc_rejects : after 0x30 (withSym [0x2E, 0x2E, 0x20, 0x2E]) report = some (6, 2, 2, 0x20) := by decide
/-- 43_symbol_codec R161: "!*&" is "....... .". -/
theorem test_sdec : after 0x31 (withChr [0x21, 0x2A, 0x26]) (fun t => t.data.symSeq) =
    some [0x2E, 0x2E, 0x2E, 0x2E, 0x2E, 0x2E, 0x2E, 0x20, 0x2E] := by decide
theorem test_sdec_rejects : after 0x31 (withChr [0x2A, 0x78]) report = some (6, 2, 1, 0x78) := by decide
/-- 44_block_codec R172: codes 1023 and 1 under MSB and under LSB. -/
theorem test_pack_msb : after 0x40 (withCode [1023, 1] []) (fun t => t.data.pkbSeq) = some [0xFF, 0xC0, 0x10] := by decide
theorem test_pack_lsb : after 0x40 { withCode [1023, 1] [] with params := buildLsb } (fun t => t.data.pkbSeq) =
    some [0xFF, 0xC0, 0x01] := by decide
/-- 44_block_codec R173: the last 4 bits are dropped. -/
theorem test_unpack : after 0x41 (withPkb [1, 2, 3, 4, 5] []) (fun t => t.data.codeSeq) = some [4, 32, 193, 5] := by decide
theorem test_unpack_short : after 0x41 (withPkb [0xAB] []) (fun t => t.data.lenCode) = some 0 := by decide
set_option maxRecDepth 10000 in
/-- 44_block_codec R170, R171: the lowest of two codes for the same pattern. -/
theorem test_blkenc : after 0x42 (holding build (operandsOf [] [0, 0, 1, 1, 0, 0, 0, 0] [] [] [] [] 0
    [(3, ⟨true, 192⟩), (7, ⟨true, 192⟩)])) (fun t => (t.data.codeSeq, t.data.padCnt)) = some ([3], 2) := by decide
/-- 44_block_codec R174. -/
theorem test_blkdec : after 0x43 (withCode [5] [(5, ⟨true, 0b1111100000⟩)]) (fun t => t.data.bitSeq) =
    some [1, 1, 1, 1, 1, 0, 0, 0, 0, 0] := by decide
theorem test_blkdec_rejects : after 0x43 (withCode [5, 6] [(5, ⟨true, 0b1111100000⟩)]) report = some (6, 2, 1, 6) := by decide
set_option maxRecDepth 10000 in
/-- 44_block_codec R175: 0xFF is the group 1111111100, so code 1020 of an identity entry and the bytes FF 00. -/
theorem test_bcomp : after 0x44 (holding build (operandsOf [0xFF] [] [] [] [] [] 0 [(1020, ⟨true, 1020⟩)]))
    (fun t => (t.data.codeSeq, t.data.pkbSeq, t.data.padCnt, t.data.lenBit)) =
    some ([1020], [0xFF, 0x00], 2, 8) := by decide
/-- 44_block_codec R176. -/
theorem test_bdecomp : after 0x45 (withPkb [0xFF, 0x00] [(1020, ⟨true, 1020⟩)])
    (fun t => (t.data.bytSeq, t.data.codeSeq, t.data.lenBit)) = some ([0xFF], [1020], 10) := by decide

/-! ### A state that meets the hypotheses of each statement, at boundary values of each clause -/

/-- The state that `step` gives after command `i` is issued on `s`. -/
def ran (i : Instr) (s : State) : State :=
  match step ((s.issue (encode i)).withEvent .engine) with
  | .next t => t
  | _ => s

/-- Whether that step answers a next state. -/
def goes (i : Instr) (s : State) : Bool :=
  match step ((s.issue (encode i)).withEvent .engine) with
  | .next _ => true
  | _ => false

theorem runs_of_goes {i : Instr} {s : State} (he : s.engine = .idle) (h : goes i s = true) : Runs i s (ran i s) := by
  refine ⟨he, ?_⟩
  unfold goes at h
  unfold ran
  split at h
  · rename_i t ht
    rw [ht]
  · cases h

/-- The invariant of an idle machine that has not run yet. -/
theorem inv_holding {p : Params} {d : Data} (hp : p.wf = true) (hm : d.mem.wf) (hw : d.mem.Within p)
    (hl : ∀ b, (d.len b).toNat ≤ p.cap b) : Inv (holding p d) :=
  ⟨hp, hm, hw, hl, ⟨rfl, .inl rfl⟩, ⟨fun h => absurd h (by show ¬(0#32 = 6#32); decide), fun _ => ⟨rfl, rfl, rfl⟩⟩⟩

theorem witness_EngineTurnRunsTheDecodedCommand : (busyWith 0x212).engine = .busy 0x212 (Data.afterReset 0) ∧
    decode 0x212 = .ok .pad10 ∧ (busyWith 0x212).inbox = [] ∧ (State.resetWith build).engine = .idle := by decide
theorem witness_IllegalWordEndsWithIllegalCmd : (busyWith 0x312).engine = .busy 0x312 (Data.afterReset 0) ∧
    ¬ ∃ i, 0x312 = encode i := ⟨rfl, by rintro ⟨i, h⟩; revert h; cases i <;> decide⟩
theorem witness_CmdWriteIssuesOnlyWhileIdle : build.baseOk = true ∧ (State.resetWith build).engine = .idle ∧
    (busyWith 1).engine = .busy 1 (Data.afterReset 0) := by decide
theorem witness_BusyEngineIgnoresWrites : (busyWith 1).params.baseOk = true ∧
    (busyWith 1).engine = .busy 1 (Data.afterReset 0) ∧ (WordOffset 0 ∧ 0 ≠ 8) ∧ (WordOffset 0x0C ∧ 0x0C ≠ 8) ∧
    (WordOffset (2 ^ 27 - 4) ∧ 2 ^ 27 - 4 ≠ 8) := by decide
theorem witness_OnlyAlignedWordsAreAdmitted :
    (0 < (Access.read 0 1).addr + (Access.read 0 1).bytes ∧ (Access.read 0 1).addr < 0 + 2 ^ 27 ∧
      (Access.read 0 1).bytes ≠ 4) ∧
    (2 ^ 27 < (Access.write (2 ^ 27 - 1) 2 0).addr + (Access.write (2 ^ 27 - 1) 2 0).bytes ∧
      (Access.write (2 ^ 27 - 1) 2 0).addr < 2 ^ 27 + 2 ^ 27 ∧ (Access.write (2 ^ 27 - 1) 2 0).bytes ≠ 4) ∧
    (0 < (Access.read (2 ^ 27 - 1) 4).addr + (Access.read (2 ^ 27 - 1) 4).bytes ∧
      (Access.read (2 ^ 27 - 1) 4).addr < 0 + 2 ^ 27 ∧ (Access.read (2 ^ 27 - 1) 4).bytes = 4 ∧
      (Access.read (2 ^ 27 - 1) 4).addr % 4 ≠ 0) := by decide
theorem witness_ReadsHaveNoSideEffects : (busyWith 1).params.baseOk = true ∧ WordOffset 0 ∧ WordOffset (2 ^ 27 - 4) := by
  decide
theorem witness_RegisterReadsAnswerTheirValues : (State.resetWith build).params.baseOk = true ∧
    (State.resetWith build).engine = .idle := by decide
theorem witness_UnmappedAndReadOnlyOffsets : build.baseOk = true ∧ (WordOffset 0x18 ∧ ¬ MappedOffset 0x18) ∧
    (WordOffset 0x98 ∧ ¬ MappedOffset 0x98) ∧ (WordOffset 0x0FFC ∧ ¬ MappedOffset 0x0FFC) ∧
    (WordOffset 0x1400 ∧ ¬ MappedOffset 0x1400) ∧ (WordOffset 0x5000 ∧ ¬ MappedOffset 0x5000) ∧
    (WordOffset 0x00FFFFFC ∧ ¬ MappedOffset 0x00FFFFFC) ∧ (WordOffset 0x07000000 ∧ ¬ MappedOffset 0x07000000) ∧
    (WordOffset 0x07FFFFFC ∧ ¬ MappedOffset 0x07FFFFFC) ∧ (255 < 256 ∧ 0x13FC = 0x1000 + 4 * 255) := by
  refine ⟨?_, ?_, ?_, ?_, ?_, ?_, ?_, ?_, ?_, ?_⟩ <;> decide
theorem witness_LengthWritesAreClamped : (State.resetWith build).params.wf = true ∧ (State.resetWith build).engine = .idle := by
  decide
theorem witness_ElementWritesKeepTheLowBits :
    (build.wf = true ∧ (State.resetWith build).engine = .idle ∧ 39 < 2 ^ 22 ∧ 39 < build.cap .bit) ∧
    (40 < 2 ^ 22 ∧ build.cap .bit ≤ 40) ∧ (2 ^ 22 - 1 < 2 ^ 22 ∧ build.cap .bit ≤ 2 ^ 22 - 1) ∧
    ({ build with capBit := 2 ^ 22 }.wf = true ∧ 2 ^ 22 - 1 < { build with capBit := 2 ^ 22 }.cap .bit) := by decide
theorem witness_TableWindowsKeepTheirFields : build.baseOk = true ∧ (State.resetWith build).engine = .idle ∧ 255 < 256 ∧
    1023 < 1024 := by decide
theorem witness_BusyReadsAnswerWhatIsNotWritten :
    ((busyWith 1).params.baseOk = true ∧ (busyWith 1).engine = .busy 1 (Data.afterReset 0) ∧ decode 1 = .ok .norm) ∧
    (WordOffset 0x20 ∧ ∀ d, destOf build (locate 0x20) = some d → d ∉ writesOf .norm) ∧
    (WordOffset 0x01000020 ∧ ∀ d, destOf build (locate 0x01000020) = some d → d ∉ writesOf .norm) ∧
    (WordOffset 0x0100001C ∧ destOf build (locate 0x0100001C) = some (.buf .byt) ∧ .buf .byt ∈ writesOf .norm) ∧
    (WordOffset 0x13FC ∧ destOf build (locate 0x13FC) = some .hist ∧ .hist ∈ writesOf .norm) := by
  refine ⟨by decide, ⟨by decide, fun d h => ?_⟩, ⟨by decide, fun d h => ?_⟩, by decide, by decide⟩
  · rw [show destOf build (locate 0x20) = some (.len .byt) from by decide, Option.some.injEq] at h
    subst h
    decide
  · rw [show destOf build (locate 0x01000020) = none from by decide] at h
    cases h
theorem witness_CtrlAbortSetsTheRequestWhileBusy :
    (build.baseOk = true ∧ (0 : Word).getLsbD 1 = false ∧ (0 : Word).getLsbD 0 = false) ∧
    ((1 : Word).getLsbD 1 = false ∧ (1 : Word).getLsbD 0 = true ∧ (0xFFFFFFFD : Word).getLsbD 1 = false) ∧
    (State.resetWith build).engine = .idle ∧ (busyWith 1).engine = .busy 1 (Data.afterReset 0) := by decide
theorem witness_ResetsPutEverythingAtItsResetValue : (busyWith 1).params.baseOk = true ∧ (2 : Word).getLsbD 1 = true ∧
    (3 : Word).getLsbD 1 = true := by decide

/-! How commands end -/

theorem inv_withBit_short : Inv (withBit [1, 0, 1] 5) :=
  inv_holding (by decide) (by decide) (by decide) fun b => by cases b <;> decide

theorem inv_withByt_two : Inv (withByt [0x41, 0x0A]) :=
  inv_holding (by decide) (by decide) (by decide) fun b => by cases b <;> decide

theorem witness_CommandsWriteOnlyTheirColumn : (∃ t, exec .norm (withByt [0x41, 0x0A]) = .next t) ∧
    .len .byt ∉ writesOf .norm ∧ .buf .bit ∉ writesOf .norm ∧ .padCnt ∉ writesOf .norm ∧ .totalBytes ∉ writesOf .ser ∧
    .convBytes ∉ writesOf .ser ∧ .hist ∉ writesOf .ser := ⟨⟨_, rfl⟩, by decide⟩
theorem witness_ElementsPastTheLengthKeepTheirValue : Inv (withByt [0x41, 0x0A]) ∧
    ∃ t, exec .remap (withByt [0x41, 0x0A]) = .next t ∧ (t.data.len .byt).toNat ≤ 2 := ⟨inv_withByt_two, _, rfl, by decide⟩
/-- Two states that VALID cannot tell apart, though PAD_CNT and BIT differ. -/
theorem witness_CommandsReadOnlyTheirColumn :
    Inv (withByt []) ∧ Inv (withBit [1, 0, 1] 5) ∧ (withByt []).params = (withBit [1, 0, 1] 5).params ∧
    (withByt []).abortReq = false ∧ (withBit [1, 0, 1] 5).abortReq = false ∧
    (∀ src ∈ readsOf .valid, AgreeOn (withByt []).data (withBit [1, 0, 1] 5).data src) ∧
    (∃ t, exec .valid (withByt []) = .next t) ∧ ∃ t, exec .valid (withBit [1, 0, 1] 5) = .next t := by
  refine ⟨inv_holding (by decide) (by decide) (by decide) fun b => by cases b <;> decide, inv_withBit_short, rfl, rfl, rfl,
    fun src h => ?_, ⟨_, rfl⟩, ⟨_, rfl⟩⟩
  rcases List.mem_cons.mp h with rfl | h
  · exact fun i hi => absurd hi (Nat.not_lt_zero i)
  · rw [List.mem_singleton.mp h]
    rfl
theorem witness_AbortHasExactlyTwoOutcomes : { busyWith 1 with abortReq := true }.abortReq = true := rfl
theorem witness_CommandsEndOnlyWithTheirErrors : Inv (withBit [1, 0, 1] 5) ∧
    ∃ t, exec .trim (withBit [1, 0, 1] 5) = .next t ∧ t.status = 6 := ⟨inv_withBit_short, _, rfl, by decide⟩

/-! The commands -/

theorem witness_NormSubstitutesAndCounts : (withByt [0, 1, 2, 3, 4, 5, 6, 7]).abortReq = false ∧
    (withByt [0, 1, 2, 3, 4, 5, 6, 7]).operands.lenByt.toNat ≤ build.capByt := by decide
theorem witness_ConversionMapHoldsTheSubstitutedBytes : Inv (withByt [0x41, 0x0A]) ∧
    Runs .norm (withByt [0x41, 0x0A]) (ran .norm (withByt [0x41, 0x0A])) :=
  ⟨inv_withByt_two, runs_of_goes rfl (by decide)⟩
theorem witness_NormFollowsItsFourCases : build.wf = true ∧ Printable 32#8 ∧ Printable 126#8 ∧ (15#8).toNat ≤ 15 ∧
    (16 ≤ (16#8).toNat ∧ (16#8).toNat ≤ 31 ∧ 16#8 ≠ 27#8) ∧ (16 ≤ (31#8).toNat ∧ (31#8).toNat ≤ 31 ∧ 31#8 ≠ 27#8) ∧
    128 ≤ (128#8).toNat := by decide
theorem witness_ValidReportsTheFirstOffender : (withByt [32, 126]).abortReq = false ∧
    (∀ b ∈ (withByt [32, 126]).operands.bytSeq, Printable b) ∧
    (withByt [32, 127]).operands.bytSeq = [32] ++ 127 :: [] ∧ (∀ x ∈ [32#8], Printable x) ∧ ¬ Printable 127#8 := by decide
theorem witness_RemapSubstitutesMappedBytes : (withByt [0, 1, 2, 3, 4, 5, 6, 7]).abortReq = false ∧
    (withByt [0, 1, 2, 3, 4, 5, 6, 7]).operands.lenByt.toNat ≤ build.capByt := by decide
theorem witness_SerEmitsMsbFirst : (withByt [1, 2, 3, 4, 5]).abortReq = false ∧
    8 * (withByt [1, 2, 3, 4, 5]).operands.lenByt.toNat ≤ build.capBit ∧
    build.capBit < 8 * (withByt [1, 2, 3, 4, 5, 6]).operands.lenByt.toNat := by decide
theorem witness_PadAppendsZerosAndRecordsTheCount :
    let s := holding { build with capBit := 10 } (operandsOf [] [1, 1, 1, 1, 1, 1, 1, 1] [] [] [] [] 0 [])
    let t := holding { build with capBit := 9 } (operandsOf [] [1, 1, 1, 1, 1, 1, 1, 1] [] [] [] [] 0 [])
    s.abortReq = false ∧ t.abortReq = false ∧ 8 + (10 - s.operands.lenBit.toNat % 10) % 10 ≤ s.params.capBit ∧
      t.operands.lenBit.toNat ≤ t.params.capBit ∧ t.params.capBit < 8 + (10 - t.operands.lenBit.toNat % 10) % 10 := by decide
theorem witness_DeserReadsBytesMsbFirst :
    let s := holding { build with capByt := 1 } (operandsOf [] [1, 1, 1, 1, 1, 1, 1, 1] [] [] [] [] 0 [])
    let t := holding { build with capByt := 1 } (operandsOf [] [1, 1, 1, 1, 1, 1, 1, 1, 1] [] [] [] [] 0 [])
    let u := holding { build with capByt := 1 } (operandsOf [] (List.replicate 16 1) [] [] [] [] 0 [])
    s.abortReq = false ∧ s.operands.lenBit.toNat / 8 ≤ s.params.capByt ∧ u.abortReq = false ∧
      u.params.capByt < u.operands.lenBit.toNat / 8 ∧
      (s.operands.lenBit.toNat + (8 - s.operands.lenBit.toNat % 8) % 8) / 8 ≤ s.params.capByt ∧ t.abortReq = false ∧
      t.params.capByt < (t.operands.lenBit.toNat + (8 - t.operands.lenBit.toNat % 8) % 8) / 8 := by decide
theorem witness_TrimRemovesTheRecordedPadding : (withBit [1, 0, 1] 3).abortReq = false ∧
    (withBit [1, 0, 1] 3).operands.padCnt.toNat ≤ (withBit [1, 0, 1] 3).operands.lenBit.toNat ∧
    (withBit [1, 0, 1] 4).operands.lenBit.toNat < (withBit [1, 0, 1] 4).operands.padCnt.toNat := by decide
theorem witness_A2bParsesBinaryText :
    let s (xs : List Byte) := holding { build with capBit := 2 } (operandsOf xs [] [] [] [] [] 0 [])
    (s [0x30, 0x31]).abortReq = false ∧ (∀ c ∈ (s [0x30, 0x31]).operands.bytSeq, c = 0x30#8 ∨ c = 0x31#8) ∧
      (s [0x30, 0x31]).operands.lenByt.toNat ≤ (s [0x30, 0x31]).params.capBit ∧
      (s [0x30, 0x31, 0x61]).operands.bytSeq = [0x30, 0x31] ++ 0x61 :: [] ∧ (∀ x ∈ [0x30#8, 0x31#8], x = 0x30#8 ∨ x = 0x31#8) ∧
      ¬ (0x61#8 = 0x30#8 ∨ 0x61#8 = 0x31#8) ∧ [0x30#8, 0x31#8].length ≤ 2 ∧
      2 < (s [0x30, 0x31, 0x30]).operands.lenByt.toNat ∧
      (∀ c ∈ (s [0x30, 0x31, 0x30]).operands.bytSeq.take (2 + 1), c = 0x30#8 ∨ c = 0x31#8) := by decide
theorem witness_B2aWritesBinaryText : (withBit [1, 1, 1, 1, 1, 1, 1, 1] 0).abortReq = false ∧
    (withBit [1, 1, 1, 1, 1, 1, 1, 1] 0).operands.lenBit.toNat ≤ build.capByt ∧
    build.capByt < (withBit [1, 1, 1, 1, 1, 1, 1, 1, 1] 0).operands.lenBit.toNat := by decide
theorem witness_LongestMatchIsGreedyTokenization : [] ∉ chunkKeys ∧
    Tokenizes chunkKeys [dot, spc, dot, dot] [[dot, spc, dot, dot]] [] ∧
    Tokenizes chunkKeys [dot, spc] [[dot]] [spc] ∧ ∀ k ∈ chunkKeys, ¬ k <+: [spc] := by
  simp only [Tokenizes]
  decide
theorem witness_ChunkTableFollowsTheRunRule : (0 : Nat) < chunkKeys.length ∧ 11 < chunkKeys.length ∧ (31 : Nat) < 32 := by
  decide
theorem witness_CencConcatenatesChunkStrings :
    let s (n : Nat) := holding { build with capSym := n } (operandsOf [] [1, 1, 1, 1, 1] [] [] [] [] 0 [])
    let chunks (n : Nat) := groupsOf 5 (padZeros (s n).operands.bitSeq ((5 - (s n).operands.lenBit.toNat % 5) % 5))
    (s 5).abortReq = false ∧ ((chunks 5).flatMap fun g => chunkString (bitsVal g)).length ≤ (s 5).params.capSym ∧
      chunks 4 = [] ++ [1, 1, 1, 1, 1] :: [] ∧ (([] : List (List Bit)).flatMap fun g => chunkString (bitsVal g)).length ≤ 4 ∧
      (s 4).params.capSym < (([] ++ [[1, 1, 1, 1, 1]] : List (List Bit)).flatMap fun g => chunkString (bitsVal g)).length := by decide
theorem witness_CdecDecodesGreedyTokens :
    let s := holding { build with capBit := 7 } (operandsOf [] [] [dot, dot, dot, dot, dot, dot] [] [] [] 0 [])
    build.wf = true ∧ 0 < chunkKeys.length ∧ 11 < chunkKeys.length ∧ (withSym [dot, spc, dot]).abortReq = false ∧
      Tokenizes chunkKeys (withSym [dot, spc, dot]).operands.symSeq [[dot, spc, dot]] [] ∧ 5 * 1 ≤ build.capBit ∧
      Tokenizes chunkKeys (withSym [dot, spc]).operands.symSeq [[dot]] [spc] ∧ (∀ k ∈ chunkKeys, ¬ k <+: [spc]) ∧
      Tokenizes chunkKeys s.operands.symSeq ([[dot, dot, dot, dot, dot]] ++ [[dot]]) [] ∧ 5 * 1 ≤ s.params.capBit ∧
      s.params.capBit < 5 * (1 + 1) := by
  simp only [Tokenizes, List.cons_append, List.nil_append]
  decide
theorem witness_CencOutputIsDotsAndSingleSpaces : Inv (withBit [1, 0, 1] 5) ∧ (withBit [1, 0, 1] 5).abortReq = false ∧
    ∃ t, exec .cenc (withBit [1, 0, 1] 5) = .next t ∧ t.status = 2 := ⟨inv_withBit_short, rfl, _, rfl, by decide⟩
theorem witness_SencEncodesGreedyTokens :
    let s := holding { build with capChr := 1 } (operandsOf [] [] [dot, dot, dot, dot, dot, dot] [] [] [] 0 [])
    (withSym [dot, spc, dot]).abortReq = false ∧
      Tokenizes symKeys (withSym [dot, spc, dot]).operands.symSeq [[dot, spc, dot]] [] ∧ 1 ≤ build.capChr ∧
      Tokenizes symKeys (withSym [dot, spc]).operands.symSeq [[dot]] [spc] ∧ (∀ k ∈ symKeys, ¬ k <+: [spc]) ∧
      Tokenizes symKeys s.operands.symSeq ([[dot, dot, dot, dot, dot]] ++ [[dot]]) [] ∧ 1 = s.params.capChr := by
  simp only [Tokenizes, List.cons_append, List.nil_append]
  decide
theorem witness_SdecExpandsCharacters :
    let keys : List Byte → List (List Byte) := fun cs => cs.filterMap symKeyOf
    let coded : Byte → Prop := fun c => c ∈ [0x2A#8, 0x25#8, 0x24#8, 0x23#8, 0x21#8, 0x26#8]
    let s (n : Nat) (xs : List Byte) := holding { build with capSym := n } (operandsOf [] [] [] xs [] [] 0 [])
    (s 3 [0x26]).abortReq = false ∧ (∀ c ∈ (s 3 [0x26]).operands.chrSeq, coded c) ∧
      (keys (s 3 [0x26]).operands.chrSeq).flatten.length ≤ (s 3 [0x26]).params.capSym ∧
      (s 3 [0x26, 0x78]).operands.chrSeq = [0x26] ++ 0x78 :: [] ∧ (∀ x ∈ [0x26#8], coded x) ∧
      (keys [0x26]).flatten.length ≤ 3 ∧ ¬ coded 0x78 ∧
      (s 3 [0x26, 0x2A]).operands.chrSeq = [0x26] ++ 0x2A :: [] ∧ coded 0x2A ∧
      3 < (keys ([0x26] ++ [0x2A])).flatten.length := by decide
theorem witness_PackCutsCodesIntoBytes :
    let s (n : Nat) (cs : List Code) := holding { build with capPkb := n } (operandsOf [] [] [] [] cs [] 0 [])
    (s 5 [1, 2, 3, 4]).abortReq = false ∧ (10 * (s 5 [1, 2, 3, 4]).operands.lenCode.toNat + 7) / 8 ≤ 5 ∧
      (1 < (s 1 [1, 2]).operands.lenCode.toNat ∧ 10 * 1 / 8 ≤ 1 ∧ 1 < 10 * (1 + 1) / 8) ∧
      (10 * (s 1 [1]).operands.lenCode.toNat / 8 = 1 ∧ 10 * (s 1 [1]).operands.lenCode.toNat % 8 ≠ 0) := by decide
theorem witness_UnpackCutsBytesIntoCodes :
    let s (n : Nat) (xs : List Byte) := holding { build with capCode := n } (operandsOf [] [] [] [] [] xs 0 [])
    (s 4 [1, 2, 3, 4, 5]).abortReq = false ∧ 8 * (s 4 [1, 2, 3, 4, 5]).operands.lenPkb.toNat / 10 ≤ 4 ∧
      2 < (s 1 [1, 2, 3]).operands.lenPkb.toNat ∧ 8 * 2 / 10 ≤ 1 ∧ 1 < 8 * (2 + 1) / 10 := by decide

/-- Two groups of ten 0 bits, and one code for them. -/
def zeros : State := holding { build with capCode := 1 }
  (operandsOf [] (List.replicate 20 0) [] [] [] [] 0 [(2, ⟨true, 0⟩)])

theorem not_noCode_zeros : ¬ NoCode zeros.operands.mem 0 := fun h => h 2 (by decide) (by decide)

theorem noCode_withBit (bs : List Bit) (n : Word) (g : Code) : NoCode (withBit bs n).operands.mem g :=
  fun _ _ h => absurd h.1 Bool.false_ne_true

theorem witness_BlkencLooksUpLowestCodes :
    zeros.abortReq = false ∧
    (∃ s : State, s.abortReq = false ∧ ∃ cs, List.Forall₂ (fun g c => IsLowestCode s.operands.mem (groupPat g) c)
      (blockGroups s.operands.bitSeq) cs ∧ cs.length = 1 ∧ s.params.capCode = 1) ∧
    (blockGroups (withBit [1] 0).operands.bitSeq = [] ++ [1, 0, 0, 0, 0, 0, 0, 0, 0, 0] :: [] ∧
      NoCode (withBit [1] 0).operands.mem (groupPat [1, 0, 0, 0, 0, 0, 0, 0, 0, 0])) ∧
    (blockGroups zeros.operands.bitSeq = [List.replicate 10 0] ++ List.replicate 10 0 :: [] ∧
      (∀ x ∈ [List.replicate 10 (0 : Bit)], ¬ NoCode zeros.operands.mem (groupPat x)) ∧
      [List.replicate 10 (0 : Bit)].length = zeros.params.capCode) := by
  refine ⟨rfl, ⟨holding { build with capCode := 1 } (operandsOf [] [0] [] [] [] [] 0 [(2, ⟨true, 0⟩)]), rfl, [2],
    .cons (by decide) .nil, rfl, rfl⟩, ⟨by decide, noCode_withBit _ _ _⟩, by decide, fun x hx => ?_, by decide⟩
  rw [List.mem_singleton.mp hx]
  exact not_noCode_zeros

theorem witness_BlkdecConcatenatesPatterns :
    let s (n : Nat) (cs : List Code) :=
      holding { build with capBit := n } (operandsOf [] [] [] [] cs [] 0 [(1, ⟨true, 7⟩), (1023, ⟨true, 8⟩)])
    let entry (cs : List Code) (c : Code) := (s 10 cs).operands.mem.dictAt c.toNat
    (s 10 [1]).abortReq = false ∧ (∀ c ∈ (s 10 [1]).operands.codeSeq, (entry [1] c).valid = true) ∧
      10 * (s 10 [1]).operands.lenCode.toNat ≤ (s 10 [1]).params.capBit ∧
      (s 10 [1, 2]).operands.codeSeq = [1] ++ 2 :: [] ∧ (∀ x ∈ [1], (entry [1, 2] x).valid = true) ∧ 10 * 1 ≤ 10 ∧
      (entry [1, 2] 2).valid = false ∧ (s 10 [1, 1023]).operands.codeSeq = [1] ++ 1023 :: [] ∧
      (entry [1, 1023] 1023).valid = true ∧ 10 < 10 * (1 + 1) := by decide

/-- The machine that compresses one byte 0x00, with one code for a group of zeros. -/
def oneZero (capBit capPkb : Nat) : State :=
  holding { build with capBit := capBit, capCode := 1, capPkb := capPkb } (operandsOf [0] [] [] [] [] [] 0 [(2, ⟨true, 0⟩)])

/-- The same for two bytes, whose second group finds CODE full. -/
def twoZero : State :=
  holding { build with capBit := 16, capCode := 1 } (operandsOf [0, 0] [] [] [] [] [] 0 [(2, ⟨true, 0⟩)])

theorem witness_BcompIsSerBlkencPack :
    ((oneZero 7 2).abortReq = false ∧ (oneZero 7 2).params.capBit < 8 * (oneZero 7 2).operands.lenByt.toNat) ∧
    (8 * (oneZero 8 2).operands.lenByt.toNat ≤ (oneZero 8 2).params.capBit) ∧
    (List.Forall₂ (fun g c => IsLowestCode (oneZero 8 2).operands.mem (groupPat g) c)
      (blockGroups ((oneZero 8 2).operands.bytSeq.flatMap bitsOf)) [2] ∧ [2].length ≤ (oneZero 8 2).params.capCode ∧
      (10 * 1 + 7) / 8 ≤ (oneZero 8 2).params.capPkb) ∧
    (10 * 1 / 8 = (oneZero 8 1).params.capPkb ∧ 10 * 1 % 8 ≠ 0) ∧
    (0 < 1 ∧ 10 * 0 / 8 ≤ (oneZero 8 0).params.capPkb ∧ (oneZero 8 0).params.capPkb < 10 * (0 + 1) / 8) ∧
    (blockGroups ((withByt [0xFF]).operands.bytSeq.flatMap bitsOf) = [] ++ [1, 1, 1, 1, 1, 1, 1, 1, 0, 0] :: [] ∧
      NoCode (withByt [0xFF]).operands.mem (groupPat [1, 1, 1, 1, 1, 1, 1, 1, 0, 0])) ∧
    (blockGroups (twoZero.operands.bytSeq.flatMap bitsOf) = [List.replicate 10 0] ++ List.replicate 10 0 :: [] ∧
      8 * twoZero.operands.lenByt.toNat ≤ twoZero.params.capBit ∧ 1 = twoZero.params.capCode ∧
      IsLowestCode twoZero.operands.mem (groupPat (List.replicate 10 0)) 2) := by
  refine ⟨by decide, by decide, ⟨.cons (by decide) .nil, by decide⟩, by decide, by decide, ⟨by decide, ?_⟩, by decide⟩
  exact fun _ _ h => absurd h.1 Bool.false_ne_true

/-- The machine that expands the bytes `xs`, with a pattern for code 0 and for code 1023. -/
def expanding (capCode capBit capByt : Nat) (xs : List Byte) : State :=
  holding { build with capCode := capCode, capBit := capBit, capByt := capByt }
    (operandsOf [] [] [] [] [] xs 0 [(0, ⟨true, 7⟩), (1023, ⟨true, 8⟩)])

theorem witness_BdecompIsUnpackBlkdecDeser :
    let entry (s : State) (c : Code) := s.operands.mem.dictAt c.toNat
    ((expanding 1 10 1 [0, 0]).abortReq = false ∧ 8 * (expanding 1 10 1 [0, 0]).operands.lenPkb.toNat / 10 ≤ 1 ∧
      (∀ c ∈ unpackedCodes (expanding 1 10 1 [0, 0]).operands.pkbSeq, (entry (expanding 1 10 1 [0, 0]) c).valid = true) ∧
      10 * (unpackedCodes (expanding 1 10 1 [0, 0]).operands.pkbSeq).length ≤ 10 ∧ 10 * 1 / 8 ≤ 1) ∧
    (2 < (expanding 1 10 1 [0, 0, 0]).operands.lenPkb.toNat ∧ 8 * 2 / 10 ≤ 1 ∧ 1 < 8 * (2 + 1) / 10) ∧
    (unpackedCodes (expanding 1 10 1 [0, 64]).operands.pkbSeq = [] ++ 1 :: [] ∧
      (entry (expanding 1 10 1 [0, 64]) 1).valid = false) ∧
    (unpackedCodes (expanding 1 9 1 [0, 0]).operands.pkbSeq = [] ++ 0 :: [] ∧
      (entry (expanding 1 9 1 [0, 0]) 0).valid = true ∧ 10 * 0 ≤ 9 ∧ 9 < 10 * (0 + 1)) ∧
    ((expanding 2 20 1 [0, 0, 0]).params.capByt <
      10 * (unpackedCodes (expanding 2 20 1 [0, 0, 0]).operands.pkbSeq).length / 8) := by decide

/-! Laws over several commands -/

theorem witness_ValidAfterNormSucceeds : ∃ s t u, Inv s ∧ Runs .norm s t ∧ Runs .valid t u :=
  ⟨_, _, _, inv_withByt_two, runs_of_goes rfl (by decide), runs_of_goes (i := .valid) (by decide) (by decide)⟩
theorem witness_DeserAfterSerRestoresBytes : ∃ s t u, Inv s ∧ Runs .ser s t ∧ t.status = 2 ∧ Runs .deserTrunc t u :=
  ⟨_, _, _, inv_withByt_two, runs_of_goes rfl (by decide), by decide, runs_of_goes (i := .deserTrunc) (by decide) (by decide)⟩
theorem witness_PaddingIsUndoneByTrim : ∃ s t₁ t₂ t₃ u, Inv s ∧ Runs .ser s t₁ ∧ t₁.status = 2 ∧ Runs .pad10 t₁ t₂ ∧
    t₂.status = 2 ∧ Runs .trim t₂ t₃ ∧ Runs .deserTrunc t₃ u :=
  ⟨_, _, _, _, _, inv_withByt_two, runs_of_goes rfl (by decide), by decide, runs_of_goes (i := .pad10) (by decide) (by decide),
    by decide, runs_of_goes (i := .trim) (by decide) (by decide), runs_of_goes (i := .deserTrunc) (by decide) (by decide)⟩
theorem witness_A2bAfterB2aRestoresBits : ∃ s t u, Inv s ∧ Runs .b2a s t ∧ t.status = 2 ∧ Runs .a2b t u :=
  ⟨_, _, _, inv_withBit_short, runs_of_goes rfl (by decide), by decide, runs_of_goes (i := .a2b) (by decide) (by decide)⟩
theorem witness_SdecAfterSencRestoresSymbols : ∃ s t u, Inv s ∧ Runs .senc s t ∧ t.status = 2 ∧ Runs .sdec t u :=
  ⟨withSym [dot, spc, dot, dot], _, _, inv_holding (by decide) (by decide) (by decide) (fun b => by cases b <;> decide),
    runs_of_goes rfl (by decide), by decide, runs_of_goes (i := .sdec) (by decide) (by decide)⟩
theorem witness_UnpackAfterPackRestoresCodes :
    (∃ s t u, Inv s ∧ Runs .pack s t ∧ t.status = 2 ∧ Runs .unpack t u ∧ s.params.packTail = .msb) ∧
    (∃ s t u, Inv s ∧ Runs .pack s t ∧ t.status = 2 ∧ Runs .unpack t u ∧ s.params.packTail = .lsb ∧
      s.data.lenCode.toNat % 4 = 0) ∧
    ∃ s t u, Inv s ∧ Runs .pack s t ∧ t.status = 2 ∧ Runs .unpack t u ∧ s.params.packTail = .lsb ∧
      s.data.codeSeq = [1, 2] ++ [3] :=
  ⟨⟨withCode [683] [], _, _, inv_holding (by decide) (by decide) (by decide) (fun b => by cases b <;> decide),
      runs_of_goes rfl (by decide), by decide, runs_of_goes (i := .unpack) (by decide) (by decide), rfl⟩,
    ⟨holding buildLsb (operandsOf [] [] [] [] [1, 2, 3, 4] [] 0 []), _, _,
      inv_holding (by decide) (by decide) (by decide) (fun b => by cases b <;> decide),
      runs_of_goes rfl (by decide), by decide, runs_of_goes (i := .unpack) (by decide) (by decide), rfl, by decide⟩,
    ⟨holding buildLsb (operandsOf [] [] [] [] [1, 2, 3] [] 0 []), _, _,
      inv_holding (by decide) (by decide) (by decide) (fun b => by cases b <;> decide),
      runs_of_goes rfl (by decide), by decide, runs_of_goes (i := .unpack) (by decide) (by decide), rfl, by decide⟩⟩

/-- The identity dictionary, `DICT[c] = (V = 1, PAT = c)` (44_block_codec R171). -/
def identityDict : Cells DictEntry := cells ((List.range 1024).map fun c => ⟨true, BitVec.ofNat 10 c⟩)

theorem wf_identityDict : identityDict.Rising ∧ Cells.Below 1024 identityDict ∧ Cells.Never DictEntry.empty identityDict := by
  have h : identityDict = Cells.putPrefix ((List.range 1024).map fun c => ⟨true, BitVec.ofNat 10 c⟩) [] := by
    simp [identityDict, cells, Cells.putPrefix]
  refine ⟨h ▸ Cells.rising_putPrefix _ .nil, h ▸ Cells.below_putPrefix (by simp) (fun _ he => by cases he), fun e he => ?_⟩
  obtain ⟨f, hf, rfl⟩ := List.mem_map.mp he
  obtain ⟨-, -, hx⟩ := List.mem_zipIdx hf
  simp [hx]

theorem identityDict_entry (c : Code) : Cells.entry DictEntry.empty c.toNat identityDict = ⟨true, c⟩ := by
  have hc : c.toNat < 1024 := c.isLt
  unfold Cells.entry identityDict cells
  rw [Cells.find_zipIdx]
  simp [hc]

set_option maxRecDepth 10000 in
/-- Four bytes are four groups, the last with two of the bits, so that one byte 0x00 comes back with them. Under LSB: the
identity dictionary, and one byte whose group has the code 4, whose two low bits are 0. -/
theorem witness_BdecompAfterBcompRestoresBytes :
    (∃ s t u, Inv s ∧ Runs .bcomp s t ∧ t.status = 2 ∧ Runs .bdecomp t u ∧ u.errCode ≠ 3 ∧ s.params.packTail = .msb ∧
      s.data.lenByt.toNat % 5 = 4) ∧
    (∃ s t u, Inv s ∧ Runs .bcomp s t ∧ t.status = 2 ∧ Runs .bdecomp t u ∧ u.errCode ≠ 3 ∧ s.params.packTail = .lsb ∧
      (∀ c : Code, s.data.mem.dictAt c.toNat = ⟨true, c⟩) ∧ s.data.bytSeq = [0x01]) ∧
    ∃ s t u, Inv s ∧ Runs .bcomp s t ∧ t.status = 2 ∧ Runs .bdecomp t u ∧ u.errCode ≠ 3 ∧ s.params.packTail = .lsb ∧
      t.data.codeSeq.getLast? = some 4 ∧ 10 * t.data.lenCode.toNat % 8 = 2 :=
  ⟨⟨holding build (operandsOf [0, 0, 0, 0] [] [] [] [] [] 0 [(2, ⟨true, 0⟩)]), _, _,
      inv_holding (by decide) (by decide) (by decide) (fun b => by cases b <;> decide),
      runs_of_goes rfl (by decide), by decide, runs_of_goes (i := .bdecomp) (by decide) (by decide), by decide, rfl, by decide⟩,
    ⟨holding buildLsb (operandsOf [0x01] [] [] [] [] [] 0 identityDict), _, _,
      inv_holding (by decide)
        ⟨by decide, by decide, by decide, by decide, by decide, by decide, by decide, by decide, wf_identityDict⟩ (by decide)
        (fun b => by cases b <;> decide),
      runs_of_goes rfl (by decide), by decide, runs_of_goes (i := .bdecomp) (by decide) (by decide), by decide, rfl,
      identityDict_entry, by decide⟩,
    ⟨holding buildLsb (operandsOf [0] [] [] [] [] [] 0 [(4, ⟨true, 0⟩)]), _, _,
      inv_holding (by decide) (by decide) (by decide) (fun b => by cases b <;> decide),
      runs_of_goes rfl (by decide), by decide, runs_of_goes (i := .bdecomp) (by decide) (by decide), by decide, rfl, by decide,
      by decide⟩⟩
theorem witness_LoadStatementFillsTheBuffer : Inv (withByt [0x41, 0x0A]) ∧ (withByt [0x41, 0x0A]).engine = .idle ∧
    (withByt [0x41, 0x0A]).inbox = [] ∧ [1#32, 2, 3, 4, 5, 6, 7, 8].length ≤ (withByt [0x41, 0x0A]).params.cap .byt :=
  ⟨inv_withByt_two, by decide⟩
theorem witness_EveryStepKeepsTheInvariant : Inv (withByt [0x41, 0x0A]) ∧ ∃ t, step (withByt [0x41, 0x0A]) = .next t :=
  ⟨inv_withByt_two, _, rfl⟩
theorem witness_ResetSatisfiesTheInvariant : build.wf = true ∧ buildLsb.wf = true := by decide
/-- The host reads STATUS and writes LEN_BYT while NORM is in flight, with and without an abort requested. -/
theorem witness_BusyAccessesDoNotReachTheCommand :
    let as := [Access.read 4 4, .write 0x20 4 7]
    let aborting := { busyWith 1 with abortReq := true }
    (busyWith 1).params.baseOk = true ∧ (busyWith 1).engine = .busy 1 (Data.afterReset 0) ∧ (busyWith 1).abortReq = false ∧
      aborting.engine = .busy 1 (Data.afterReset 0) ∧ aborting.abortReq = true ∧
      ∀ a ∈ as, a.bytes = 4 ∧ a.addr % 4 = 0 ∧ ∀ b n v, a = .write b n v → b ≠ (busyWith 1).params.base + 8 := by
  refine ⟨by decide, by decide, by decide, by decide, rfl, fun a ha => ?_⟩
  rcases List.mem_cons.mp ha with rfl | ha
  · exact ⟨rfl, rfl, fun _ _ _ h => by cases h⟩
  · rw [List.mem_singleton.mp ha]
    exact ⟨rfl, rfl, fun _ _ _ h => by cases h; decide⟩
theorem witness_EveryCommandEnds :
    let s := { busyWith 1 with inbox := [.access (.read 4 4), .access (.write 0x08 4 1)] }
    s.engine = .busy 1 (Data.afterReset 0) ∧ ∀ a, .access a ∈ s.inbox → a.bytes = 4 ∧ a.addr % 4 = 0 := by
  refine ⟨rfl, fun a h => ?_⟩
  rcases List.mem_cons.mp h with h | h
  · cases h
    decide
  · cases List.mem_singleton.mp h
    decide

end Sys2Proof.Tests
end

section
/-! What lies at each place of the map, and what one step of the block can do (spec 20_memory, 60_exceptions). -/

namespace Sys2Proof.Machine

/-- A table location names an entry that the table has (10_state R31 to R33). -/
def Loc.InRange : Loc → Prop
  | .hist b => b < 256
  | .map b => b < 256
  | .dict c => c < 1024
  | .reg _ | .elem _ _ | .unmapped => True

/-- The map leads to no table entry past the end of its table (20_memory R50). -/
theorem locate_inRange (off : Nat) : (locate off).InRange := by
  unfold locate
  split
  · trivial
  · split
    · show (off - 0x1000) / 4 < 256
      omega
    · split
      · show (off - 0x2000) / 4 < 256
        omega
      · split
        · show (off - 0x4000) / 4 < 1024
          omega
        · split <;> trivial

/-- What a host access that is not refused leads to: one that misses the window does nothing, and an aligned word reads or
writes what lies at its offset (20_memory R51, R52). -/
theorem State.access_cases {s t : State} {a : Access} (h : s.access a = .next t) :
    (inWindow s.params a = false ∧ t = s) ∨
      a.wf = true ∧ ((∃ addr n, a = .read addr n ∧ t = s.hostRead (locate (addr - s.params.base))) ∨
        ∃ addr n v, a = .write addr n v ∧ t = s.hostWrite (locate (addr - s.params.base)) v) := by
  unfold State.access at h
  split at h
  · next hw =>
    cases h
    exact .inl ⟨by simpa using hw, rfl⟩
  · split at h
    · cases h
    · next hwidth =>
      split at h
      · cases h
      · next haligned =>
        refine .inr ⟨by simp_all [Access.wf], ?_⟩
        cases a with
        | read addr n =>
          cases h
          exact .inl ⟨addr, n, rfl, rfl⟩
        | write addr n v =>
          cases h
          exact .inr ⟨addr, n, v, rfl, rfl⟩

/-- Everything that one step can do: on its turn the engine waits, ends an illegal word or ends a command; else the host's
access, or the hardware reset (20_memory R63, 60_exceptions R225). -/
inductive StepTo (s t : State) : Prop
  | wait (he : s.nextEvent = .engine) (hf : s.fetch = .nothing) (ht : t = s.pop)
  | illegal (w : Word) (he : s.nextEvent = .engine) (hf : s.fetch = .illegal w) (ht : t = s.pop.endIllegal w)
  | command (i : Instr) (he : s.nextEvent = .engine) (hf : s.fetch = .command i)
      (ht : t = s.pop.finish (runOf i s.params s.operands))
  | access (a : Access) (he : s.nextEvent = .access a) (ht : s.pop.access a = .next t)
  | hardReset (he : s.nextEvent = .hardReset) (ht : t = s.pop.toReset)

theorem stepTo_of_step {s t : State} (h : step s = .next t) : StepTo s t := by
  cases he : s.nextEvent with
  | access a => exact .access a he (step_access he ▸ h)
  | hardReset =>
    rw [step_hardReset he] at h
    cases h
    exact .hardReset he rfl
  | engine =>
    cases hf : s.fetch with
    | nothing =>
      rw [step_engine_nothing he hf] at h
      cases h
      exact .wait he hf rfl
    | illegal w =>
      rw [step_engine_illegal he hf] at h
      cases h
      exact .illegal w he hf rfl
    | command i =>
      rw [step_engine_command he hf, exec_eq] at h
      cases h
      exact .command i he hf rfl

/-- A command is fetched only from a busy engine. -/
theorem State.busy_of_fetch_command {s : State} {i : Instr} (h : s.fetch = .command i) :
    ∃ w snapshot, s.engine = .busy w snapshot := by
  unfold State.fetch at h
  cases he : s.engine with
  | idle => simp [he] at h
  | busy w snapshot => exact ⟨w, snapshot, rfl⟩

end Sys2Proof.Machine
end

section
/-! What a command's pseudocode can stage: how many elements of each buffer, and what goes to its length register. -/

namespace Sys2Proof.Machine

/-- How many elements of each buffer are staged; `none` where the command does not write it. -/
def Staged.count (st : Staged) : Buf → Option Nat
  | .byt => st.byt.map List.length
  | .bit => st.bit.map List.length
  | .sym => st.sym.map List.length
  | .chr => st.chr.map List.length
  | .code => st.code.map List.length
  | .pkb => st.pkb.map List.length

/-- The count is the number of the staged elements. -/
theorem Staged.count_eq (st : Staged) (b : Buf) : st.count b = (st.elems b).map List.length := by
  cases b <;> simp [Staged.count, Staged.elems, Function.comp_def]

/-- What a command with operands `d` can do to one buffer and its length register (30_encoding R74, the writes column). -/
inductive BufStaged (p : Params) (d : Data) (st : Staged) (b : Buf) : Prop
  /-- Neither is written. -/
  | kept (hc : st.count b = none) (hl : st.lens b = none)
  /-- The buffer gets new contents, at most as many as fit, and their number becomes its length. -/
  | rewritten {n : Nat} (hc : st.count b = some n) (hl : st.lens b = some (BitVec.ofNat 32 n)) (hn : n ≤ p.cap b)
  /-- As many elements as are valid are replaced, and the length stays (NORM and REMAP). -/
  | replaced (hc : st.count b = some (d.len b).toNat) (hl : st.lens b = none)
  /-- Only the length is written, with a lesser one (TRIM). -/
  | shortened {v : Word} (hc : st.count b = none) (hl : st.lens b = some v) (hv : v.toNat ≤ (d.len b).toNat)

/-- The canonical form of HIST (`Memory.wf`). -/
abbrev Cells.HistOk (h : Cells Word) : Prop := h.Rising ∧ Cells.Below 256 h ∧ Cells.Never 0#32 h

/-- What a command with operands `d` can stage. -/
structure Staged.Legal (p : Params) (d : Data) (st : Staged) : Prop where
  buf : ∀ b, BufStaged p d st b
  hist : ∀ h, st.hist = some h → Cells.HistOk h

variable {p : Params} {d : Data} {st : Staged}

/-! ### Commands that rewrite one buffer -/

theorem legal_byt {xs : List Byte} (hx : xs.length ≤ p.capByt) (pc : Option Word) :
    Staged.Legal p d { byt := some xs, lenByt := some (BitVec.ofNat 32 xs.length), padCnt := pc } where
  buf
    | .byt => .rewritten rfl rfl hx
    | .bit | .sym | .chr | .code | .pkb => .kept rfl rfl
  hist := nofun

theorem legal_bit {xs : List Bit} (hx : xs.length ≤ p.capBit) (pc : Option Word) :
    Staged.Legal p d { bit := some xs, lenBit := some (BitVec.ofNat 32 xs.length), padCnt := pc } where
  buf
    | .bit => .rewritten rfl rfl hx
    | .byt | .sym | .chr | .code | .pkb => .kept rfl rfl
  hist := nofun

theorem legal_sym {xs : List Byte} (hx : xs.length ≤ p.capSym) (pc : Option Word) :
    Staged.Legal p d { sym := some xs, lenSym := some (BitVec.ofNat 32 xs.length), padCnt := pc } where
  buf
    | .sym => .rewritten rfl rfl hx
    | .byt | .bit | .chr | .code | .pkb => .kept rfl rfl
  hist := nofun

theorem legal_chr {xs : List Byte} (hx : xs.length ≤ p.capChr) :
    Staged.Legal p d { chr := some xs, lenChr := some (BitVec.ofNat 32 xs.length) } where
  buf
    | .chr => .rewritten rfl rfl hx
    | .byt | .bit | .sym | .code | .pkb => .kept rfl rfl
  hist := nofun

theorem legal_code {xs : List Code} (hx : xs.length ≤ p.capCode) (pc : Option Word) :
    Staged.Legal p d { code := some xs, lenCode := some (BitVec.ofNat 32 xs.length), padCnt := pc } where
  buf
    | .code => .rewritten rfl rfl hx
    | .byt | .bit | .sym | .chr | .pkb => .kept rfl rfl
  hist := nofun

theorem legal_pkb {xs : List Byte} (hx : xs.length ≤ p.capPkb) :
    Staged.Legal p d { pkb := some xs, lenPkb := some (BitVec.ofNat 32 xs.length) } where
  buf
    | .pkb => .rewritten rfl rfl hx
    | .byt | .bit | .sym | .chr | .code => .kept rfl rfl
  hist := nofun

/-! ### The loops stage no more than fits (60_exceptions R202) -/

variable {α β : Type}

/-- A loop whose every turn ends within the capacity ends within the capacity. -/
theorem forEach_length_le {body : Nat → α → List β → Except Raise (List β)} {n : Nat}
    (hb : ∀ k x out out', out.length ≤ n → body k x out = .ok out' → out'.length ≤ n) {xs : List α} {k : Nat}
    {out : List β} (h : forEach body k xs [] = .ok out) : out.length ≤ n :=
  forEach_inv (P := fun out => out.length ≤ n) hb (Nat.zero_le n) h

/-- A tokenization whose every action ends within the capacity ends within the capacity. -/
theorem tokenLoop_length_le {keys : List (List Byte)} {act : Nat → List Byte → List β → Except Raise (List β)} {n : Nat}
    (hb : ∀ k x out out', out.length ≤ n → act k x out = .ok out' → out'.length ≤ n) {s : List Byte} {k skip : Nat}
    {out : List β} (h : tokenLoop keys act k skip s [] = .ok out) : out.length ≤ n :=
  tokenLoop_inv (P := fun out => out.length ≤ n) hb (Nat.zero_le n) h

theorem serBits_length_le {bytes : List Byte} {bits : List Bit} (h : serBits p bytes = .ok bits) :
    bits.length ≤ p.capBit :=
  forEach_length_le (fun _ _ _ _ ho => emitAll_le ho) h

theorem deserBytes_length_le {bits : List Bit} {bytes : List Byte} (h : deserBytes p bits = .ok bytes) :
    bytes.length ≤ p.capByt :=
  forEach_length_le (fun _ _ _ _ _ => emit_le) h

theorem a2bChar_length_le {i : Nat} {c : Byte} {out out' : List Bit} (h : a2bChar p i c out = .ok out') :
    out'.length ≤ p.capBit := by
  unfold a2bChar at h
  split at h
  · exact emit_le h
  · split at h
    · exact emit_le h
    · cases h

theorem sdecChar_length_le {i : Nat} {ch : Byte} {out out' : List Byte} (ho : out.length ≤ p.capSym)
    (h : sdecChar p i ch out = .ok out') : out'.length ≤ p.capSym := by
  unfold sdecChar at h
  split at h
  · cases h
  · exact emitAll_le ho h

theorem blkencCodes_length_le {m : Memory} {bits : List Bit} {codes : List Code} (h : blkencCodes p m bits = .ok codes) :
    codes.length ≤ p.capCode := by
  refine forEach_length_le (fun j g out out' _ hg => ?_) h
  unfold blkencGroup at hg
  split at hg
  · cases hg
  · exact emit_le hg

theorem blkdecBits_length_le {m : Memory} {codes : List Code} {bits : List Bit} (h : blkdecBits p m codes = .ok bits) :
    bits.length ≤ p.capBit := by
  refine forEach_length_le (fun j c out out' ho hc => ?_) h
  unfold blkdecCode at hc
  split at hc
  · cases hc
  · exact emitAll_le ho hc

/-! ### PACK and UNPACK stage no more than fits (44_block_codec R172, R173) -/

theorem packDrain_length_le {pos fuel : Nat} {a a' : PackAcc} (ha : a.out.length ≤ p.capPkb)
    (h : packDrain p pos fuel a = .ok a') : a'.out.length ≤ p.capPkb := by
  induction fuel generalizing a with
  | zero =>
    cases h
    exact ha
  | succ fuel ih =>
    unfold packDrain at h
    split at h
    · split at h
      · next out ho => exact ih (emit_le (b := .pkb) ho) h
      · cases h
    · cases h
      exact ha

theorem packCode_length_le {j : Nat} {c : Code} {a a' : PackAcc} (ha : a.out.length ≤ p.capPkb)
    (h : packCode p j c a = .ok a') : a'.out.length ≤ p.capPkb := by
  unfold packCode at h
  split at h
  · next a₁ h₁ =>
    cases h
    have hout : a₁.out.length ≤ p.capPkb :=
      packDrain_length_le (a := ⟨a.acc * 2 ^ 10 + c.toNat, a.nb + 10, a.out⟩) ha h₁
    exact hout
  · cases h

theorem packTail_length_le {pos : Nat} {a : PackAcc} {bytes : List Byte} (ha : a.out.length ≤ p.capPkb)
    (h : packTail p pos a = .ok bytes) : bytes.length ≤ p.capPkb := by
  unfold packTail at h
  split at h
  · split at h
    · exact emit_le (b := .pkb) h
    · exact emit_le (b := .pkb) h
  · cases h
    exact ha

theorem packBytes_length_le {codes : List Code} {bytes : List Byte} (h : packBytes p codes = .ok bytes) :
    bytes.length ≤ p.capPkb := by
  unfold packBytes at h
  split at h
  · next a ha =>
    have hout : a.out.length ≤ p.capPkb :=
      forEach_inv (P := fun a : PackAcc => a.out.length ≤ p.capPkb) (fun _ _ _ _ => packCode_length_le) (Nat.zero_le _) ha
    exact packTail_length_le hout h
  · cases h

theorem unpackByte_length_le {i : Nat} {b : Byte} {a a' : UnpackAcc} (ha : a.out.length ≤ p.capCode)
    (h : unpackByte p i b a = .ok a') : a'.out.length ≤ p.capCode := by
  unfold unpackByte at h
  simp only at h
  split at h
  · split at h
    · next out ho =>
      cases h
      exact emit_le (b := .code) ho
    · cases h
  · cases h
    exact ha

theorem unpackCodes_length_le {bytes : List Byte} {codes : List Code} (h : unpackCodes p bytes = .ok codes) :
    codes.length ≤ p.capCode := by
  unfold unpackCodes at h
  split at h
  · next a ha =>
    cases h
    exact forEach_inv (P := fun a : UnpackAcc => a.out.length ≤ p.capCode) (fun _ _ _ _ => unpackByte_length_le)
      (Nat.zero_le _) ha
  · cases h

end Sys2Proof.Machine
end

section
/-! NORM: what its loop builds, and the histogram (spec 40_normalizer R103, 10_state R31). -/

namespace Sys2Proof.Machine

/-- The histogram of the substituted bytes of `xs`, counted on top of `h` (40_normalizer R103). -/
def histOf (h : Cells Word) : List Byte → Cells Word
  | [] => h
  | b :: xs => histOf (if printable b then h else countByte b h) xs

theorem printable_iff (b : Byte) : printable b = true ↔ Printable b := by simp [printable]

/-- The substitution leaves the printable band alone (40_normalizer R100). -/
theorem normSubst_of_printable (p : Params) {b : Byte} (h : printable b = true) : normSubst p b = b :=
  if_pos ((printable_iff b).mp h)

/-- One byte of NORM where it fits: its substitute is staged, and it is counted where it is substituted. -/
theorem normByte_ok {p : Params} {a : NormAcc} (h : a.out.length < p.capByt) (i : Nat) (b : Byte) :
    normByte p i b a =
      .ok ⟨a.out ++ [normSubst p b], a.conv + (if printable b then 0 else 1), histOf a.hist [b]⟩ := by
  unfold normByte
  by_cases hb : printable b = true
  · simp [hb, emit_ok (b := .byt) h, histOf, normSubst_of_printable p hb]
  · simp [hb, emit_ok (b := .byt) h, histOf]

/-- NORM's loop over bytes that fit (40_normalizer R103). -/
theorem forEach_normByte_ok {p : Params} {xs : List Byte} {a : NormAcc} (h : a.out.length + xs.length ≤ p.capByt)
    (k : Nat) :
    forEach (normByte p) k xs a =
      .ok ⟨a.out ++ xs.map (normSubst p), a.conv + xs.countP (fun b => !printable b), histOf a.hist xs⟩ := by
  induction xs generalizing a k with
  | nil => simp [histOf]
  | cons b rest ih =>
    simp only [List.length_cons] at h
    unfold forEach
    rw [normByte_ok (by omega)]
    simp only
    rw [ih (by simp only [List.length_append, List.length_singleton]; omega)]
    cases hb : printable b
    · simp [hb, histOf, Nat.add_assoc, Nat.add_comm 1]
    · simp [hb, histOf]

/-- What NORM stages where the valid elements fit (40_normalizer R103). -/
theorem normRun_ok {p : Params} {d : Data} (h : d.lenByt.toNat ≤ p.capByt) :
    normRun p d = .ok
      { byt := some (d.bytSeq.map (normSubst p)), totalBytes := some d.lenByt,
        convBytes := some (BitVec.ofNat 32 (d.bytSeq.countP fun b => !printable b)),
        hist := some (histOf [] d.bytSeq) } := by
  rw [normRun, forEach_normByte_ok (by simpa using h)]
  simp

/-- Counting a byte keeps the canonical form of HIST. -/
theorem histOk_countByte {h : Cells Word} (hh : Cells.HistOk h) (b : Byte) : Cells.HistOk (countByte b h) := by
  obtain ⟨h1, h2, h3⟩ := hh
  exact ⟨Cells.rising_setEntry _ _ _ h1, Cells.below_setEntry _ b.isLt _ h2, Cells.never_setEntry _ _ _ h3⟩

theorem histOk_histOf {h : Cells Word} (hh : Cells.HistOk h) (xs : List Byte) : Cells.HistOk (histOf h xs) := by
  induction xs generalizing h with
  | nil => exact hh
  | cons b rest ih =>
    refine ih ?_
    split
    · exact hh
    · exact histOk_countByte hh b

/-- The histogram counts each substituted byte, and no printable one (10_state R31). -/
theorem entry_histOf (h : Cells Word) (xs : List Byte) (b : Byte) :
    Cells.entry 0 b.toNat (histOf h xs) =
      Cells.entry 0 b.toNat h + BitVec.ofNat 32 (if Printable b then 0 else xs.count b) := by
  induction xs generalizing h with
  | nil => simp [histOf]
  | cons c rest ih =>
    rw [histOf, ih]
    by_cases hcb : c = b
    · subst hcb
      by_cases hp : printable c = true
      · rw [if_pos hp, if_pos ((printable_iff c).mp hp), if_pos ((printable_iff c).mp hp)]
      · have hp' : ¬ Printable c := fun h => hp ((printable_iff c).mpr h)
        rw [if_neg hp, if_neg hp', if_neg hp', countByte, Cells.entry_setEntry, if_pos rfl, List.count_cons_self,
          BitVec.ofNat_add, BitVec.add_assoc, BitVec.add_comm (BitVec.ofNat 32 _)]
        rfl
    · have hne : b.toNat ≠ c.toNat := fun e => hcb (BitVec.eq_of_toNat_eq e.symm)
      have hk : Cells.entry 0 b.toNat (if printable c then h else countByte c h) = Cells.entry 0 b.toNat h := by
        split
        · rfl
        · rw [countByte, Cells.entry_setEntry, if_neg hne]
      rw [hk, List.count_cons_of_ne hcb]

end Sys2Proof.Machine
end

section
/-! What each command stages is legal, the whole opcode map of spec 30_encoding R74. -/

namespace Sys2Proof.Machine

variable {p : Params} {d : Data} {st : Staged}

theorem normRun_legal (hd : d.lenByt.toNat ≤ p.capByt) (h : normRun p d = .ok st) : st.Legal p d := by
  rw [normRun_ok hd] at h
  cases h
  have hlen : (d.bytSeq.map (normSubst p)).length = d.lenByt.toNat := by simp
  exact {
    buf
      | .byt => .replaced (congrArg some hlen) rfl
      | .bit | .sym | .chr | .code | .pkb => .kept rfl rfl
    hist := fun _ e => by
      cases e
      exact histOk_histOf (by simp [Cells.HistOk, Cells.Rising, Cells.Below, Cells.Never]) _ }

theorem validRun_legal (h : validRun d = .ok st) : st.Legal p d := by
  unfold validRun at h
  split at h
  · cases h
    exact { buf := fun b => by cases b <;> exact .kept rfl rfl, hist := nofun }
  · cases h

/-- What REMAP stages where the valid elements fit (40_normalizer R105). -/
theorem remapRun_ok (hd : d.lenByt.toNat ≤ p.capByt) :
    remapRun p d = .ok { byt := some (d.bytSeq.map (remapByte d.mem)) } := by
  have hloop : forEach (fun i b out => emit p .byt i out (remapByte d.mem b)) 0 d.bytSeq [] =
      .ok ([] ++ d.bytSeq.map (remapByte d.mem)) :=
    forEach_emit_ok (pos := fun i => i) (by simpa [Params.cap] using hd) 0
  rw [remapRun, hloop, List.nil_append]

theorem remapRun_legal (hd : d.lenByt.toNat ≤ p.capByt) (h : remapRun p d = .ok st) : st.Legal p d := by
  rw [remapRun_ok hd] at h
  cases h
  have hlen : (d.bytSeq.map (remapByte d.mem)).length = d.lenByt.toNat := by simp
  exact {
    buf
      | .byt => .replaced (congrArg some hlen) rfl
      | .bit | .sym | .chr | .code | .pkb => .kept rfl rfl
    hist := nofun }

theorem serRun_legal (h : serRun p d = .ok st) : st.Legal p d := by
  unfold serRun at h
  split at h
  · next bits hb =>
    cases h
    exact legal_bit (serBits_length_le hb) none
  · cases h

theorem padRun_legal {w : Nat} (hd : d.lenBit.toNat ≤ p.capBit) (h : padRun w p d = .ok st) : st.Legal p d := by
  unfold padRun at h
  simp only at h
  split at h
  · next bits hb =>
    cases h
    exact legal_bit (emitAll_le (b := .bit) (d.bitSeq_length ▸ hd) hb) _
  · cases h

theorem deserTruncRun_legal (h : deserTruncRun p d = .ok st) : st.Legal p d := by
  unfold deserTruncRun at h
  split at h
  · next bytes hb =>
    cases h
    exact legal_byt (deserBytes_length_le hb) none
  · cases h

theorem deserPadbRun_legal (h : deserPadbRun p d = .ok st) : st.Legal p d := by
  unfold deserPadbRun at h
  simp only at h
  split at h
  · next bytes hb =>
    cases h
    exact legal_byt (deserBytes_length_le hb) _
  · cases h

theorem trimRun_legal (h : trimRun d = .ok st) : st.Legal p d := by
  unfold trimRun at h
  split at h
  · cases h
  · next hle =>
    cases h
    have hsub : (d.lenBit - d.padCnt).toNat ≤ d.lenBit.toNat := by
      rw [BitVec.toNat_sub_of_le (BitVec.le_def.mpr (by omega))]
      exact Nat.sub_le _ _
    exact {
      buf
        | .bit => .shortened rfl rfl hsub
        | .byt | .sym | .chr | .code | .pkb => .kept rfl rfl
      hist := nofun }

theorem a2bRun_legal (h : a2bRun p d = .ok st) : st.Legal p d := by
  unfold a2bRun at h
  split at h
  · next bits hb =>
    cases h
    exact legal_bit (forEach_length_le (fun _ _ _ _ _ => a2bChar_length_le) hb) none
  · cases h

theorem b2aRun_legal (h : b2aRun p d = .ok st) : st.Legal p d := by
  unfold b2aRun at h
  split at h
  · next bytes hb =>
    cases h
    exact legal_byt (forEach_length_le (fun _ _ _ _ _ => emit_le (b := .byt)) hb) none
  · cases h

theorem cencRun_legal (h : cencRun p d = .ok st) : st.Legal p d := by
  unfold cencRun at h
  simp only at h
  split at h
  · next out ho =>
    cases h
    exact legal_sym (forEach_length_le (fun _ _ _ _ hs => emitAll_le (b := .sym) hs) ho) _
  · cases h

theorem cdecRun_legal (h : cdecRun p d = .ok st) : st.Legal p d := by
  unfold cdecRun at h
  split at h
  · next out ho =>
    cases h
    exact legal_bit (tokenLoop_length_le (fun _ _ _ _ hs => emitAll_le (b := .bit) hs) ho) none
  · cases h

theorem sencRun_legal (h : sencRun p d = .ok st) : st.Legal p d := by
  unfold sencRun at h
  split at h
  · next out ho =>
    cases h
    exact legal_chr (tokenLoop_length_le (fun _ _ _ _ _ => emit_le (b := .chr)) ho)
  · cases h

theorem sdecRun_legal (h : sdecRun p d = .ok st) : st.Legal p d := by
  unfold sdecRun at h
  split at h
  · next out ho =>
    cases h
    exact legal_sym (forEach_length_le (fun _ _ _ _ => sdecChar_length_le) ho) none
  · cases h

theorem packRun_legal (h : packRun p d = .ok st) : st.Legal p d := by
  unfold packRun at h
  split at h
  · next bytes hb =>
    cases h
    exact legal_pkb (packBytes_length_le hb)
  · cases h

theorem unpackRun_legal (h : unpackRun p d = .ok st) : st.Legal p d := by
  unfold unpackRun at h
  split at h
  · next codes hc =>
    cases h
    exact legal_code (unpackCodes_length_le hc) none
  · cases h

theorem blkencRun_legal (h : blkencRun p d = .ok st) : st.Legal p d := by
  unfold blkencRun at h
  split at h
  · next codes hc =>
    cases h
    exact legal_code (blkencCodes_length_le hc) _
  · cases h

theorem blkdecRun_legal (h : blkdecRun p d = .ok st) : st.Legal p d := by
  unfold blkdecRun at h
  split at h
  · next bits hb =>
    cases h
    exact legal_bit (blkdecBits_length_le hb) none
  · cases h

theorem bcompRun_legal (h : bcompRun p d = .ok st) : st.Legal p d := by
  unfold bcompRun at h
  split at h
  · cases h
  · next bits hbits =>
    split at h
    · cases h
    · next codes hcodes =>
      split at h
      · cases h
      · next bytes hbytes =>
        cases h
        exact {
          buf
            | .bit => .rewritten rfl rfl (serBits_length_le hbits)
            | .code => .rewritten rfl rfl (blkencCodes_length_le hcodes)
            | .pkb => .rewritten rfl rfl (packBytes_length_le hbytes)
            | .byt | .sym | .chr => .kept rfl rfl
          hist := nofun }

theorem bdecompRun_legal (h : bdecompRun p d = .ok st) : st.Legal p d := by
  unfold bdecompRun at h
  split at h
  · cases h
  · next codes hcodes =>
    split at h
    · cases h
    · next bits hbits =>
      split at h
      · cases h
      · next bytes hbytes =>
        cases h
        exact {
          buf
            | .code => .rewritten rfl rfl (unpackCodes_length_le hcodes)
            | .bit => .rewritten rfl rfl (blkdecBits_length_le hbits)
            | .byt => .rewritten rfl rfl (deserBytes_length_le hbytes)
            | .sym | .chr | .pkb => .kept rfl rfl
          hist := nofun }

/-- Where no length exceeds its capacity, every command stages what is legal. -/
theorem runOf_legal {i : Instr} (hd : ∀ b, (d.len b).toNat ≤ p.cap b) (h : runOf i p d = .ok st) : st.Legal p d := by
  cases i with
  | norm => exact normRun_legal (hd .byt) h
  | valid => exact validRun_legal h
  | remap => exact remapRun_legal (hd .byt) h
  | ser => exact serRun_legal h
  | deserTrunc => exact deserTruncRun_legal h
  | deserPadb => exact deserPadbRun_legal h
  | pad8 => exact padRun_legal (hd .bit) h
  | pad5 => exact padRun_legal (hd .bit) h
  | pad10 => exact padRun_legal (hd .bit) h
  | trim => exact trimRun_legal h
  | a2b => exact a2bRun_legal h
  | b2a => exact b2aRun_legal h
  | cenc => exact cencRun_legal h
  | cdec => exact cdecRun_legal h
  | senc => exact sencRun_legal h
  | sdec => exact sdecRun_legal h
  | pack => exact packRun_legal h
  | unpack => exact unpackRun_legal h
  | blkenc => exact blkencRun_legal h
  | blkdec => exact blkdecRun_legal h
  | bcomp => exact bcompRun_legal h
  | bdecomp => exact bdecompRun_legal h

end Sys2Proof.Machine
end

section
/-! What a legal commit leaves: lengths and listed elements within the capacities, and the new lengths cover what was
written. -/

namespace Sys2Proof.Machine

variable {p : Params} {d : Data} {st : Staged}

@[simp] theorem Data.commit_len (d : Data) (st : Staged) (b : Buf) :
    (d.commit st).len b = (st.lens b).getD (d.len b) := by
  cases b <;> rfl

/-- Every capacity of a build that meets the constraints is at most 2^22 (00_scope R6). -/
theorem Params.cap_le (hp : p.wf = true) (b : Buf) : p.cap b ≤ 2 ^ 22 := by
  simp only [Params.wf, Params.capsOk, Bool.and_eq_true, List.all_cons, List.all_nil, decide_eq_true_eq] at hp
  obtain ⟨⟨⟨⟨⟨⟨-, h1⟩, ⟨-, h2⟩, ⟨-, h3⟩, ⟨-, h4⟩, ⟨-, h5⟩, ⟨-, h6⟩, -⟩, -⟩, -⟩, -⟩, -⟩ := hp
  cases b <;> assumption

/-- After a legal commit no length exceeds its capacity (10_state R26). -/
theorem Staged.Legal.len_le (hl : st.Legal p d) (hd : ∀ b, (d.len b).toNat ≤ p.cap b) (b : Buf) :
    ((d.commit st).len b).toNat ≤ p.cap b := by
  rw [Data.commit_len]
  cases hl.buf b with
  | kept _ hlen => simpa [hlen] using hd b
  | rewritten _ hlen hn => simpa [hlen] using Nat.le_trans (Nat.mod_le _ _) hn
  | replaced _ hlen => simpa [hlen] using hd b
  | shortened _ hlen hv => simpa [hlen] using Nat.le_trans hv (hd b)

/-- No more elements are staged than fit (60_exceptions R202). -/
theorem Staged.Legal.count_le_cap (hl : st.Legal p d) (hd : ∀ b, (d.len b).toNat ≤ p.cap b) {b : Buf} {n : Nat}
    (hn : st.count b = some n) : n ≤ p.cap b := by
  cases hl.buf b with
  | kept hc _ => simp [hc] at hn
  | rewritten hc _ hle =>
    rw [hc] at hn
    cases hn
    exact hle
  | replaced hc _ =>
    rw [hc] at hn
    cases hn
    exact hd b
  | shortened hc _ _ => simp [hc] at hn

/-- No more elements are staged than the new length counts (10_state R30). -/
theorem Staged.Legal.count_le_len (hp : p.wf = true) (hl : st.Legal p d) {b : Buf} {n : Nat} (hn : st.count b = some n) :
    n ≤ ((d.commit st).len b).toNat := by
  rw [Data.commit_len]
  cases hl.buf b with
  | kept hc _ => simp [hc] at hn
  | rewritten hc hlen hle =>
    rw [hc] at hn
    cases hn
    have hcap := Params.cap_le hp b
    simp only [hlen, Option.getD_some, BitVec.toNat_ofNat]
    omega
  | replaced hc hlen =>
    rw [hc] at hn
    cases hn
    simp [hlen]
  | shortened hc _ _ => simp [hc] at hn

theorem Cells.below_commit {α : Type} {n : Nat} {c : Cells α} (h : Cells.Below n c) {staged : Option (List α)}
    (hs : ∀ xs, staged = some xs → xs.length ≤ n) : Cells.Below n (Cells.commit staged c) := by
  cases staged with
  | none => exact h
  | some xs => exact Cells.below_putPrefix (hs xs rfl) h

/-- A commit that stages no more elements than fit lists none past a capacity (10_state R30). -/
theorem Memory.within_commit {m : Memory} (h : m.Within p) (hc : ∀ {b : Buf} {n : Nat}, st.count b = some n → n ≤ p.cap b) :
    (m.commit st).Within p := by
  obtain ⟨hbyt, hbit, hsym, hchr, hcode, hpkb⟩ := h
  exact ⟨Cells.below_commit hbyt fun _ e => hc (b := .byt) (congrArg (Option.map _) e),
    Cells.below_commit hbit fun _ e => hc (b := .bit) (congrArg (Option.map _) e),
    Cells.below_commit hsym fun _ e => hc (b := .sym) (congrArg (Option.map _) e),
    Cells.below_commit hchr fun _ e => hc (b := .chr) (congrArg (Option.map _) e),
    Cells.below_commit hcode fun _ e => hc (b := .code) (congrArg (Option.map _) e),
    Cells.below_commit hpkb fun _ e => hc (b := .pkb) (congrArg (Option.map _) e)⟩

/-- A legal commit leaves the elements at and past the new length alone (10_state R30). -/
theorem Staged.Legal.elem_commit_of_len_le (hp : p.wf = true) (hl : st.Legal p d) {b : Buf} {j : Nat}
    (hj : ((d.commit st).len b).toNat ≤ j) : (d.commit st).mem.elem b j = d.mem.elem b j := by
  rw [Data.commit_mem, Memory.elem_commit]
  cases he : st.elems b with
  | none => simp
  | some ws =>
    have hcount : st.count b = some ws.length := by rw [Staged.count_eq, he, Option.map_some]
    have hw := hl.count_le_len hp hcount
    rw [Option.getD_some, List.getD_eq_default _ _ (by omega)]

end Sys2Proof.Machine
end

section
/-! The invariant: what each operation of the block keeps of it (spec 10_state). -/

namespace Sys2Proof.Machine

variable {s : State}

/-! ### Operations that leave the block's registers and memory alone -/

theorem Inv.pop (h : Inv s) : Inv s.pop := ⟨h.params, h.mem, h.within, h.len, h.engine, h.errors⟩

theorem Inv.draw (h : Inv s) : Inv s.draw := ⟨h.params, h.mem, h.within, h.len, h.engine, h.errors⟩

theorem Inv.reply (h : Inv s) (v : Word) : Inv (s.reply v) := ⟨h.params, h.mem, h.within, h.len, h.engine, h.errors⟩

theorem Inv.hostRead (h : Inv s) (l : Loc) : Inv (s.hostRead l) := by
  unfold State.hostRead
  split
  · exact h.draw.reply _
  · exact h.reply _

/-- The operands of a command are the committed data (10_state R38). -/
theorem Inv.operands_eq (h : Inv s) : s.operands = s.data := by
  have he := h.engine
  unfold State.engineOk at he
  unfold State.operands
  cases hs : s.engine with
  | idle => rfl
  | busy w snapshot =>
    rw [hs] at he
    exact he.2.2

/-- While the engine is busy STATUS reads 1 (10_state R23). -/
theorem Inv.status_of_busy (h : Inv s) {w : Word} {snapshot : Data} (hb : s.engine = .busy w snapshot) : s.status = 1 := by
  have he := h.engine
  unfold State.engineOk at he
  rw [hb] at he
  exact he.1

/-! ### Resets -/

theorem Memory.within_afterReset (p : Params) (epoch : Nat) : (Memory.afterReset epoch).Within p := by
  simp [Memory.afterReset, Memory.Within, Cells.Below]

theorem Data.len_afterReset (epoch : Nat) (b : Buf) : (Data.afterReset epoch).len b = 0 := by
  cases b <;> rfl

/-- A block right after a reset, whatever the model's own fields hold (log 8, log 14). -/
def State.afterReset (p : Params) (epoch : Nat) (inbox : List Event) (replies : List Word) (draws : Nat) : State :=
  { State.resetWith p with data := Data.afterReset epoch, inbox := inbox, replies := replies, draws := draws }

theorem State.resetWith_eq (p : Params) : State.resetWith p = State.afterReset p 0 [] [] 0 := rfl

theorem State.toReset_eq (s : State) :
    s.toReset = State.afterReset s.params (s.data.mem.epoch + 1) s.inbox s.replies s.draws := rfl

theorem inv_afterReset {p : Params} (hp : p.wf = true) (epoch : Nat) (inbox : List Event) (replies : List Word)
    (draws : Nat) : Inv (State.afterReset p epoch inbox replies draws) where
  params := hp
  mem := Memory.wf_afterReset _
  within := Memory.within_afterReset _ _
  len := fun b => by simp [State.afterReset, Data.len_afterReset]
  engine := ⟨rfl, .inl rfl⟩
  errors := ⟨fun h => absurd h (by decide : (0 : Word) ≠ 6), fun _ => ⟨rfl, rfl, rfl⟩⟩

/-- Both resets lead to a state of the invariant, whatever the state was but its build (10_state R40). -/
theorem Inv.toReset (hp : s.params.wf = true) : Inv s.toReset := s.toReset_eq ▸ inv_afterReset hp ..

theorem inv_resetWith {p : Params} (hp : p.wf = true) : Inv (State.resetWith p) :=
  State.resetWith_eq p ▸ inv_afterReset hp ..

/-! ### Issue and end of a command -/

theorem Inv.issue (h : Inv s) (w : Word) : Inv (s.issue w) where
  params := h.params
  mem := h.mem
  within := h.within
  len := h.len
  engine := ⟨rfl, rfl, rfl⟩
  errors := ⟨fun h6 => absurd h6 (by decide : statusWord true false false ≠ 6), fun _ => ⟨rfl, rfl, rfl⟩⟩

/-- The error codes of 60_exceptions R200 are 1 to 6. -/
theorem errCodeNumber_range (c : ErrCode) : 1 ≤ errCodeNumber c ∧ errCodeNumber c ≤ 6 := by
  cases c <;> decide

theorem Inv.endErr (h : Inv s) (e : Raise) : Inv (s.endErr e) where
  params := h.params
  mem := h.mem
  within := h.within
  len := h.len
  engine := ⟨rfl, .inr (.inr rfl)⟩
  errors := by
    have hr := errCodeNumber_range e.code
    refine ⟨fun _ => ?_, fun h6 => absurd rfl h6⟩
    rw [State.endErr_errCode, BitVec.toNat_ofNat]
    omega

/-- The normal end of a command that was running, with a legal commit. -/
theorem Inv.endOk (h : Inv s) (hs : s.status ≠ 6) {st : Staged} (hl : st.Legal s.params s.data) : Inv (s.endOk st) where
  params := h.params
  mem := Memory.wf_commit h.mem hl.hist
  within := Memory.within_commit h.within (hl.count_le_cap h.len)
  len := hl.len_le h.len
  engine := ⟨rfl, .inr (.inl rfl)⟩
  errors := ⟨fun h6 => absurd h6 (by decide : statusWord false true false ≠ 6), fun _ => h.errors.2 hs⟩

/-- However a command that was running ends, aborted or not. -/
theorem Inv.finish (h : Inv s) (hs : s.status ≠ 6) {r : Except Raise Staged}
    (hr : ∀ st, r = .ok st → st.Legal s.params s.data) : Inv (s.finish r) := by
  obtain ⟨u, hu, e, -, heq⟩ | ⟨u, hu, st, hst, heq⟩ := State.finish_cases s r
  · rw [heq]
    obtain rfl | rfl := hu
    · exact h.endErr e
    · exact h.draw.endErr e
  · rw [heq]
    obtain rfl | rfl := hu
    · exact h.endOk hs (hr st hst)
    · exact h.draw.endOk hs (hr st hst)

/-! ### Host writes -/

/-- New data on an idle block. -/
theorem Inv.withData (h : Inv s) (hi : s.engine = .idle) {d : Data} (hm : d.mem.wf) (hw : d.mem.Within s.params)
    (hl : ∀ b, (d.len b).toNat ≤ s.params.cap b) : Inv { s with data := d } where
  params := h.params
  mem := hm
  within := hw
  len := hl
  engine := by
    have he := h.engine
    simp only [State.engineOk, hi] at he ⊢
    exact he
  errors := h.errors

/-- What a host write stores in a length register (10_state R26). -/
theorem clampLen_toNat (cap : Nat) (v : Word) : (clampLen cap v).toNat = min v.toNat cap := by
  have := v.isLt
  rw [clampLen, BitVec.toNat_ofNat, Nat.mod_eq_of_lt (by omega)]

/-- A host write to an element that exists lists none past a capacity (10_state R30). -/
theorem Memory.within_setElem {p : Params} {m : Memory} (h : m.Within p) {b : Buf} {i : Nat} (hi : i < p.cap b) (v : Word) :
    (m.setElem b i v).Within p := by
  obtain ⟨hbyt, hbit, hsym, hchr, hcode, hpkb⟩ := h
  cases b with
  | byt => exact ⟨Cells.below_put hi _ hbyt, hbit, hsym, hchr, hcode, hpkb⟩
  | bit => exact ⟨hbyt, Cells.below_put hi _ hbit, hsym, hchr, hcode, hpkb⟩
  | sym => exact ⟨hbyt, hbit, Cells.below_put hi _ hsym, hchr, hcode, hpkb⟩
  | chr => exact ⟨hbyt, hbit, hsym, Cells.below_put hi _ hchr, hcode, hpkb⟩
  | code => exact ⟨hbyt, hbit, hsym, hchr, Cells.below_put hi _ hcode, hpkb⟩
  | pkb => exact ⟨hbyt, hbit, hsym, hchr, hcode, Cells.below_put hi _ hpkb⟩

@[simp] theorem Data.len_withPadCnt (d : Data) (v : Word) (b : Buf) : ({ d with padCnt := v } : Data).len b = d.len b := by
  cases b <;> rfl

theorem Inv.writeIdle (h : Inv s) (hi : s.engine = .idle) {l : Loc} (hl : l.InRange) (v : Word) : Inv (s.writeIdle l v) := by
  cases l with
  | reg r =>
    cases r with
    | cmd => exact h.issue v
    | len b =>
      refine h.withData hi (by simpa using h.mem) (by simpa using h.within) fun c => ?_
      rw [Data.len_setLen]
      split
      · next hcb =>
        rw [clampLen_toNat, hcb]
        exact Nat.min_le_right _ _
      · exact h.len c
    | padCnt =>
      refine h.withData hi h.mem h.within fun b => ?_
      rw [Data.len_withPadCnt]
      exact h.len b
    | status | ctrl | errCode | errPos | errVal | totalBytes | convBytes | cap b => exact h
  | map b => exact h.withData hi (Memory.wf_setMap h.mem hl _) h.within h.len
  | dict c => exact h.withData hi (Memory.wf_setDict h.mem hl _) h.within h.len
  | elem b i =>
    unfold State.writeIdle
    simp only
    split
    · next hib => exact h.withData hi (Memory.wf_setElem h.mem b i v) (Memory.within_setElem h.within hib v) h.len
    · exact h
  | hist b | unmapped => exact h

theorem Inv.writeCtrl (h : Inv s) (v : Word) : Inv (s.writeCtrl v) := by
  unfold State.writeCtrl
  split
  · exact Inv.toReset h.params
  · split
    · next w snapshot hb =>
      split
      · have he := h.engine
        refine ⟨h.params, h.mem, h.within, h.len, ?_, h.errors⟩
        simp only [State.engineOk, hb] at he ⊢
        exact he
      · exact h
    · exact h

theorem Inv.hostWrite (h : Inv s) {l : Loc} (hl : l.InRange) (v : Word) : Inv (s.hostWrite l v) := by
  unfold State.hostWrite
  split
  · exact h.writeCtrl v
  · split
    · exact h
    · next hi => exact h.writeIdle hi hl v

/-- The end of the command in flight. -/
theorem Inv.command (h : Inv s) {i : Instr} (hf : s.fetch = .command i) :
    Inv (s.pop.finish (runOf i s.params s.operands)) := by
  obtain ⟨w, snapshot, hb⟩ := State.busy_of_fetch_command hf
  have hs : s.pop.status ≠ 6 := by
    rw [State.pop_status, h.status_of_busy hb]
    decide
  refine h.pop.finish hs fun st hst => ?_
  rw [h.operands_eq] at hst
  exact runOf_legal h.len hst

/-- A host access that is not refused. -/
theorem Inv.access (h : Inv s) {t : State} {a : Access} (ha : s.access a = .next t) : Inv t := by
  obtain ⟨-, rfl⟩ | ⟨-, ⟨addr, n, -, rfl⟩ | ⟨addr, n, v, -, rfl⟩⟩ := State.access_cases ha
  · exact h
  · exact h.hostRead _
  · exact h.hostWrite (locate_inRange _) v

/-- Settles O58, by what one step can do (`StepTo`): each operation of the block keeps the invariant. -/
theorem everyStepKeepsTheInvariant : Obligations.EveryStepKeepsTheInvariant := by
  intro s t h hstep
  cases stepTo_of_step hstep with
  | wait _ _ ht => exact ht ▸ h.pop
  | illegal w _ _ ht => exact ht ▸ h.pop.endErr _
  | command i _ hf ht => exact ht ▸ h.command hf
  | access a _ ht => exact h.pop.access ht
  | hardReset _ ht => exact ht ▸ Inv.toReset h.params

/-- Settles O57. -/
theorem resetSatisfiesTheInvariant : Obligations.ResetSatisfiesTheInvariant :=
  ⟨inv_resetWith Config.params_wf, fun _ => inv_resetWith⟩

/-- Settles O20: a command ends with the data as they were, or with a legal commit. -/
theorem elementsPastTheLengthKeepTheirValue : Obligations.ElementsPastTheLengthKeepTheirValue := by
  intro i s t h hexec b j hj
  rw [exec_eq, h.operands_eq] at hexec
  obtain ⟨u, hu, e, -, heq⟩ | ⟨u, hu, st, hst, heq⟩ := State.finish_cases s (runOf i s.params s.data)
  all_goals
    rw [heq] at hexec
    cases hexec
    have hdata : u.data = s.data := by obtain rfl | rfl := hu <;> rfl
  · rw [State.endErr_data, hdata]
  · rw [State.endOk_data, hdata] at hj ⊢
    exact (runOf_legal h.len hst).elem_commit_of_len_le h.params hj

end Sys2Proof.Machine
end

section
/-! Host writes to CTRL and to the length registers, and the resets (spec 10_state R24, R26, R27, R40). -/

namespace Sys2Proof.Machine

variable {s : State}

/-- A host write to CTRL (10_state R24). -/
theorem step_withWrite_ctrl (hb : s.params.baseOk = true) (v : Word) : step (s.withWrite 8 v) = .next (s.writeCtrl v) := by
  rw [step_withWrite hb (by decide), locate_eq_ctrl.mpr rfl, State.hostWrite, if_pos rfl]

theorem State.writeCtrl_of_srst {v : Word} (h : v.getLsbD 1 = true) : s.writeCtrl v = s.toReset := by
  rw [State.writeCtrl, if_pos h]

theorem State.writeCtrl_of_idle {v : Word} (h : v.getLsbD 1 = false) (hi : s.engine = .idle) : s.writeCtrl v = s := by
  simp only [State.writeCtrl, h, hi, Bool.false_eq_true, if_false]

theorem State.writeCtrl_of_busy {v : Word} (h : v.getLsbD 1 = false) {w : Word} {snapshot : Data}
    (hb : s.engine = .busy w snapshot) :
    s.writeCtrl v = if v.getLsbD 0 then { s with abortReq := true } else s := by
  simp only [State.writeCtrl, h, hb, Bool.false_eq_true, if_false]

/-- Settles O16. -/
theorem ctrlAbortSetsTheRequestWhileBusy : Obligations.CtrlAbortSetsTheRequestWhileBusy := by
  intro s v hb hsrst
  rw [step_withWrite_ctrl hb]
  refine ⟨fun habort => ?_, fun hi => ?_, fun w snapshot hbusy habort => ?_⟩
  · cases he : s.engine with
    | idle => rw [State.writeCtrl_of_idle hsrst he]
    | busy w snapshot =>
      rw [State.writeCtrl_of_busy hsrst he, habort]
      rfl
  · rw [State.writeCtrl_of_idle hsrst hi]
  · rw [State.writeCtrl_of_busy hsrst hbusy, if_pos habort]

/-- Every register and table at its reset value (10_state R40). -/
theorem atReset_afterReset (p : Params) (epoch : Nat) (inbox : List Event) (replies : List Word) (draws : Nat) :
    AtReset (State.afterReset p epoch inbox replies draws) where
  cmd := rfl
  status := rfl
  errCode := rfl
  errPos := rfl
  errVal := rfl
  len := Data.len_afterReset epoch
  padCnt := rfl
  totalBytes := rfl
  convBytes := rfl
  hist := fun _ => rfl
  map := fun _ => rfl
  dict := fun _ => rfl
  engine := rfl
  abortReq := rfl

theorem atReset_resetWith (p : Params) : AtReset (State.resetWith p) :=
  State.resetWith_eq p ▸ atReset_afterReset ..

theorem State.atReset_toReset (s : State) : AtReset s.toReset := s.toReset_eq ▸ atReset_afterReset ..

/-- Settles O17: both resets are `State.toReset`. -/
theorem resetsPutEverythingAtItsResetValue : Obligations.ResetsPutEverythingAtItsResetValue := by
  refine ⟨atReset_resetWith _, atReset_resetWith, fun s => ⟨⟨s.toReset, ?_, s.atReset_toReset, rfl, rfl, rfl, fun _ => rfl⟩,
    fun v hb hsrst => ⟨s.toReset, ?_, s.atReset_toReset, rfl, rfl, rfl⟩⟩⟩
  · rw [step_hardReset (s := s.withEvent .hardReset) rfl, State.withEvent_pop]
  · rw [step_withWrite_ctrl hb, State.writeCtrl_of_srst hsrst]

theorem wordOffset_lenOffset (b : Buf) : WordOffset (lenOffset b) := by
  cases b <;> decide

/-- A host write to a length register of the idle block (10_state R26). -/
theorem step_withWrite_len (hb : s.params.baseOk = true) (hi : s.engine = .idle) (b : Buf) (v : Word) :
    step (s.withWrite (lenOffset b) v) =
      .next { s with data := s.data.setLen b (clampLen (s.params.cap b) v) } := by
  rw [step_withWrite hb (wordOffset_lenOffset b), locate_len, State.hostWrite_of_idle hi (by simp)]
  rfl

/-- A host read of a length register of the idle block (20_memory R53). -/
theorem step_withRead_len (hb : s.params.baseOk = true) (hi : s.engine = .idle) (b : Buf) :
    step (s.withRead (lenOffset b)) = .next { s with replies := s.replies ++ [s.data.len b] } := by
  rw [step_withRead hb (wordOffset_lenOffset b), locate_len, State.hostRead_of_idle hi]
  rfl

/-- A host write to PAD_CNT of the idle block (10_state R27). -/
theorem step_withWrite_padCnt (hb : s.params.baseOk = true) (hi : s.engine = .idle) (v : Word) :
    step (s.withWrite 0x38 v) = .next { s with data := { s.data with padCnt := v } } := by
  rw [step_withWrite hb (by decide), locate_reg (0x38, .padCnt) (by decide), State.hostWrite_of_idle hi (by simp)]
  rfl

theorem Params.baseOk_of_wf {p : Params} (hp : p.wf = true) : p.baseOk = true := by
  rw [Params.wf, Bool.and_eq_true] at hp
  exact hp.2

/-- Settles O12. -/
theorem lengthWritesAreClamped : Obligations.LengthWritesAreClamped := by
  refine ⟨fun s v hp hi => ⟨fun b => ?_, step_withWrite_padCnt (Params.baseOk_of_wf hp) hi v⟩, Data.len_afterReset 0, rfl⟩
  have hb := Params.baseOk_of_wf hp
  refine ⟨_, step_withWrite_len hb hi b v, ?_, fun c hc => ?_, rfl, Data.setLen_padCnt .., Data.setLen_totalBytes ..,
    Data.setLen_convBytes .., Data.setLen_mem .., ?_⟩
  · rw [Data.len_setLen, if_pos rfl, clampLen_toNat]
  · rw [Data.len_setLen, if_neg hc]
  · exact step_withRead_len (s := { s with data := s.data.setLen b (clampLen (s.params.cap b) v) }) hb hi b

end Sys2Proof.Machine
end

section
/-! The ConversionMap that HIST and the substitution give (spec 10_state R31). -/

namespace Sys2Proof.Machine

/-- HIST after NORM, at a byte: nonzero exactly where the byte was substituted. A count below 2^32 does not wrap. -/
theorem entry_histOf_ne_zero {xs : List Byte} (hx : xs.length < 2 ^ 32) (b : Byte) :
    Cells.entry 0 b.toNat (histOf [] xs) ≠ 0 ↔ b ∈ xs ∧ ¬ Printable b := by
  have hcount : xs.count b < 2 ^ 32 := Nat.lt_of_le_of_lt List.count_le_length hx
  have hempty : Cells.entry (0 : Word) b.toNat [] = 0 := rfl
  rw [entry_histOf, hempty, zero_add]
  by_cases hp : Printable b
  · rw [if_pos hp]
    exact ⟨fun h => absurd rfl h, fun h => absurd hp h.2⟩
  · rw [if_neg hp, ← List.count_pos_iff, ne_eq, ← BitVec.toNat_inj, BitVec.toNat_ofNat, Nat.mod_eq_of_lt hcount]
    exact ⟨fun h => ⟨Nat.pos_of_ne_zero h, hp⟩, fun h => Nat.ne_of_gt h.1⟩

/-- What a run of NORM on the idle block leaves of HIST and the build. -/
theorem Runs.norm_hist {s t : State} (h : Inv s) (hr : Runs .norm s t) :
    t.params = s.params ∧ ∀ n, t.data.mem.histAt n = Cells.entry 0 n (histOf [] s.data.bytSeq) := by
  have hends := (completes_of_ok (i := .norm) (s := s.issue (encode .norm)) rfl (normRun_ok (h.len .byt))).ends (hr.exec_issue rfl)
  exact ⟨hends.params, hends.hist⟩

/-- Membership in the ConversionMap (10_state R31). -/
theorem mem_cmapOf {p : Params} {m : Memory} {o : Byte} {n : Nat} :
    n ∈ cmapOf p m o ↔ ∃ b : Byte, b.toNat = n ∧ m.histAt b.toNat ≠ 0 ∧ normSubst p b = o := by
  simp only [cmapOf, List.mem_filter, List.mem_range, Bool.and_eq_true, decide_eq_true_eq, beq_iff_eq]
  constructor
  · rintro ⟨hn, hhist, hsub⟩
    have hb : (BitVec.ofNat 8 n).toNat = n := by rw [BitVec.toNat_ofNat, Nat.mod_eq_of_lt (by omega)]
    exact ⟨BitVec.ofNat 8 n, hb, by rwa [hb], hsub⟩
  · rintro ⟨b, rfl, hhist, hsub⟩
    exact ⟨b.isLt, hhist, by rwa [BitVec.ofNat_toNat, BitVec.setWidth_eq]⟩

/-- Settles O25: HIST counts exactly the substituted bytes of the input. -/
theorem conversionMapHoldsTheSubstitutedBytes : Obligations.ConversionMapHoldsTheSubstitutedBytes := by
  intro s t h hr o n
  obtain ⟨hparams, hhist⟩ := Runs.norm_hist h hr
  have hlen : s.data.bytSeq.length < 2 ^ 32 := by
    rw [Data.bytSeq_length]
    exact s.data.lenByt.isLt
  rw [mem_cmapOf, hparams]
  constructor
  · rintro ⟨b, hbn, hb, hsub⟩
    rw [hhist, entry_histOf_ne_zero hlen] at hb
    exact ⟨b, hb.1, hbn, hb.2, hsub⟩
  · rintro ⟨b, hmem, hbn, hp, hsub⟩
    refine ⟨b, hbn, ?_, hsub⟩
    rw [hhist, entry_histOf_ne_zero hlen]
    exact ⟨hmem, hp⟩

end Sys2Proof.Machine
end

section
/-! The ROM tables against their rules (spec 10_state R34 to R37). -/

namespace Sys2Proof.Machine

/-- The run rule, over the 32 chunks (10_state R35). -/
theorem chunkString_eq_dotRuns : ∀ c : Chunk, chunkString c.toNat = [spc].intercalate (dotRuns 0 (bitsOf c)) := by
  decide

/-- The keys are the non-empty strings of CHUNK_TAB (10_state R36). -/
theorem mem_chunkKeys_iff (k : List Byte) : k ∈ chunkKeys ↔ k ≠ [] ∧ ∃ c < 32, chunkString c = k := by
  have hkeys : ∀ k ∈ chunkKeys, k ≠ [] ∧ ∃ c < 32, chunkString c = k := by decide
  have hstrings : ∀ c < 32, chunkString c ≠ [] → chunkString c ∈ chunkKeys := by decide
  constructor
  · exact hkeys k
  · rintro ⟨hne, c, hc, rfl⟩
    exact hstrings c hc hne

/-- CHUNK_REV_LOWEST takes the smallest chunk of each key (10_state R36). -/
theorem chunksOf_head : ∀ j (h : j < chunkKeys.length),
    (chunksOf chunkKeys[j]).head? = some (chunkRevLowest.getD j 0).toNat := by
  decide

/-- The character of each pair of SYM_TAB, and the key of its character (10_state R37). -/
theorem symTab_lookups : ∀ e ∈ symTab, symChar e.1 = e.2 ∧ symKeyOf e.2 = some e.1 := by decide

/-- The two directions of SYM_TAB agree (43_symbol_codec R160, R161). -/
theorem symKeyOf_eq_some_iff (c : Byte) (k : List Byte) : symKeyOf c = some k ↔ k ∈ symKeys ∧ symChar k = c := by
  constructor
  · intro h
    obtain ⟨e, he, rfl⟩ := Option.map_eq_some_iff.mp h
    have hmem := List.mem_of_find?_eq_some he
    have hc : e.2 = c := by simpa using List.find?_some he
    exact ⟨List.mem_map_of_mem hmem, (symTab_lookups e hmem).1.trans hc⟩
  · rintro ⟨hk, rfl⟩
    obtain ⟨e, he, rfl⟩ := List.mem_map.mp hk
    obtain ⟨hchar, hkey⟩ := symTab_lookups e he
    rw [hchar, hkey]

/-- Settles O36. -/
theorem chunkTableFollowsTheRunRule : Obligations.ChunkTableFollowsTheRunRule :=
  ⟨chunkString_eq_dotRuns, mem_chunkKeys_iff, by decide, chunksOf_head, rfl, rfl, rfl, rfl, by decide,
    symKeyOf_eq_some_iff⟩

end Sys2Proof.Machine
end

section
/-! Host accesses: which are refused, what each read answers, and which writes are ignored (spec 20_memory R52, R53, R56,
R60). -/

namespace Sys2Proof.Machine

variable {s : State}

/-! ### What is refused -/

/-- An access that touches the window and is not 4 bytes wide (20_memory R52; log 11). -/
theorem State.access_of_width {a : Access} (hw : inWindow s.params a = true) (hn : a.bytes ≠ 4) :
    s.access a = .refused .accessNotWord := by
  have hwidth : a.widthOk = false := beq_false_of_ne hn
  simp [State.access, hw, hwidth]

/-- A word that touches the window and is not aligned (20_memory R52; log 11). -/
theorem State.access_of_misaligned {a : Access} (hw : inWindow s.params a = true) (hn : a.bytes = 4) (ha : a.addr % 4 ≠ 0) :
    s.access a = .refused .accessMisaligned := by
  have hwidth : a.widthOk = true := beq_of_eq hn
  have haligned : a.aligned = false := beq_false_of_ne ha
  simp [State.access, hw, hwidth, haligned]

theorem step_withEvent_access (s : State) (a : Access) : step (s.withEvent (.access a)) = s.access a := by
  rw [step_access (s := s.withEvent _) rfl, State.withEvent_pop]

/-- Settles O8. -/
theorem onlyAlignedWordsAreAdmitted : Obligations.OnlyAlignedWordsAreAdmitted := by
  intro s a hlow hhigh
  have hw : inWindow s.params a = true := by
    rw [inWindow, decide_eq_true hlow, decide_eq_true hhigh, Bool.and_self]
  rw [step_withEvent_access]
  exact ⟨State.access_of_width hw, State.access_of_misaligned hw⟩

/-! ### Reads -/

/-- `s` after the host was answered `r` in all and `n` free values were used: all that a read can change. -/
def State.observed (s : State) (r : List Word) (n : Nat) : State := { s with replies := r, draws := n }

/-- A read answers one word, and changes nothing but that and the count of free values (20_memory R60). -/
theorem State.hostRead_eq_observed (s : State) (l : Loc) :
    ∃ v n, s.hostRead l = s.observed (s.replies ++ [v]) n := by
  unfold State.hostRead
  split
  · exact ⟨_, s.draws + 1, rfl⟩
  · exact ⟨_, s.draws, rfl⟩

/-- Settles O9. -/
theorem readsHaveNoSideEffects : Obligations.ReadsHaveNoSideEffects := by
  intro s off hb ho
  obtain ⟨v, n, h⟩ := s.hostRead_eq_observed (locate off)
  exact ⟨v, n, by rw [step_withRead hb ho, h]; rfl⟩

/-- A read while the engine is idle answers the committed value of what lies at the offset (20_memory R53 to R57). -/
theorem step_withRead_of_idle (hb : s.params.baseOk = true) (hi : s.engine = .idle) {off : Nat} (ho : WordOffset off)
    {l : Loc} (hl : locate off = l) :
    step (s.withRead off) = .next { s with replies := s.replies ++ [s.committed l] } := by
  rw [step_withRead hb ho, hl, State.hostRead_of_idle hi]
  rfl

theorem wordOffset_of_mem_regMap : ∀ e ∈ regMap, WordOffset e.1 := by decide

/-- Settles O10: the list of the statement is the register map with the committed value of each register. -/
theorem registerReadsAnswerTheirValues : Obligations.RegisterReadsAnswerTheirValues := by
  intro s hb hi e he
  have hlist : e ∈ regMap.map fun e => (e.1, s.readReg e.2) := he
  obtain ⟨⟨off, r⟩, hr, rfl⟩ := List.mem_map.mp hlist
  exact step_withRead_of_idle hb hi (wordOffset_of_mem_regMap _ hr) (locate_reg _ hr)

/-! ### Writes that are ignored -/

/-- What no host write changes (20_memory R53, R56, R57). -/
def Loc.readOnly : Loc → Bool
  | .reg .status | .reg .errCode | .reg .errPos | .reg .errVal | .reg .totalBytes | .reg .convBytes | .reg (.cap _)
  | .hist _ | .unmapped => true
  | .reg .cmd | .reg .ctrl | .reg (.len _) | .reg .padCnt | .map _ | .dict _ | .elem _ _ => false

theorem State.writeIdle_of_readOnly {l : Loc} (hl : l.readOnly = true) (v : Word) : s.writeIdle l v = s := by
  cases l with
  | reg r =>
    cases r with
    | status | errCode | errPos | errVal | totalBytes | convBytes | cap b => rfl
    | cmd | ctrl | len b | padCnt => cases hl
  | hist b | unmapped => rfl
  | map b | dict c | elem b i => cases hl

/-- A write to what is read-only does nothing at any time (20_memory R53, R56, 70_reset_and_hazards R240). -/
theorem State.hostWrite_of_readOnly {l : Loc} (hl : l.readOnly = true) (v : Word) : s.hostWrite l v = s := by
  have hctrl : l ≠ .reg .ctrl := by
    rintro rfl
    cases hl
  cases he : s.engine with
  | idle => rw [State.hostWrite_of_idle he hctrl, State.writeIdle_of_readOnly hl]
  | busy w snapshot => rw [State.hostWrite_of_busy he hctrl]

theorem step_withWrite_of_readOnly (hb : s.params.baseOk = true) {off : Nat} (ho : WordOffset off)
    (hl : (locate off).readOnly = true) (v : Word) : step (s.withWrite off v) = .next s := by
  rw [step_withWrite hb ho, State.hostWrite_of_readOnly hl]

/-- No command writes to an unmapped offset, so a read of one answers 0 while the engine is busy too (20_memory R56). -/
theorem State.hostRead_unmapped (s : State) : s.hostRead .unmapped = s.reply 0 := by
  have hu : s.unreliable .unmapped = false := by
    unfold State.unreliable
    cases s.fetch <;> rfl
  rw [State.hostRead, hu]
  rfl

/-- The offsets of the read-only registers (20_memory R50, R53). -/
theorem readOnly_of_register_offset : ∀ off ∈ [0x04, 0x0C, 0x10, 0x14, 0x40, 0x44, 0x80, 0x84, 0x88, 0x8C, 0x90, 0x94],
    WordOffset off ∧ (locate off).readOnly = true := by decide

/-- Settles O11. -/
theorem unmappedAndReadOnlyOffsets : Obligations.UnmappedAndReadOnlyOffsets := by
  intro s off v hb
  refine ⟨fun ho hm => ?_, ?_⟩
  · have hl := locate_unmapped hm ho.2
    refine ⟨?_, step_withWrite_of_readOnly hb ho (hl ▸ rfl) v⟩
    rw [step_withRead hb ho, hl, State.hostRead_unmapped]
    rfl
  · rintro (hreg | ⟨b, hlt, rfl⟩)
    · obtain ⟨ho, hl⟩ := readOnly_of_register_offset off hreg
      exact step_withWrite_of_readOnly hb ho hl v
    · exact step_withWrite_of_readOnly hb (by omega) (locate_hist hlt ▸ rfl) v

end Sys2Proof.Machine
end

section
/-! The windows of the buffers and of the tables: reads and writes while the engine is idle (spec 20_memory R54, R55,
R57). -/

namespace Sys2Proof.Machine

variable {s : State}

/-- A write while the engine is idle goes to what lies at the offset (20_memory R53 to R57). -/
theorem step_withWrite_of_idle (hb : s.params.baseOk = true) (hi : s.engine = .idle) {off : Nat} (ho : WordOffset off)
    {l : Loc} (hl : locate off = l) (hctrl : l ≠ .reg .ctrl) (v : Word) :
    step (s.withWrite off v) = .next (s.writeIdle l v) := by
  rw [step_withWrite hb ho, hl, State.hostWrite_of_idle hi hctrl]

/-! ### Buffer elements -/

theorem wordOffset_elem (b : Buf) {i : Nat} (h : i < 2 ^ 22) : WordOffset (windowBase b + 4 * i) := by
  have hid : bufId b ≤ 6 := by cases b <;> decide
  rw [windowBase_eq]
  omega

/-- `s` after a host write of `v` to element `i` of buffer `b` (20_memory R54, R55). -/
def State.writeElem (s : State) (b : Buf) (i : Nat) (v : Word) : State :=
  { s with data := { s.data with mem := s.data.mem.setElem b i v } }

/-- The low `k` bits of a word, as a word. -/
theorem setWidth_setWidth_eq_ofNat (v : Word) (k : Nat) :
    (v.setWidth k).setWidth 32 = BitVec.ofNat 32 (v.toNat % 2 ^ k) := by
  apply BitVec.eq_of_toNat_eq
  simp

/-- A written element reads as the low E_X bits of the value (20_memory R54, R55). -/
theorem Memory.elem_setElem_self (m : Memory) (b : Buf) (i : Nat) (v : Word) :
    (m.setElem b i v).elem b i = BitVec.ofNat 32 (v.toNat % 2 ^ elemWidth b) := by
  rw [Memory.elem_setElem, if_pos ⟨rfl, rfl⟩]
  cases b <;> exact setWidth_setWidth_eq_ofNat v _

theorem Memory.elem_setElem_of_ne (m : Memory) {b c : Buf} {i j : Nat} (h : c ≠ b ∨ j ≠ i) (v : Word) :
    (m.setElem b i v).elem c j = m.elem c j := by
  rw [Memory.elem_setElem, if_neg]
  rintro ⟨hc, hj⟩
  exact h.elim (· hc) (· hj)

/-- A read of a slot of a buffer's window. -/
theorem step_withRead_elem (hb : s.params.baseOk = true) (hi : s.engine = .idle) (b : Buf) {i : Nat} (h : i < 2 ^ 22) :
    step (s.withRead (windowBase b + 4 * i)) =
      .next { s with replies := s.replies ++ [if i < s.params.cap b then s.data.mem.elem b i else 0] } :=
  step_withRead_of_idle hb hi (wordOffset_elem b h) (locate_elem b h)

/-- A write to a slot of a buffer's window. -/
theorem step_withWrite_elem (hb : s.params.baseOk = true) (hi : s.engine = .idle) (b : Buf) {i : Nat} (h : i < 2 ^ 22)
    (v : Word) :
    step (s.withWrite (windowBase b + 4 * i) v) = .next (if i < s.params.cap b then s.writeElem b i v else s) :=
  step_withWrite_of_idle hb hi (wordOffset_elem b h) (locate_elem b h) (by simp) v

/-- Settles O13. -/
theorem elementWritesKeepTheLowBits : Obligations.ElementWritesKeepTheLowBits := by
  intro s b i v hp hi h
  have hb := Params.baseOk_of_wf hp
  rw [step_withRead_elem hb hi b h, step_withWrite_elem hb hi b h]
  refine ⟨fun hc => ?_, fun hc => ?_⟩
  · rw [if_pos hc, if_pos hc]
    refine ⟨rfl, s.writeElem b i v, rfl, Memory.elem_setElem_self .., fun c j hne => Memory.elem_setElem_of_ne _ hne v,
      Memory.setElem_hist .., Memory.setElem_map .., Memory.setElem_dict .., rfl, ?_⟩
    have hread := step_withRead_elem (s := s.writeElem b i v) hb hi b h
    rwa [if_pos (show i < (s.writeElem b i v).params.cap b from hc)] at hread
  · rw [if_neg (by omega), if_neg (by omega)]
    exact ⟨rfl, rfl⟩

/-! ### HIST, MAP and DICT -/

/-- A table entry as it is read back after a write: a flag in bit `k` and the low `n` bits of the value written. -/
theorem ofNat_flag_add_field (v : Word) {k n : Nat} (h : n ≤ k) :
    BitVec.ofNat 32 (2 ^ k * (v.getLsbD k).toNat + (v.setWidth n).toNat) =
      v &&& BitVec.ofNat 32 (2 ^ k ||| (2 ^ n - 1)) := by
  have hlow : v.toNat % 2 ^ n < 2 ^ k :=
    Nat.lt_of_lt_of_le (Nat.mod_lt _ (Nat.two_pow_pos n)) (Nat.pow_le_pow_right Nat.two_pos h)
  have hmask : 2 ^ k * (v.getLsbD k).toNat + (v.setWidth n).toNat = v.toNat &&& (2 ^ k ||| (2 ^ n - 1)) := by
    rw [BitVec.toNat_setWidth, BitVec.getLsbD, Nat.two_pow_add_eq_or_of_lt hlow, Nat.and_or_distrib_left,
      Nat.and_two_pow, Nat.and_two_pow_sub_one_eq_mod, Nat.mul_comm]
  rw [hmask, BitVec.ofNat_and, BitVec.ofNat_toNat, BitVec.setWidth_eq]

/-- What a MAP entry reads back as (20_memory R57). -/
theorem mapEntryWord_mapEntryOf (v : Word) : mapEntryWord (mapEntryOf v) = v &&& 0x1FF#32 :=
  ofNat_flag_add_field v (k := 8) (n := 8) (by omega)

/-- What a DICT entry reads back as (20_memory R57). -/
theorem dictEntryWord_dictEntryOf (v : Word) : dictEntryWord (dictEntryOf v) = v &&& 0x83FF#32 :=
  ofNat_flag_add_field v (k := 15) (n := 10) (by omega)

theorem step_withRead_hist (hb : s.params.baseOk = true) (hi : s.engine = .idle) {b : Nat} (h : b < 256) :
    step (s.withRead (0x1000 + 4 * b)) = .next { s with replies := s.replies ++ [s.data.mem.histAt b] } :=
  step_withRead_of_idle hb hi (by omega) (locate_hist h)

theorem step_withRead_map (hb : s.params.baseOk = true) (hi : s.engine = .idle) {b : Nat} (h : b < 256) :
    step (s.withRead (0x2000 + 4 * b)) =
      .next { s with replies := s.replies ++ [mapEntryWord (s.data.mem.mapAt b)] } :=
  step_withRead_of_idle hb hi (by omega) (locate_map h)

theorem step_withRead_dict (hb : s.params.baseOk = true) (hi : s.engine = .idle) {c : Nat} (h : c < 1024) :
    step (s.withRead (0x4000 + 4 * c)) =
      .next { s with replies := s.replies ++ [dictEntryWord (s.data.mem.dictAt c)] } :=
  step_withRead_of_idle hb hi (by omega) (locate_dict h)

/-- `s` after a host write of `v` to `MAP[b]` (20_memory R57). -/
def State.writeMap (s : State) (b : Nat) (v : Word) : State :=
  { s with data := { s.data with mem := s.data.mem.setMap b (mapEntryOf v) } }

/-- `s` after a host write of `v` to `DICT[c]` (20_memory R57). -/
def State.writeDict (s : State) (c : Nat) (v : Word) : State :=
  { s with data := { s.data with mem := s.data.mem.setDict c (dictEntryOf v) } }

theorem step_withWrite_map (hb : s.params.baseOk = true) (hi : s.engine = .idle) {b : Nat} (h : b < 256) (v : Word) :
    step (s.withWrite (0x2000 + 4 * b) v) = .next (s.writeMap b v) :=
  step_withWrite_of_idle hb hi (by omega) (locate_map h) (by simp) v

theorem step_withWrite_dict (hb : s.params.baseOk = true) (hi : s.engine = .idle) {c : Nat} (h : c < 1024) (v : Word) :
    step (s.withWrite (0x4000 + 4 * c) v) = .next (s.writeDict c v) :=
  step_withWrite_of_idle hb hi (by omega) (locate_dict h) (by simp) v

theorem State.mapAt_writeMap (s : State) (b : Nat) (v : Word) (c : Nat) :
    (s.writeMap b v).data.mem.mapAt c = if c = b then mapEntryOf v else s.data.mem.mapAt c := Memory.mapAt_setMap ..

theorem State.dictAt_writeDict (s : State) (c : Nat) (v : Word) (d : Nat) :
    (s.writeDict c v).data.mem.dictAt d = if d = c then dictEntryOf v else s.data.mem.dictAt d := Memory.dictAt_setDict ..

/-- Settles O14. -/
theorem tableWindowsKeepTheirFields : Obligations.TableWindowsKeepTheirFields := by
  intro s v hb hi
  refine ⟨fun b h => step_withRead_hist hb hi h, fun b h => step_withRead_map hb hi h, fun c h => step_withRead_dict hb hi h,
    fun b h => ?_, fun c h => ?_⟩
  · have hself := s.mapAt_writeMap b v b
    rw [if_pos rfl] at hself
    refine ⟨s.writeMap b v, step_withWrite_map hb hi h v, hself, fun c hc => ?_, fun c i => Memory.elem_setMap .., rfl, rfl,
      rfl, ?_⟩
    · rw [State.mapAt_writeMap, if_neg hc]
    · rw [step_withRead_map (s := s.writeMap b v) hb hi h, hself, mapEntryWord_mapEntryOf]
  · have hself := s.dictAt_writeDict c v c
    rw [if_pos rfl] at hself
    refine ⟨s.writeDict c v, step_withWrite_dict hb hi h v, hself, fun d hd => ?_, fun d i => Memory.elem_setDict .., rfl,
      rfl, rfl, ?_⟩
    · rw [State.dictAt_writeDict, if_neg hd]
    · rw [step_withRead_dict (s := s.writeDict c v) hb hi h, hself, dictEntryWord_dictEntryOf]

end Sys2Proof.Machine
end

section
/-! The engine's turn, and what the host does before it (spec 20_memory R63, R66, 60_exceptions R212, R225). -/

namespace Sys2Proof.Machine

variable {s : State} {w : Word} {snapshot : Data}

/-! ### The engine's turn -/

theorem State.pop_of_inbox_nil (h : s.inbox = []) : s.pop = s := by
  rw [State.pop, h, List.tail_nil, ← h]

theorem State.nextEvent_of_inbox_nil (h : s.inbox = []) : s.nextEvent = .engine := by
  rw [State.nextEvent, h]
  rfl

theorem State.fetch_of_idle (h : s.engine = .idle) : s.fetch = .nothing := by
  rw [State.fetch, h]

theorem State.fetch_of_decode_ok (h : s.engine = .busy w snapshot) {i : Instr} (hd : decode w = .ok i) :
    s.fetch = .command i := by
  simp only [State.fetch, h, hd]

theorem State.fetch_of_decode_error (h : s.engine = .busy w snapshot) {e : DecodeError} (hd : decode w = .error e) :
    s.fetch = .illegal w := by
  simp only [State.fetch, h, hd]

/-- Settles O4. -/
theorem engineTurnRunsTheDecodedCommand : Obligations.EngineTurnRunsTheDecodedCommand := by
  refine ⟨fun s w snapshot i he hd => ⟨?_, fun hnil => ?_, ?_⟩, fun s he => ⟨?_, fun hnil => ?_⟩⟩
  · rw [step_engine_command (s := s.withEvent .engine) rfl (State.fetch_of_decode_ok he hd), State.withEvent_pop]
  · rw [step_engine_command (State.nextEvent_of_inbox_nil hnil) (State.fetch_of_decode_ok he hd),
      State.pop_of_inbox_nil hnil]
  · rw [State.operands, he]
  · rw [step_engine_nothing (s := s.withEvent .engine) rfl (State.fetch_of_idle he), State.withEvent_pop]
  · rw [step_engine_nothing (State.nextEvent_of_inbox_nil hnil) (State.fetch_of_idle he), State.pop_of_inbox_nil hnil]

/-! ### Accesses before the engine's turn -/

/-- An access to an aligned word that is no write to CTRL (20_memory R52). -/
def AlignedOffCtrl (p : Params) (a : Access) : Prop :=
  a.bytes = 4 ∧ a.addr % 4 = 0 ∧ ∀ b n v, a = .write b n v → b ≠ p.base + 8

/-- While the engine is busy such an access changes nothing but what the host was told and the count of free values
(20_memory R60, 70_reset_and_hazards R240). -/
theorem State.access_of_busy (he : s.engine = .busy w snapshot) {a : Access}
    (ha : AlignedOffCtrl s.params a) : ∃ r n, s.access a = .next (s.observed r n) := by
  obtain ⟨hbytes, haddr, hctrl⟩ := ha
  have hwidth : a.widthOk = true := beq_of_eq hbytes
  have haligned : a.aligned = true := beq_of_eq haddr
  cases hw : inWindow s.params a with
  | false => exact ⟨s.replies, s.draws, by unfold State.access; rw [hw]; rfl⟩
  | true =>
    simp only [State.access, hw, hwidth, haligned, Bool.not_true, Bool.false_eq_true, if_false]
    cases a with
    | read addr k =>
      obtain ⟨v, n, h⟩ := s.hostRead_eq_observed (locate (addr - s.params.base))
      exact ⟨_, n, congrArg _ h⟩
    | write addr k v =>
      have hne : locate (addr - s.params.base) ≠ .reg .ctrl := by
        have := hctrl addr k v rfl
        rw [ne_eq, locate_eq_ctrl]
        omega
      exact ⟨s.replies, s.draws, congrArg _ (State.hostWrite_of_busy he hne v)⟩

/-- A run over such accesses leaves a busy block as it was but for what the host was told and the count of free values, with
the events listed after them next. -/
theorem run_of_busy (as : List Access) (s : State) (he : s.engine = .busy w snapshot)
    (has : ∀ a ∈ as, AlignedOffCtrl s.params a) :
    ∃ r n, ∀ k, Sys2Proof.core.run (as.length + k) { s with inbox := as.map .access ++ s.inbox } =
      Sys2Proof.core.run k (s.observed r n) := by
  induction as generalizing s with
  | nil => exact ⟨s.replies, s.draws, fun k => by rw [List.length_nil, Nat.zero_add]; rfl⟩
  | cons a rest ih =>
    obtain ⟨ha, hrest⟩ := List.forall_mem_cons.mp has
    obtain ⟨r, n, hstep⟩ := State.access_of_busy (s := { s with inbox := rest.map .access ++ s.inbox }) he ha
    obtain ⟨r', n', hrun⟩ := ih (s.observed r n) he hrest
    refine ⟨r', n', fun k => ?_⟩
    rw [List.length_cons, Nat.add_right_comm]
    exact (run_succ ((step_withEvent_access _ a).trans hstep) _).trans (hrun k)

/-! ### What the command in flight then does -/

/-- The command ended in `t` as it did in `u`: what the end of a command writes is the same, and so are CMD and the data. -/
structure SameEnd (t u : State) : Prop where
  engine : t.engine = .idle
  cmd : t.cmd = u.cmd
  data : t.data = u.data
  status : t.status = u.status
  errCode : t.errCode = u.errCode
  errPos : t.errPos = u.errPos
  errVal : t.errVal = u.errVal

/-- The command in flight in `s` ended in `t` with ABORTED(0, 0) and no effect (60_exceptions R212). -/
structure AbortedEnd (s t : State) : Prop where
  engine : t.engine = .idle
  cmd : t.cmd = s.cmd
  data : t.data = s.data
  status : t.status = 6
  errCode : t.errCode = 6
  errPos : t.errPos = 0
  errVal : t.errVal = 0

theorem State.complete_cmd (s : State) (res : Except Raise Staged) : (s.complete res).cmd = s.cmd := by
  cases res <;> rfl

/-- However a command ends on a block that the host has read from: as with no read made and no abort requested, or, only
where it is requested, with the abort (60_exceptions R212). -/
theorem State.finish_observed (s : State) (r : List Word) (n : Nat) (res : Except Raise Staged) :
    SameEnd ((s.observed r n).finish res) ({ s with abortReq := false }.complete res) ∨
      s.abortReq = true ∧ AbortedEnd s ((s.observed r n).finish res) := by
  have hobserved : ∀ x, (x = s.observed r n ∨ x = (s.observed r n).draw) → ∃ m, x = s.observed r m := by
    rintro x (rfl | rfl)
    · exact ⟨n, rfl⟩
    · exact ⟨n + 1, rfl⟩
  obtain ⟨x, hx, e, he, heq⟩ | ⟨x, hx, st, rfl, heq⟩ := State.finish_cases (s.observed r n) res
  all_goals
    rw [heq]
    obtain ⟨m, rfl⟩ := hobserved x hx
  · obtain rfl | ⟨ha, rfl⟩ := he
    · exact .inl ⟨rfl, rfl, rfl, rfl, rfl, rfl, rfl⟩
    · exact .inr ⟨ha, rfl, rfl, rfl, rfl, rfl, rfl, rfl⟩
  · exact .inl ⟨rfl, rfl, rfl, rfl, rfl, rfl, rfl⟩

/-- The engine's turn on a busy block that the host has read from, beside the turn with no read made and no abort
requested. -/
theorem step_observed_of_busy (he : s.engine = .busy w snapshot) (hn : s.nextEvent = .engine) (r : List Word) (n : Nat) :
    ∃ t u, step (s.observed r n) = .next t ∧ step { s with abortReq := false } = .next u ∧ u.cmd = s.cmd ∧
      (SameEnd t u ∨ s.abortReq = true ∧ AbortedEnd s t) := by
  cases hd : decode w with
  | error e =>
    have hf := State.fetch_of_decode_error he hd
    exact ⟨_, _, step_engine_illegal (s := s.observed r n) hn hf,
      step_engine_illegal (s := { s with abortReq := false }) hn hf, rfl, .inl ⟨rfl, rfl, rfl, rfl, rfl, rfl, rfl⟩⟩
  | ok i =>
    have hf := State.fetch_of_decode_ok he hd
    refine ⟨_, _, (step_engine_command (s := s.observed r n) hn hf).trans (exec_eq i _),
      (step_engine_command (s := { s with abortReq := false }) hn hf).trans (exec_eq i _), ?_, ?_⟩
    · rw [State.finish_of_no_abort rfl, State.complete_cmd]
      rfl
    · rw [State.finish_of_no_abort (s := State.pop { s with abortReq := false }) rfl]
      exact (s.pop.finish_observed r n _).imp_right fun ⟨ha, h⟩ =>
        ⟨ha, h.engine, h.cmd, h.data, h.status, h.errCode, h.errPos, h.errVal⟩

/-- Settles O59: the accesses only tell the host something (`run_of_busy`), and the turn after them ends the command as the
turn taken at once does (`step_observed_of_busy`). -/
theorem busyAccessesDoNotReachTheCommand : Obligations.BusyAccessesDoNotReachTheCommand := by
  intro s w snapshot as _ he has
  obtain ⟨r, n, hrun⟩ := run_of_busy as { s with inbox := [.engine] } he has
  obtain ⟨t, u, ht, hu, hcmd, hend⟩ := step_observed_of_busy (s := { s with inbox := [.engine] }) he rfl r n
  refine ⟨t, u, (hrun 1).trans (run_succ ht 0), hu, ?_⟩
  obtain h | ⟨ha, h⟩ := hend
  · exact ⟨h.engine, h.cmd, .inl ⟨h.data, h.status, h.errCode, h.errPos, h.errVal⟩⟩
  · exact ⟨h.engine, h.cmd.trans hcmd.symm, .inr ⟨ha, h.data, h.status, h.errCode, h.errPos, h.errVal⟩⟩

end Sys2Proof.Machine
end

section
/-! Decoding and encoding of command words (spec 30_encoding R71, R73 to R77, R80). -/

namespace Sys2Proof

open Machine

theorem mem_of_lookup_eq_some {β : Type} {k : Nat} {v : β} {l : List (Nat × β)} (h : l.lookup k = some v) : (k, v) ∈ l := by
  obtain ⟨l₁, l₂, rfl, -⟩ := List.lookup_eq_some_iff.mp h
  simp

/-! ### The three checks of R73, in their order -/

variable {w : Word}

/-- Everything that decoding can answer, and what it found to answer it (R73). -/
inductive Decoding (w : Word) : Except DecodeError Instr → Prop
  | reservedBits (hrsvd : (fieldsOf w).rsvd ≠ 0#20) : Decoding w (.error .reservedBits)
  | unknownOpcode (hrsvd : (fieldsOf w).rsvd = 0#20) (hopc : opcodeMap.lookup (fieldsOf w).opc.toNat = none) :
      Decoding w (.error .unknownOpcode)
  | illegalMode {row : List (Nat × Instr)} (hrsvd : (fieldsOf w).rsvd = 0#20)
      (hopc : opcodeMap.lookup (fieldsOf w).opc.toNat = some row) (hmode : row.lookup (fieldsOf w).mode.toNat = none) :
      Decoding w (.error .illegalMode)
  | command {row : List (Nat × Instr)} {i : Instr} (hrsvd : (fieldsOf w).rsvd = 0#20)
      (hopc : opcodeMap.lookup (fieldsOf w).opc.toNat = some row) (hmode : row.lookup (fieldsOf w).mode.toNat = some i) :
      Decoding w (.ok i)

theorem decoding_decode (w : Word) : Decoding w (decode w) := by
  unfold decode
  simp only
  split
  · next hrsvd => exact .reservedBits hrsvd
  · next hrsvd =>
    rw [not_not] at hrsvd
    split
    · next hopc => exact .unknownOpcode hrsvd hopc
    · next row hopc =>
      split
      · next hmode => exact .illegalMode hrsvd hopc hmode
      · next i hmode => exact .command hrsvd hopc hmode

/-- What decoding finds determines its answer: the checks exclude each other. -/
theorem Decoding.decode_eq {r : Except DecodeError Instr} (h : Decoding w r) : decode w = r := by
  unfold decode
  cases h with
  | reservedBits hrsvd => exact if_pos hrsvd
  | unknownOpcode hrsvd hopc => simp [hrsvd, hopc]
  | illegalMode hrsvd hopc hmode => simp [hrsvd, hopc, hmode]
  | command hrsvd hopc hmode => simp [hrsvd, hopc, hmode]

theorem decode_eq_iff {r : Except DecodeError Instr} : decode w = r ↔ Decoding w r :=
  ⟨fun h => h ▸ decoding_decode w, Decoding.decode_eq⟩

/-! ### The opcode map against the columns of R74 and R75 -/

/-- Each row lists the commands under their OPC and MODE. -/
theorem opcodeMap_fields : ∀ e ∈ opcodeMap, ∀ m ∈ e.2, e.1 = m.2.opc.toNat ∧ m.1 = m.2.mode.toNat := by decide

/-- Each command is found under its OPC and MODE. -/
theorem lookup_opcodeMap (i : Instr) :
    ∃ row, opcodeMap.lookup i.opc.toNat = some row ∧ row.lookup i.mode.toNat = some i := by
  cases i <;> exact ⟨_, rfl, rfl⟩

/-- A word decodes to a command exactly when its three fields are the command's (R77). -/
theorem decode_eq_ok_iff_fieldsOf {i : Instr} : decode w = .ok i ↔ fieldsOf w = i.fields := by
  rw [decode_eq_iff]
  constructor
  · rintro (_ | _ | _ | ⟨hrsvd, hopc, hmode⟩)
    obtain ⟨hopc', hmode'⟩ := opcodeMap_fields _ (mem_of_lookup_eq_some hopc) _ (mem_of_lookup_eq_some hmode)
    exact congr (congr (congrArg CmdFields.mk hrsvd) (BitVec.eq_of_toNat_eq hmode')) (BitVec.eq_of_toNat_eq hopc')
  · intro h
    obtain ⟨row, hopc, hmode⟩ := lookup_opcodeMap i
    exact .command (row := row) (by rw [h]; rfl) (by rw [h]; exact hopc) (by rw [h]; exact hmode)

/-! ### The words of R80 -/

/-- The three fields make up the whole word (R71). -/
theorem fieldsOf_injective {v : Word} (h : fieldsOf v = fieldsOf w) : v = w := by
  obtain ⟨hrsvd, hmode, hopc⟩ := CmdFields.mk.inj h
  rw [← BitVec.toNat_inj, BitVec.extractLsb'_toNat, BitVec.extractLsb'_toNat, Nat.shiftRight_eq_div_pow,
    Nat.shiftRight_eq_div_pow] at hrsvd hmode hopc
  have hv := v.isLt
  have hw := w.isLt
  exact BitVec.eq_of_toNat_eq (by omega)

theorem fieldsOf_encode (i : Instr) : fieldsOf (encode i) = i.fields := by
  cases i <;> rfl

/-- A word decodes to a command exactly when it is the command's word (R77). -/
theorem decode_eq_ok_iff_eq_encode {i : Instr} : decode w = .ok i ↔ w = encode i := by
  rw [decode_eq_ok_iff_fieldsOf, ← fieldsOf_encode]
  exact ⟨fieldsOf_injective, congrArg fieldsOf⟩

@[simp] theorem decode_encode (i : Instr) : decode (encode i) = .ok i := decode_eq_ok_iff_eq_encode.mpr rfl

/-- Settles O2: the fields decide what a word decodes to, and they make up the word. -/
theorem decodeAcceptsExactlyTheEncodings : Obligations.DecodeAcceptsExactlyTheEncodings := by
  intro w i
  have hmask : w &&& 0xFFFFFFFF#32 = w := BitVec.and_allOnes
  constructor
  · rw [decode_eq_ok_iff_fieldsOf, fieldsOf, Instr.fields, CmdFields.mk.injEq, and_comm (a := _ = i.mode)]
  · rw [hmask, decode_eq_ok_iff_eq_encode]

/-- Settles O1: the table of the statement is the list of all commands with their words. -/
theorem commandWordsDecodeToTheirRows : Obligations.CommandWordsDecodeToTheirRows := by
  intro e he
  have hlist : e ∈ Instr.all.map fun i => ((encode i).toNat, i) := he
  obtain ⟨i, -, rfl⟩ := List.mem_map.mp hlist
  have hword : tableWord 32 (encode i).toNat = encode i := by
    rw [tableWord, Nat.mod_eq_of_lt (encode i).isLt, BitVec.ofNat_toNat, BitVec.setWidth_eq]
  refine ⟨?_, ?_⟩
  · rw [BitVec.ofNat_toNat, BitVec.setWidth_eq, decode_encode]
  · rw [decodeTableWord, hword, decode_encode]

/-! ### The words that are no encoding (R76) -/

/-- The OPC values that are no row of the map (R76). -/
theorem lookup_opcodeMap_eq_none_iff {n : Nat} (h : n < 2 ^ 8) :
    opcodeMap.lookup n = none ↔ n = 0 ∨ (0x04 ≤ n ∧ n ≤ 0x0F) ∨ (0x16 ≤ n ∧ n ≤ 0x1F) ∨ (0x22 ≤ n ∧ n ≤ 0x2F) ∨
      (0x32 ≤ n ∧ n ≤ 0x3F) ∨ (0x46 ≤ n ∧ n ≤ 0xFF) := by
  rw [List.lookup_eq_none_iff]
  simp only [opcodeMap, bne_iff_ne, List.forall_mem_cons, List.not_mem_nil, false_implies, implies_true, and_true]
  constructor <;> omega

/-- The largest legal MODE of each row (R75). -/
def maxMode (opc : Nat) : Nat := if opc = 0x11 then 1 else if opc = 0x12 then 2 else 0

/-- The legal MODE values of a row are those up to its largest one (R75). -/
theorem lookup_mode_eq_none_iff :
    ∀ e ∈ opcodeMap, ∀ m : BitVec 4, e.2.lookup m.toNat = none ↔ maxMode e.1 < m.toNat := by decide

/-- Settles O3: each check is one constructor of `Decoding`. -/
theorem illegalWordsAreRefusedInDecodeOrder : Obligations.IllegalWordsAreRefusedInDecodeOrder := by
  intro w rsvd mode opc unlisted modeTooBig
  have hrsvd : (fieldsOf w).rsvd = 0#20 ↔ rsvd = 0 := BitVec.toNat_inj.symm
  have hopc : opcodeMap.lookup opc = none ↔ unlisted := lookup_opcodeMap_eq_none_iff (w.extractLsb' 0 8).isLt
  have hmode {row : List (Nat × Instr)} (hrow : opcodeMap.lookup opc = some row) :
      row.lookup mode = none ↔ modeTooBig :=
    lookup_mode_eq_none_iff _ (mem_of_lookup_eq_some hrow) (w.extractLsb' 8 4)
  rw [decode_eq_iff, decode_eq_iff, decode_eq_iff, ne_eq, ← hrsvd, ← hopc]
  refine ⟨⟨?_, .reservedBits⟩, ⟨?_, fun ⟨h, hnone⟩ => .unknownOpcode h hnone⟩, ⟨?_, fun ⟨h, hlisted, hbig⟩ => ?_⟩⟩
  · rintro ⟨h⟩
    exact h
  · rintro (_ | ⟨h, hnone⟩)
    exact ⟨h, hnone⟩
  · rintro (_ | _ | ⟨h, hrow, hnone⟩)
    exact ⟨h, Option.ne_none_iff_exists'.mpr ⟨_, hrow⟩, (hmode hrow).mp hnone⟩
  · obtain ⟨row, hrow⟩ := Option.ne_none_iff_exists'.mp hlisted
    exact .illegalMode h hrow ((hmode hrow).mpr hbig)

end Sys2Proof
end

section
/-! The issue of a command word and the end of an illegal one (spec 30_encoding R70, R73). -/

namespace Sys2Proof.Machine

variable {s : State} {w : Word} {snapshot : Data}

/-- Settles O5: a word that encodes no command does not decode, whatever check refuses it. -/
theorem illegalWordEndsWithIllegalCmd : Obligations.IllegalWordEndsWithIllegalCmd := by
  intro s w snapshot hbusy hnot
  cases hd : decode w with
  | ok i => exact absurd ⟨i, decode_eq_ok_iff_eq_encode.mp hd⟩ hnot
  | error e =>
    refine ⟨s.endIllegal w, ?_, State.endErr_endsInError s _, rfl⟩
    rw [step_engine_illegal (s := s.withEvent .engine) rfl (State.fetch_of_decode_error hbusy hd), State.withEvent_pop]

/-- A host write to CMD of the idle block issues the word (R70). -/
theorem step_withWrite_cmd (hb : s.params.baseOk = true) (hi : s.engine = .idle) (w : Word) :
    step (s.withWrite 0 w) = .next (s.issue w) :=
  step_withWrite_of_idle hb hi (by decide) (locate_reg (0, .cmd) (by decide)) (by simp) w

/-- A host write to CMD of the busy block is ignored (R70, 70_reset_and_hazards R240). -/
theorem step_withWrite_cmd_of_busy (hb : s.params.baseOk = true) (hbusy : s.engine = .busy w snapshot) (v : Word) :
    step (s.withWrite 0 v) = .next s := by
  rw [step_withWrite hb (by decide), locate_reg (0, .cmd) (by decide), State.hostWrite_of_busy hbusy (by simp)]

/-- However a command ends, the engine is idle and STATUS has DONE set (60_exceptions R205, R206). -/
theorem State.finish_idle (s : State) (r : Except Raise Staged) :
    (s.finish r).engine = .idle ∧ ((s.finish r).status = 2 ∨ (s.finish r).status = 6) := by
  obtain ⟨u, -, e, -, heq⟩ | ⟨u, -, st, -, heq⟩ := State.finish_cases s r
  · rw [heq]
    exact ⟨rfl, .inr rfl⟩
  · rw [heq]
    exact ⟨rfl, .inl rfl⟩

/-- Settles O6. -/
theorem cmdWriteIssuesOnlyWhileIdle : Obligations.CmdWriteIssuesOnlyWhileIdle := by
  intro s w hb
  refine ⟨fun hi => ⟨s.issue w, step_withWrite_cmd hb hi w, rfl, rfl, fun i hd => ⟨?_, ?_⟩⟩,
    fun v snapshot hbusy => step_withWrite_cmd_of_busy hb hbusy w⟩
  · exact (engineTurnRunsTheDecodedCommand.1 (s.issue w) w s.data i rfl hd).1
  · exact ⟨_, exec_eq i _, State.finish_idle _ _⟩

end Sys2Proof.Machine
end

section
/-! The writes column of the opcode map: what each command stages, and what a commit of it changes (spec 30_encoding
R74). -/

namespace Sys2Proof.Machine

variable {p : Params} {d e : Data} {st : Staged}

/-! ### What is staged -/

/-- Every destination, each buffer before its length. -/
def Dest.all : List Dest :=
  [.buf .byt, .len .byt, .buf .bit, .len .bit, .buf .sym, .len .sym, .buf .chr, .len .chr, .buf .code, .len .code,
    .buf .pkb, .len .pkb, .padCnt, .totalBytes, .convBytes, .hist]

theorem Dest.mem_all (x : Dest) : x ∈ Dest.all := by
  cases x with
  | len b | buf b => cases b <;> decide
  | padCnt | totalBytes | convBytes | hist => decide

/-- Whether something is staged for a destination. -/
def Staged.writes (st : Staged) : Dest → Bool
  | .len b => (st.lens b).isSome
  | .buf b => (st.elems b).isSome
  | .padCnt => st.padCnt.isSome
  | .totalBytes => st.totalBytes.isSome
  | .convBytes => st.convBytes.isSome
  | .hist => st.hist.isSome

/-- The destinations for which something is staged. -/
def Staged.column (st : Staged) : List Dest := Dest.all.filter st.writes

theorem Staged.mem_column {x : Dest} : x ∈ st.column ↔ st.writes x = true := by
  rw [Staged.column, List.mem_filter]
  exact and_iff_right x.mem_all

/-- A command that reaches its commit has staged exactly its writes column. -/
theorem runOf_column {i : Instr} (h : runOf i p d = .ok st) : st.column.Perm (writesOf i) := by
  cases i with
  | norm | valid | remap | ser | deserTrunc | deserPadb | pad8 | pad5 | pad10 | a2b | b2a | cenc | cdec | senc | sdec
  | pack | unpack | blkenc | blkdec =>
    simp only [runOf, normRun, validRun, remapRun, serRun, deserTruncRun, deserPadbRun, padRun, a2bRun, b2aRun, cencRun,
      cdecRun, sencRun, sdecRun, packRun, unpackRun, blkencRun, blkdecRun] at h
    split at h
    · cases h
      exact .refl _
    · cases h
  | trim =>
    simp only [runOf, trimRun] at h
    split at h
    · cases h
    · cases h
      exact .refl _
  | bcomp | bdecomp =>
    simp only [runOf, bcompRun, bdecompRun] at h
    split at h
    · cases h
    · split at h
      · cases h
      · split at h
        · cases h
        · cases h
          exact List.isPerm_iff.mp rfl

theorem runOf_writes_iff {i : Instr} (h : runOf i p d = .ok st) (x : Dest) : st.writes x = true ↔ x ∈ writesOf i := by
  rw [← Staged.mem_column, (runOf_column h).mem_iff]

/-! ### What a commit changes -/

/-- `e` has of the destination what `d` has; of a buffer, in every element. -/
def Unchanged (d e : Data) : Dest → Prop
  | .len b => e.len b = d.len b
  | .buf b => ∀ j, e.mem.elem b j = d.mem.elem b j
  | .padCnt => e.padCnt = d.padCnt
  | .totalBytes => e.totalBytes = d.totalBytes
  | .convBytes => e.convBytes = d.convBytes
  | .hist => ∀ b, e.mem.histAt b = d.mem.histAt b

theorem Unchanged.refl (d : Data) (x : Dest) : Unchanged d d x := by
  cases x with
  | buf b | hist => exact fun _ => rfl
  | len b | padCnt | totalBytes | convBytes => rfl

/-- A commit changes no destination that is not staged (60_exceptions R206). -/
theorem Data.commit_unchanged {x : Dest} (h : ¬ st.writes x = true) : Unchanged d (d.commit st) x := by
  cases x with
  | len b =>
    have hnone : st.lens b = none := by simpa [Staged.writes] using h
    rw [Unchanged, Data.commit_len, hnone, Option.getD_none]
  | buf b =>
    have hnone : st.elems b = none := by simpa [Staged.writes] using h
    intro j
    rw [Data.commit_mem, Memory.elem_commit, hnone, Option.getD_none, List.getD_nil]
  | hist =>
    have hnone : st.hist = none := by simpa [Staged.writes] using h
    intro b
    rw [Data.commit_mem, Memory.histAt, Memory.commit_hist, hnone, Option.getD_none, Memory.histAt]
  | padCnt | totalBytes | convBytes =>
    simp only [Staged.writes, Option.isSome_iff_ne_none, ne_eq, not_not] at h
    simp [Unchanged, h]

/-- What a command does to the state's data, CMD and build: it leaves the data alone or commits what it staged. -/
theorem exec_data {i : Instr} {s t : State} (h : exec i s = .next t) :
    t.cmd = s.cmd ∧ t.params = s.params ∧
      (t.data = s.data ∨ ∃ st, runOf i s.params s.operands = .ok st ∧ t.data = s.data.commit st) := by
  rw [exec_eq] at h
  cases h
  obtain ⟨u, hu, e, -, heq⟩ | ⟨u, hu, st, hst, heq⟩ := State.finish_cases s (runOf i s.params s.operands)
  all_goals
    rw [heq]
    obtain ⟨hcmd, hparams, hdata⟩ : u.cmd = s.cmd ∧ u.params = s.params ∧ u.data = s.data := by
      obtain rfl | rfl := hu <;> exact ⟨rfl, rfl, rfl⟩
  · exact ⟨hcmd, hparams, .inl hdata⟩
  · exact ⟨hcmd, hparams, .inr ⟨st, hst, congrArg (Data.commit · st) hdata⟩⟩

/-- Settles O19: a command leaves the data alone or commits its writes column (`runOf_writes_iff`). -/
theorem commandsWriteOnlyTheirColumn : Obligations.CommandsWriteOnlyTheirColumn := by
  intro i s t hexec
  obtain ⟨hcmd, hparams, hdata⟩ := exec_data hexec
  have hdest (x : Dest) (hx : x ∉ writesOf i) : Unchanged s.data t.data x := by
    obtain heq | ⟨st, hst, heq⟩ := hdata
    · exact heq ▸ Unchanged.refl s.data x
    · exact heq ▸ Data.commit_unchanged (mt (runOf_writes_iff hst x).mp hx)
  have htables : t.data.mem.map = s.data.mem.map ∧ t.data.mem.dict = s.data.mem.dict := by
    obtain heq | ⟨st, -, heq⟩ := hdata
    · exact ⟨by rw [heq], by rw [heq]⟩
    · exact ⟨by rw [heq]; rfl, by rw [heq]; rfl⟩
  obtain ⟨hmap, hdict⟩ := htables
  exact ⟨fun b => hdest (.len b), fun b => hdest (.buf b), hdest .padCnt, hdest .totalBytes, hdest .convBytes, hdest .hist,
    fun b => by rw [Memory.mapAt, hmap, Memory.mapAt], fun c => by rw [Memory.dictAt, hdict, Memory.dictAt], hcmd, hparams⟩

end Sys2Proof.Machine
end

section
/-! The reads column of the opcode map: the pseudocode depends on nothing else (spec 30_encoding R74, 10_state R30). -/

namespace Sys2Proof.Machine

variable {p : Params} {d e : Data} {st : Staged}

/-! ### Operands that agree -/

/-- Two buffers whose valid elements read alike hold the same sequence. -/
theorem map_range_congr {n : Nat} (hn : n ≤ 32) {f g : Nat → BitVec n} {k l : Nat} (hlen : k = l)
    (h : ∀ i, i < k → (f i).setWidth 32 = (g i).setWidth 32) : (List.range k).map f = (List.range l).map g := by
  subst hlen
  exact List.map_congr_left fun i hi => setWidth_word_injective hn (h i (List.mem_range.mp hi))

theorem bytSeq_congr (hl : AgreeOn d e (.len .byt)) (hb : AgreeOn d e (.buf .byt)) : d.bytSeq = e.bytSeq :=
  map_range_congr (by decide) (congrArg BitVec.toNat hl) hb

theorem bitSeq_congr (hl : AgreeOn d e (.len .bit)) (hb : AgreeOn d e (.buf .bit)) : d.bitSeq = e.bitSeq :=
  map_range_congr (by decide) (congrArg BitVec.toNat hl) hb

theorem symSeq_congr (hl : AgreeOn d e (.len .sym)) (hb : AgreeOn d e (.buf .sym)) : d.symSeq = e.symSeq :=
  map_range_congr (by decide) (congrArg BitVec.toNat hl) hb

theorem chrSeq_congr (hl : AgreeOn d e (.len .chr)) (hb : AgreeOn d e (.buf .chr)) : d.chrSeq = e.chrSeq :=
  map_range_congr (by decide) (congrArg BitVec.toNat hl) hb

theorem codeSeq_congr (hl : AgreeOn d e (.len .code)) (hb : AgreeOn d e (.buf .code)) : d.codeSeq = e.codeSeq :=
  map_range_congr (by decide) (congrArg BitVec.toNat hl) hb

theorem pkbSeq_congr (hl : AgreeOn d e (.len .pkb)) (hb : AgreeOn d e (.buf .pkb)) : d.pkbSeq = e.pkbSeq :=
  map_range_congr (by decide) (congrArg BitVec.toNat hl) hb

/-- REMAP reads of the memory no more than MAP (40_normalizer R105). -/
theorem remapByte_congr (h : AgreeOn d e .map) : remapByte d.mem = remapByte e.mem := by
  funext b
  simp only [remapByte, h b.toNat]

/-- BLKENC reads of the memory no more than DICT (44_block_codec R170). -/
theorem blkencCodes_congr (h : AgreeOn d e .dict) : blkencCodes p d.mem = blkencCodes p e.mem := by
  have hdict : d.mem.dictAt = e.mem.dictAt := funext h
  have hcode : dictCode d.mem = dictCode e.mem := by
    funext g
    simp only [dictCode, hdict]
  have hgroup : blkencGroup p d.mem = blkencGroup p e.mem := by
    funext j g out
    unfold blkencGroup
    rw [hcode]
  funext bits
  simp only [blkencCodes, hgroup]

/-- BLKDEC reads of the memory no more than DICT (44_block_codec R170). -/
theorem blkdecBits_congr (h : AgreeOn d e .dict) : blkdecBits p d.mem = blkdecBits p e.mem := by
  have hcode : blkdecCode p d.mem = blkdecCode p e.mem := by
    funext j c out
    simp only [blkdecCode, dictPat, h c.toNat]
  funext codes
  simp only [blkdecBits, hcode]

/-- The pseudocode of a command gives one outcome on operands that agree on its reads column. -/
theorem runOf_congr {i : Instr} (h : ∀ src ∈ readsOf i, AgreeOn d e src) : runOf i p d = runOf i p e := by
  cases i with
  | norm | valid | ser | a2b =>
    have hlen : d.lenByt = e.lenByt := h (.len .byt) (by decide)
    have hseq := bytSeq_congr hlen (h (.buf .byt) (by decide))
    simp only [runOf, normRun, validRun, serRun, a2bRun, hseq, hlen]
  | remap =>
    have hseq := bytSeq_congr (h (.len .byt) (by decide)) (h (.buf .byt) (by decide))
    simp only [runOf, remapRun, hseq, remapByte_congr (h .map (by decide))]
  | bcomp =>
    have hseq := bytSeq_congr (h (.len .byt) (by decide)) (h (.buf .byt) (by decide))
    simp only [runOf, bcompRun, hseq, blkencCodes_congr (h .dict (by decide))]
  | deserTrunc | deserPadb | pad8 | pad5 | pad10 | b2a | cenc =>
    have hlen : d.lenBit = e.lenBit := h (.len .bit) (by decide)
    have hseq := bitSeq_congr hlen (h (.buf .bit) (by decide))
    simp only [runOf, deserTruncRun, deserPadbRun, padRun, b2aRun, cencRun, hseq, hlen]
  | trim =>
    have hlen : d.lenBit = e.lenBit := h (.len .bit) (by decide)
    have hpad : d.padCnt = e.padCnt := h .padCnt (by decide)
    simp only [runOf, trimRun, hlen, hpad]
  | blkenc =>
    have hlen : d.lenBit = e.lenBit := h (.len .bit) (by decide)
    have hseq := bitSeq_congr hlen (h (.buf .bit) (by decide))
    simp only [runOf, blkencRun, hseq, hlen, blkencCodes_congr (h .dict (by decide))]
  | cdec | senc =>
    have hseq := symSeq_congr (h (.len .sym) (by decide)) (h (.buf .sym) (by decide))
    simp only [runOf, cdecRun, sencRun, hseq]
  | sdec =>
    have hseq := chrSeq_congr (h (.len .chr) (by decide)) (h (.buf .chr) (by decide))
    simp only [runOf, sdecRun, hseq]
  | pack =>
    have hseq := codeSeq_congr (h (.len .code) (by decide)) (h (.buf .code) (by decide))
    simp only [runOf, packRun, hseq]
  | blkdec =>
    have hseq := codeSeq_congr (h (.len .code) (by decide)) (h (.buf .code) (by decide))
    simp only [runOf, blkdecRun, hseq, blkdecBits_congr (h .dict (by decide))]
  | unpack =>
    have hseq := pkbSeq_congr (h (.len .pkb) (by decide)) (h (.buf .pkb) (by decide))
    simp only [runOf, unpackRun, hseq]
  | bdecomp =>
    have hseq := pkbSeq_congr (h (.len .pkb) (by decide)) (h (.buf .pkb) (by decide))
    simp only [runOf, bdecompRun, hseq, blkdecBits_congr (h .dict (by decide))]

/-! ### What a commit makes of two sets of data -/

/-- A legal commit of a buffer stages all the elements that are valid after it (10_state R30). -/
theorem Staged.Legal.len_le_count (hl : st.Legal p d) {b : Buf} {n : Nat} (hn : st.count b = some n) :
    ((d.commit st).len b).toNat ≤ n := by
  rw [Data.commit_len]
  cases hl.buf b with
  | kept hc _ | shortened hc _ _ => simp [hc] at hn
  | rewritten hc hlen _ =>
    rw [hc] at hn
    cases hn
    rw [hlen, Option.getD_some, BitVec.toNat_ofNat]
    exact Nat.mod_le _ _
  | replaced hc hlen =>
    rw [hc] at hn
    cases hn
    rw [hlen, Option.getD_none]

/-- What a legal commit writes comes out alike, whatever it is committed over. -/
theorem Staged.Legal.sameResult (hl : st.Legal p d) {x : Dest} (h : st.writes x = true) :
    SameResult (d.commit st) (e.commit st) x := by
  cases x with
  | len b =>
    obtain ⟨v, hv⟩ := Option.isSome_iff_exists.mp h
    rw [SameResult, Data.commit_len, Data.commit_len, hv, Option.getD_some, Option.getD_some]
  | buf b =>
    obtain ⟨ws, hws⟩ := Option.isSome_iff_exists.mp h
    intro j hj
    have hlt : j < ws.length :=
      Nat.lt_of_lt_of_le hj (hl.len_le_count (by rw [Staged.count_eq, hws, Option.map_some]))
    rw [Data.commit_mem, Data.commit_mem, Memory.elem_commit, Memory.elem_commit, hws, Option.getD_some,
      List.getD_eq_getElem _ _ hlt, List.getD_eq_getElem _ _ hlt]
  | hist =>
    obtain ⟨c, hc⟩ := Option.isSome_iff_exists.mp h
    intro b
    simp only [Data.commit_mem, Memory.histAt, Memory.commit_hist, hc, Option.getD_some]
  | padCnt | totalBytes | convBytes =>
    obtain ⟨v, hv⟩ := Option.isSome_iff_exists.mp h
    simp [SameResult, hv]

/-- Settles O21: both runs have the outcome of one pseudocode run (`runOf_congr`), and what it stages is the writes column
(`runOf_writes_iff`). -/
theorem commandsReadOnlyTheirColumn : Obligations.CommandsReadOnlyTheirColumn := by
  intro i s₁ s₂ t₁ t₂ hinv₁ hinv₂ hparams habort₁ habort₂ hagree hexec₁ hexec₂
  rw [exec_eq, State.finish_of_no_abort habort₁, hinv₁.operands_eq] at hexec₁
  rw [exec_eq, State.finish_of_no_abort habort₂, hinv₂.operands_eq, ← hparams, ← runOf_congr hagree] at hexec₂
  cases hexec₁
  cases hexec₂
  cases hrun : runOf i s₁.params s₁.data with
  | error e =>
    exact ⟨rfl, fun _ => ⟨rfl, rfl, rfl⟩, fun h2 => absurd h2 (by decide : statusWord false true true ≠ 2)⟩
  | ok st =>
    refine ⟨rfl, fun h6 => absurd h6 (by decide : statusWord false true false ≠ 6), fun _ x hx => ?_⟩
    exact (runOf_legal hinv₁.len hrun).sameResult ((runOf_writes_iff hrun x).mpr hx)

end Sys2Proof.Machine
end

section
/-! The load statement of a host program (spec 30_encoding R79, 20_memory R54). -/

namespace Sys2Proof.Machine

variable {s : State}

/-- The memory after the host wrote `vs` to buffer `b` from element `k` on. -/
def Memory.load (m : Memory) (b : Buf) : Nat → List Word → Memory
  | _, [] => m
  | k, v :: vs => (m.setElem b k v).load b (k + 1) vs

@[simp] theorem Memory.load_hist (m : Memory) (b : Buf) (k : Nat) (vs : List Word) : (m.load b k vs).hist = m.hist := by
  induction vs generalizing m k with
  | nil => rfl
  | cons v vs ih => rw [Memory.load, ih, Memory.setElem_hist]

@[simp] theorem Memory.load_map (m : Memory) (b : Buf) (k : Nat) (vs : List Word) : (m.load b k vs).map = m.map := by
  induction vs generalizing m k with
  | nil => rfl
  | cons v vs ih => rw [Memory.load, ih, Memory.setElem_map]

@[simp] theorem Memory.load_dict (m : Memory) (b : Buf) (k : Nat) (vs : List Word) : (m.load b k vs).dict = m.dict := by
  induction vs generalizing m k with
  | nil => rfl
  | cons v vs ih => rw [Memory.load, ih, Memory.setElem_dict]

/-- A load leaves the elements outside its range alone. -/
theorem Memory.elem_load_of_outside (m : Memory) {b c : Buf} {k i : Nat} {vs : List Word}
    (h : c ≠ b ∨ i < k ∨ k + vs.length ≤ i) : (m.load b k vs).elem c i = m.elem c i := by
  induction vs generalizing m k with
  | nil => rfl
  | cons v vs ih =>
    rw [List.length_cons] at h
    rw [Memory.load, ih _ (h.imp_right (by omega)), Memory.elem_setElem_of_ne _ (h.imp_right (by omega))]

/-- A loaded element holds the low bits of its value (20_memory R55). -/
theorem Memory.elem_load (m : Memory) (b : Buf) (k : Nat) {vs : List Word} {i : Nat} (h : i < vs.length) :
    (m.load b k vs).elem b (k + i) = BitVec.ofNat 32 (vs[i].toNat % 2 ^ elemWidth b) := by
  induction vs generalizing m k i with
  | nil => simp at h
  | cons v vs ih =>
    rw [Memory.load]
    cases i with
    | zero =>
      rw [Memory.elem_load_of_outside _ (.inr (.inl (by omega))), Nat.add_zero, Memory.elem_setElem_self,
        List.getElem_cons_zero]
    | succ i => rw [← Nat.add_assoc, Nat.add_right_comm, ih, List.getElem_cons_succ]

/-! ### The accesses of a load -/

theorem offsetOf_elem (b : Buf) (i : Nat) : offsetOf (.elem b i) = windowBase b + 4 * i := by
  rw [offsetOf, windowBase_eq]

theorem offsetOf_len (b : Buf) : offsetOf (.reg (.len b)) = lenOffset b := by
  cases b <;> rfl

/-- `s` after the host loaded `vs` into buffer `b` from element `k` on, with the events `es` next. -/
def State.loaded (s : State) (b : Buf) (k : Nat) (vs : List Word) (es : List Event) : State :=
  { s with data := { s.data with mem := s.data.mem.load b k vs }, inbox := es }

/-- The element writes of a load, run on the idle block where the elements exist. -/
theorem run_elem_writes (hp : s.params.wf = true) (hi : s.engine = .idle) (b : Buf) {vs : List Word} {k : Nat}
    (hcap : k + vs.length ≤ s.params.cap b) (es : List Event) (n : Nat) :
    Sys2Proof.core.run (vs.length + n)
        { s with inbox := (vs.zipIdx k).map (fun e => writeEvent s.params (.elem b e.2) e.1) ++ es } =
      Sys2Proof.core.run n (s.loaded b k vs es) := by
  induction vs generalizing s k with
  | nil => rw [List.length_nil, Nat.zero_add]; rfl
  | cons v vs ih =>
    simp only [List.length_cons] at hcap
    have hslot : k < s.params.cap b := by omega
    have hk : k < 2 ^ 22 := Nat.lt_of_lt_of_le hslot (Params.cap_le hp b)
    have hstep := step_withWrite_elem
      (s := { s with inbox := (vs.zipIdx (k + 1)).map (fun e => writeEvent s.params (.elem b e.2) e.1) ++ es })
      (Params.baseOk_of_wf hp) hi b hk v
    rw [if_pos hslot, ← offsetOf_elem] at hstep
    rw [List.length_cons, Nat.add_right_comm]
    have hrest : k + 1 + vs.length ≤ (s.writeElem b k v).params.cap b := by
      show k + 1 + vs.length ≤ s.params.cap b
      omega
    exact (run_succ hstep _).trans (ih (s := s.writeElem b k v) hp hi hrest)

theorem ldEvents_length (p : Params) (b : Buf) (vs : List Word) : (ldEvents p b vs).length = vs.length + 1 := by
  simp [ldEvents]

/-- A length that fits is stored as it is (10_state R26). -/
theorem clampLen_of_le {cap n : Nat} (hcap : cap ≤ 2 ^ 22) (h : n ≤ cap) :
    clampLen cap (BitVec.ofNat 32 n) = BitVec.ofNat 32 n := by
  have hn : (BitVec.ofNat 32 n).toNat = n := by rw [BitVec.toNat_ofNat, Nat.mod_eq_of_lt (by omega)]
  rw [clampLen, hn, Nat.min_eq_left h]

/-- The data after `ld`: the elements, and then the length (30_encoding R79). -/
def Data.load (d : Data) (b : Buf) (vs : List Word) : Data :=
  ({ d with mem := d.mem.load b 0 vs } : Data).setLen b (BitVec.ofNat 32 vs.length)

theorem Data.load_len (d : Data) (b : Buf) (vs : List Word) (c : Buf) :
    (d.load b vs).len c = if c = b then BitVec.ofNat 32 vs.length else d.len c := by
  rw [Data.load, Data.len_setLen]
  cases c <;> rfl

@[simp] theorem Data.load_mem (d : Data) (b : Buf) (vs : List Word) : (d.load b vs).mem = d.mem.load b 0 vs :=
  Data.setLen_mem ..

/-- The events of `ld`, run on the idle block with nothing else listed. -/
theorem run_ldEvents (hp : s.params.wf = true) (hi : s.engine = .idle) (hinbox : s.inbox = []) {b : Buf} {vs : List Word}
    (hcap : vs.length ≤ s.params.cap b) :
    Sys2Proof.core.run (vs.length + 1) { s with inbox := ldEvents s.params b vs } =
      .next { s with data := s.data.load b vs } := by
  have helems := run_elem_writes hp hi b (k := 0) (vs := vs) (by omega)
    [writeEvent s.params (.reg (.len b)) (BitVec.ofNat 32 vs.length)] 1
  have hlen := step_withWrite_len (s := s.loaded b 0 vs s.inbox) (Params.baseOk_of_wf hp) hi b (BitVec.ofNat 32 vs.length)
  rw [← offsetOf_len, show (s.loaded b 0 vs s.inbox).params = s.params from rfl,
    clampLen_of_le (Params.cap_le hp b) hcap] at hlen
  have hwrite : s.loaded b 0 vs [writeEvent s.params (.reg (.len b)) (BitVec.ofNat 32 vs.length)] =
      (s.loaded b 0 vs s.inbox).withWrite (offsetOf (.reg (.len b))) (BitVec.ofNat 32 vs.length) := by
    rw [hinbox]
    rfl
  rw [hwrite] at helems
  exact helems.trans (run_succ hlen 0)

/-- Settles O56: the element writes fill the buffer and the last write sets the length (`run_ldEvents`). -/
theorem loadStatementFillsTheBuffer : Obligations.LoadStatementFillsTheBuffer := by
  intro s b vs hinv hi hinbox hcap
  have hcap22 := Params.cap_le hinv.params b
  refine ⟨ldEvents s.params b vs, { s with data := s.data.load b vs }, rfl, ldEvents_length .., ?_, ?_, fun c hc => ?_,
    fun i h => ?_, fun c i h => ?_, ?_, ?_, ?_, Data.setLen_padCnt .., Data.setLen_totalBytes .., Data.setLen_convBytes ..,
    rfl⟩
  · rw [ldEvents_length]
    exact run_ldEvents hinv.params hi hinbox hcap
  · rw [Data.load_len, if_pos rfl, BitVec.toNat_ofNat, Nat.mod_eq_of_lt (by omega)]
  · rw [Data.load_len, if_neg hc]
  · have helem := s.data.mem.elem_load b 0 h
    rwa [Nat.zero_add, ← Data.load_mem] at helem
  · rw [Data.load_mem]
    exact Memory.elem_load_of_outside _ (h.imp_right (by omega))
  · rw [Data.load_mem, Memory.load_hist]
  · rw [Data.load_mem, Memory.load_map]
  · rw [Data.load_mem, Memory.load_dict]

end Sys2Proof.Machine
end

section
/-! The static substitution on each of its ranges (spec 40_normalizer R100 to R102). -/

namespace Sys2Proof.Machine

variable {p : Params} {b : Byte}

/-- The ranges that the substitution tells apart (40_normalizer R100). -/
theorem byte_ranges (b : Byte) :
    Printable b ∨ b.toNat ≤ 15 ∨ b = 27 ∨ b = 127 ∨ (16 ≤ b.toNat ∧ b.toNat ≤ 31 ∧ b ≠ 27) ∨ 128 ≤ b.toNat := by
  have hesc : b = 27 ↔ b.toNat = 27 := BitVec.toNat_inj.symm
  have hdel : b = 127 ↔ b.toNat = 127 := BitVec.toNat_inj.symm
  rw [hesc, hdel, Ne, hesc]
  omega

/-! ### What the constraints on the build say (40_normalizer R101, R102) -/

theorem normCtrlOk_of_wf (hp : p.wf = true) :
    p.normCtrl.length = 18 ∧ (∀ c ∈ p.normCtrl, Printable c) ∧ p.normCtrl.getD 0 0 = 48 ∧ p.normCtrl.getD 10 0 = 32 := by
  simp only [Params.wf, Bool.and_eq_true] at hp
  obtain ⟨⟨⟨⟨-, hctrl⟩, -⟩, -⟩, -⟩ := hp
  simpa [Params.normCtrlOk, and_assoc] using hctrl

theorem offsetOk_of_wf (hp : p.wf = true) : 16 ≤ p.normLinOffset ∧ p.normLinOffset ≤ 95 := by
  simp only [Params.wf, Bool.and_eq_true] at hp
  obtain ⟨⟨⟨-, hoffset⟩, -⟩, -⟩ := hp
  simpa [Params.offsetOk] using hoffset

/-- Each of the 18 values of NORM_CTRL lies in the band (40_normalizer R101). -/
theorem printable_normCtrl (hp : p.wf = true) {j : Nat} (hj : j < 18) : Printable (p.normCtrl.getD j 0) := by
  obtain ⟨hlen, hall, -⟩ := normCtrlOk_of_wf hp
  rw [List.getD_eq_getElem _ _ (hlen ▸ hj)]
  exact hall _ (List.getElem_mem _)

/-! ### The substitution, range by range (40_normalizer R100) -/

theorem normSubst_of_le_fifteen (h : b.toNat ≤ 15) : normSubst p b = p.normCtrl.getD b.toNat 0 := by
  rw [normSubst, if_neg (by omega), if_pos (.inl h), normCtrlAt, if_pos h]

theorem normSubst_esc (p : Params) : normSubst p 27 = p.normCtrl.getD 16 0 := rfl

theorem normSubst_del (p : Params) : normSubst p 127 = p.normCtrl.getD 17 0 := rfl

/-- The offset of R102 keeps the sum within a byte. -/
theorem toNat_normSubst_of_linear (hp : p.wf = true) (hlow : 16 ≤ b.toNat) (hhigh : b.toNat ≤ 31) (hesc : b ≠ 27) :
    (normSubst p b).toNat = b.toNat + p.normLinOffset := by
  have hne : b.toNat ≠ 27 := fun e => hesc (BitVec.eq_of_toNat_eq e)
  obtain ⟨-, hoffset⟩ := offsetOk_of_wf hp
  rw [normSubst, if_neg (by omega), if_neg (by omega), if_pos hhigh, BitVec.toNat_ofNat, Nat.mod_eq_of_lt (by omega)]

theorem toNat_normSubst_of_high (h : 128 ≤ b.toNat) : (normSubst p b).toNat = 48 + (b.toNat - 128) % 75 := by
  rw [normSubst, if_neg (by omega), if_neg (by omega), if_neg (by omega), BitVec.toNat_ofNat, Nat.mod_eq_of_lt (by omega)]

/-- The substitution leads into the printable band (40_normalizer R100). -/
theorem printable_normSubst (hp : p.wf = true) (b : Byte) : Printable (normSubst p b) := by
  rcases byte_ranges b with hband | hctrl | rfl | rfl | ⟨hlow, hhigh, hesc⟩ | hhigh
  · rwa [normSubst_of_printable p ((printable_iff b).mpr hband)]
  · rw [normSubst_of_le_fifteen hctrl]
    exact printable_normCtrl hp (by omega)
  · exact printable_normCtrl hp (j := 16) (by decide)
  · exact printable_normCtrl hp (j := 17) (by decide)
  · have hoffset := offsetOk_of_wf hp
    rw [Printable, toNat_normSubst_of_linear hp hlow hhigh hesc]
    omega
  · rw [Printable, toNat_normSubst_of_high hhigh]
    omega

/-- Settles O26: each range has its own equation, and the band is where the substitution leads and what it leaves alone. -/
theorem normFollowsItsFourCases : Obligations.NormFollowsItsFourCases := by
  intro p b hp
  have hband {c : Byte} (h : Printable c) : normSubst p c = c := normSubst_of_printable p ((printable_iff c).mpr h)
  obtain ⟨-, -, hnul, hnewline⟩ := normCtrlOk_of_wf hp
  refine ⟨printable_normSubst hp b, hband (printable_normSubst hp b), ?_, ?_, hband, normSubst_of_le_fifteen, ?_, ?_,
    toNat_normSubst_of_linear hp, toNat_normSubst_of_high⟩
  · exact (normSubst_of_le_fifteen (by decide)).trans hnul
  · exact (normSubst_of_le_fifteen (by decide)).trans hnewline
  · rintro rfl
    exact normSubst_esc p
  · rintro rfl
    exact normSubst_del p

end Sys2Proof.Machine
end

section
/-! What NORM, VALID and REMAP do, and VALID after NORM (spec 40_normalizer R103 to R106). -/

namespace Sys2Proof.Machine

/-! ### NORM and REMAP -/

theorem not_printable_eq_decide (b : Byte) : (!printable b) = decide (¬ Printable b) := by
  rw [Bool.eq_iff_iff, Bool.not_eq_true', decide_eq_true_eq, ← printable_iff, Bool.not_eq_true]

/-- Settles O24: NORM stages the substitute of every byte (`normRun_ok`), which in the band is the byte, and its histogram
counts the bytes outside (`entry_histOf`). -/
theorem normSubstitutesAndCounts : Obligations.NormSubstitutesAndCounts := by
  refine ⟨rfl, fun s habort hlen => ⟨histOf [] s.operands.bytSeq, fun b => ?_, completes_of_ok habort ?_⟩⟩
  · rw [entry_histOf]
    exact zero_add _
  · have hsubst (b : Byte) : normSubst s.params b = if Printable b then b else normSubst s.params b := by
      split
      · next hb => exact normSubst_of_printable _ ((printable_iff b).mpr hb)
      · rfl
    rw [runOf, normRun_ok hlen, funext not_printable_eq_decide, List.map_congr_left fun b _ => hsubst b]

/-- Settles O28: REMAP stages the substitute of every byte (`remapRun_ok`). -/
theorem remapSubstitutesMappedBytes : Obligations.RemapSubstitutesMappedBytes :=
  ⟨rfl, fun _ habort hlen => completes_of_ok habort (remapRun_ok hlen)⟩

/-! ### VALID -/

/-- A loop that only checks its elements passes where each of them passes. -/
theorem forEach_check_ok {α : Type} {q : α → Bool} {err : Nat → α → Raise} {xs : List α}
    (h : ∀ x ∈ xs, q x = true) (k : Nat) :
    forEach (fun i x (_ : Unit) => if q x then .ok () else .error (err i x)) k xs () = .ok () := by
  induction xs generalizing k with
  | nil => rfl
  | cons x rest ih =>
    obtain ⟨hx, hrest⟩ := List.forall_mem_cons.mp h
    simp only [forEach, hx, if_true]
    exact ih hrest (k + 1)

/-- A loop that only checks its elements raises at the first that does not pass. -/
theorem forEach_check_error {α : Type} {q : α → Bool} {err : Nat → α → Raise} {xs ys : List α} {x : α}
    (h : ∀ y ∈ xs, q y = true) (hx : q x = false) (k : Nat) :
    forEach (fun i x (_ : Unit) => if q x then .ok () else .error (err i x)) k (xs ++ x :: ys) () =
      .error (err (k + xs.length) x) := by
  rw [forEach_append, forEach_check_ok h]
  simp [forEach, hx]

/-- VALID over bytes that all lie in the band (40_normalizer R104). -/
theorem validRun_ok {d : Data} (h : ∀ b ∈ d.bytSeq, Printable b) : validRun d = .ok {} := by
  rw [validRun, forEach_check_ok fun b hb => (printable_iff b).mpr (h b hb)]

/-- VALID over bytes of which the first outside the band is `b` (40_normalizer R104). -/
theorem validRun_error {d : Data} {xs ys : List Byte} {b : Byte} (hseq : d.bytSeq = xs ++ b :: ys)
    (hxs : ∀ x ∈ xs, Printable x) (hb : ¬ Printable b) :
    validRun d = .error ⟨.invalidInput, xs.length, b.toNat⟩ := by
  have hb' : printable b = false := Bool.eq_false_iff.mpr fun h => hb ((printable_iff b).mp h)
  rw [validRun, hseq, forEach_check_error (fun x hx => (printable_iff x).mpr (hxs x hx)) hb', Nat.zero_add]

/-- Settles O27. -/
theorem validReportsTheFirstOffender : Obligations.ValidReportsTheFirstOffender :=
  ⟨rfl, fun _ habort => ⟨fun hall => completes_of_ok habort (validRun_ok hall),
    fun _ _ _ hseq hxs hb => fails_of_error (i := .valid) habort (validRun_error hseq hxs hb)⟩⟩

/-! ### VALID after NORM -/

variable {s t : State}

/-- NORM on the idle block commits the substitute of every valid byte (40_normalizer R103). -/
theorem Runs.norm_bytSeq (h : Inv s) (hr : Runs .norm s t) :
    t.status = 2 ∧ t.data.bytSeq = s.data.bytSeq.map (normSubst s.params) := by
  have hends := (completes_of_ok (i := .norm) (s := s.issue (encode .norm)) rfl (normRun_ok (h.len .byt))).ends
    (hr.exec_issue rfl)
  have hlen : t.data.lenByt = s.data.lenByt := hends.len .byt
  refine ⟨hends.status, hends.bytSeq_eq rfl ?_⟩
  rw [hlen, List.length_map, Data.bytSeq_length]

/-- VALID on the idle block ends normally where every valid byte lies in the band (40_normalizer R104). -/
theorem Runs.valid_status (hr : Runs .valid s t) (h : ∀ b ∈ s.data.bytSeq, Printable b) : t.status = 2 :=
  ((completes_of_ok (i := .valid) (s := s.issue (encode .valid)) rfl (validRun_ok h)).ends (hr.exec_issue rfl)).status

/-- Settles O48: what NORM commits lies in the band (`printable_normSubst`). -/
theorem validAfterNormSucceeds : Obligations.ValidAfterNormSucceeds := by
  intro s t u hinv hnorm hvalid
  obtain ⟨hstatus, hseq⟩ := Runs.norm_bytSeq hinv hnorm
  refine ⟨hstatus, hvalid.valid_status ?_⟩
  rw [hseq, List.forall_mem_map]
  exact fun b _ => printable_normSubst hinv.params b

end Sys2Proof.Machine
end

section
/-! SER, PAD, DESER and TRIM: one equation for each command's pseudocode, in each of its outcomes (spec 41_bit_serializer
R120 to R124). -/

namespace Sys2Proof.Machine

variable {α β : Type} {p : Params} {d : Data}

/-! ### A command with one success and one error -/

/-- How a command ends whose pseudocode commits `st` where `c` holds and raises `e` where it does not. -/
theorem ends_of_run_ite {i : Instr} {s : State} {st : Staged} {e : Raise} {c : Prop} [Decidable c]
    (habort : s.abortReq = false) (h : runOf i s.params s.operands = if c then .ok st else .error e) :
    (c → Completes i s st) ∧ (¬ c → Fails i s e.code e.pos e.val) :=
  ⟨fun hc => completes_of_ok habort (h.trans (if_pos hc)), fun hc => fails_of_error habort (h.trans (if_neg hc))⟩

/-- A loop that stages one element for each element: everything where it fits, and otherwise CAPACITY at the first index
past the capacity (60_exceptions R202). -/
theorem forEach_emit_eq (p : Params) (b : Buf) (pos : Nat → Nat) (f : α → β) (xs : List α) :
    forEach (fun i x out => emit p b (pos i) out (f x)) 0 xs [] =
      if xs.length ≤ p.cap b then .ok (xs.map f) else .error ⟨.capacity, pos (p.cap b), bufId b⟩ := by
  split
  · next hfit => rw [forEach_emit_ok (by simpa using hfit), List.nil_append]
  · next hfull =>
    rw [forEach_emit_full (Nat.zero_le _) (by simpa using hfull), List.length_nil, Nat.sub_zero, Nat.zero_add]

/-! ### SER -/

/-- The bits of SER: 8 for each byte, and the byte whose bits do not all fit is the one at index `CAP_BIT div 8`
(41_bit_serializer R120). -/
theorem serBits_eq (p : Params) (bytes : List Byte) :
    serBits p bytes =
      if 8 * bytes.length ≤ p.capBit then .ok (bytes.flatMap bitsOf) else .error ⟨.capacity, p.capBit / 8, 2⟩ := by
  unfold serBits
  split
  · next hfit =>
    have hlen : (bytes.flatMap bitsOf).length ≤ p.cap .bit := by rwa [length_flatMap_bitsOf]
    rw [forEach_emitAll_ok (by simpa only [List.length_nil, Nat.zero_add] using hlen), List.nil_append]
  · next hfull =>
    have hlt : p.capBit / 8 < bytes.length := by omega
    have hlen : (bytes.take (p.capBit / 8)).length = p.capBit / 8 := List.length_take_of_le hlt.le
    rw [← List.take_append_drop (p.capBit / 8) bytes, List.drop_eq_getElem_cons hlt, forEach_emitAll_full, hlen,
      Nat.zero_add, bufId]
    · rw [length_flatMap_bitsOf, hlen, List.length_nil, Params.cap]
      omega
    · rw [length_flatMap_bitsOf, hlen, bitsOf_length, List.length_nil, Params.cap]
      omega

theorem serRun_eq (p : Params) (d : Data) :
    serRun p d =
      if 8 * d.lenByt.toNat ≤ p.capBit then
        .ok { bit := some (d.bytSeq.flatMap bitsOf), lenBit := some (BitVec.ofNat 32 (8 * d.lenByt.toNat)) }
      else .error ⟨.capacity, p.capBit / 8, 2⟩ := by
  rw [serRun, serBits_eq, Data.bytSeq_length]
  split_ifs
  · simp only [length_flatMap_bitsOf, Data.bytSeq_length]
  · rfl

/-- Settles O29: the two outcomes of `serRun_eq`. -/
theorem serEmitsMsbFirst : Obligations.SerEmitsMsbFirst := by
  refine ⟨rfl, fun s habort => ?_⟩
  obtain ⟨hok, herr⟩ := ends_of_run_ite (i := .ser) habort (serRun_eq s.params s.operands)
  exact ⟨hok, fun hcap => herr (Nat.not_le.mpr hcap)⟩

/-! ### PAD -/

/-- PAD on a bit string that fits (41_bit_serializer R122). -/
theorem padRun_eq (w : Nat) (hlen : d.lenBit.toNat ≤ p.capBit) :
    padRun w p d =
      if d.lenBit.toNat + padCount d.lenBit.toNat w ≤ p.capBit then
        .ok { bit := some (d.bitSeq ++ List.replicate (padCount d.lenBit.toNat w) 0#1)
              lenBit := some (BitVec.ofNat 32 (d.lenBit.toNat + padCount d.lenBit.toNat w))
              padCnt := some (BitVec.ofNat 32 (padCount d.lenBit.toNat w)) }
      else .error ⟨.capacity, d.lenBit.toNat, 2⟩ := by
  rw [padRun]
  split_ifs with hfit
  · rw [emitAll_ok (by simpa [Params.cap] using hfit)]
    simp
  · rw [emitAll_full (by simpa [Params.cap] using hfit) (by simpa [Params.cap] using hlen)]
    rfl

/-- The three modes of PAD are one pseudocode at three widths (41_bit_serializer R122). -/
theorem runOf_pad : ∀ e ∈ [(Instr.pad8, 8), (.pad5, 5), (.pad10, 10)], runOf e.1 = padRun e.2 := by
  simp only [List.forall_mem_cons]
  exact ⟨rfl, rfl, rfl, nofun⟩

/-- Settles O30: the two outcomes of `padRun_eq`, for each width. -/
theorem padAppendsZerosAndRecordsTheCount : Obligations.PadAppendsZerosAndRecordsTheCount := by
  refine ⟨rfl, rfl, rfl, fun e he s habort => ?_⟩
  have hends (hlen : s.operands.lenBit.toNat ≤ s.params.capBit) :=
    ends_of_run_ite (i := e.1) habort ((congrFun₂ (runOf_pad e he) _ _).trans (padRun_eq e.2 hlen))
  exact ⟨fun hfit => (hends (Nat.le_of_add_right_le hfit)).1 hfit,
    fun hlen hcap => (hends hlen).2 (Nat.not_le.mpr hcap)⟩

/-! ### DESER -/

/-- The bits past the last whole group are in no group. -/
theorem groupsOf_take_groups {w : Nat} (hw : 0 < w) (xs : List α) :
    groupsOf w (xs.take (w * (xs.length / w))) = groupsOf w xs := by
  have hlen : (xs.take (w * (xs.length / w))).length = w * (xs.length / w) :=
    List.length_take_of_le (Nat.mul_div_le _ _)
  have hrest : (xs.drop (w * (xs.length / w))).length < w := by
    rw [length_drop_groups]
    exact Nat.mod_lt _ hw
  conv_rhs => rw [← List.take_append_drop (w * (xs.length / w)) xs, groupsOf_append_rest hw, hlen,
    Nat.mul_div_cancel_left _ hw, List.drop_of_length_le hlen.le, List.nil_append, groupsOf_of_lt hrest, List.append_nil]

theorem groupByte_bitsOf (b : Byte) : groupByte (bitsOf b) = b := by simp [groupByte]

/-- The bytes of DESER (41_bit_serializer R123). -/
theorem deserBytes_eq (p : Params) (bits : List Bit) :
    deserBytes p bits =
      if bits.length / 8 ≤ p.capByt then .ok ((groupsOf 8 bits).map groupByte)
      else .error ⟨.capacity, 8 * p.capByt, 1⟩ := by
  rw [deserBytes, forEach_emit_eq (pos := fun j => 8 * j), groupsOf_length]
  rfl

theorem deserTruncRun_eq (p : Params) (d : Data) :
    deserTruncRun p d =
      if d.lenBit.toNat / 8 ≤ p.capByt then
        .ok { byt := some ((groupsOf 8 d.bitSeq).map groupByte)
              lenByt := some (BitVec.ofNat 32 (d.lenBit.toNat / 8)) }
      else .error ⟨.capacity, 8 * p.capByt, 1⟩ := by
  have hgroups := groupsOf_take_groups (w := 8) (by decide) d.bitSeq
  have hlen : (d.bitSeq.take (8 * (d.lenBit.toNat / 8))).length / 8 = d.lenBit.toNat / 8 := by
    rw [List.length_take_of_le (by simpa using Nat.mul_div_le _ _), Nat.mul_div_cancel_left _ (by decide)]
  rw [Data.bitSeq_length] at hgroups
  rw [deserTruncRun, deserBytes_eq, hgroups, hlen]
  split_ifs
  · simp
  · rfl

theorem deserPadbRun_eq (p : Params) (d : Data) :
    deserPadbRun p d =
      if (d.lenBit.toNat + padCount d.lenBit.toNat 8) / 8 ≤ p.capByt then
        .ok { byt := some ((groupsOf 8 (padZeros d.bitSeq (padCount d.lenBit.toNat 8))).map groupByte)
              lenByt := some (BitVec.ofNat 32 ((d.lenBit.toNat + padCount d.lenBit.toNat 8) / 8))
              padCnt := some (BitVec.ofNat 32 (padCount d.lenBit.toNat 8)) }
      else .error ⟨.capacity, 8 * p.capByt, 1⟩ := by
  rw [deserPadbRun, deserBytes_eq, padZeros_length, Data.bitSeq_length]
  split_ifs
  · simp
  · rfl

/-- Settles O31: the two outcomes of each mode. -/
theorem deserReadsBytesMsbFirst : Obligations.DeserReadsBytesMsbFirst := by
  refine ⟨rfl, rfl, fun s habort => ?_⟩
  obtain ⟨htrunc, htruncErr⟩ := ends_of_run_ite (i := .deserTrunc) habort (deserTruncRun_eq s.params s.operands)
  obtain ⟨hpadb, hpadbErr⟩ := ends_of_run_ite (i := .deserPadb) habort (deserPadbRun_eq s.params s.operands)
  exact ⟨htrunc, fun hcap => htruncErr (Nat.not_le.mpr hcap), hpadb, fun hcap => hpadbErr (Nat.not_le.mpr hcap)⟩

/-! ### TRIM -/

/-- TRIM's difference does not wrap (41_bit_serializer R124). -/
theorem trimRun_eq (d : Data) :
    trimRun d =
      if d.padCnt.toNat ≤ d.lenBit.toNat then
        .ok { lenBit := some (BitVec.ofNat 32 (d.lenBit.toNat - d.padCnt.toNat)) }
      else .error ⟨.padRange, d.lenBit.toNat, d.padCnt.toNat⟩ := by
  unfold trimRun
  split
  · next hlt => rw [if_neg (Nat.not_le.mpr hlt)]
  · next hle =>
    have hle' : d.padCnt.toNat ≤ d.lenBit.toNat := Nat.not_lt.mp hle
    rw [if_pos hle', ← BitVec.toNat_sub_of_le (BitVec.le_def.mpr hle'), BitVec.ofNat_toNat, BitVec.setWidth_eq]

/-- Settles O32: the two outcomes of `trimRun_eq`. -/
theorem trimRemovesTheRecordedPadding : Obligations.TrimRemovesTheRecordedPadding := by
  refine ⟨rfl, fun s habort => ?_⟩
  obtain ⟨hok, herr⟩ := ends_of_run_ite (i := .trim) habort (trimRun_eq s.operands)
  exact ⟨hok, fun hlt => herr (Nat.not_le.mpr hlt)⟩

end Sys2Proof.Machine
end

section
/-! A2B and B2A: bits as the characters 0 and 1 (spec 41_bit_serializer R125, R126). -/

namespace Sys2Proof.Machine

variable {p : Params} {d : Data}

/-- One of the two characters of a binary text (41_bit_serializer R125). -/
abbrev BinaryChar (c : Byte) : Prop := c = 0x30#8 ∨ c = 0x31#8

/-- The bit that A2B reads from a character of a binary text (41_bit_serializer R125). -/
def bitOfChar (c : Byte) : Bit := if c = 0x31#8 then 1#1 else 0#1

/-- The character that B2A writes for a bit (41_bit_serializer R126). -/
def charOfBit (b : Bit) : Byte := if b = 1#1 then 0x31#8 else 0x30#8

theorem binaryChar_charOfBit : ∀ b : Bit, BinaryChar (charOfBit b) := by decide

theorem bitOfChar_charOfBit : ∀ b : Bit, bitOfChar (charOfBit b) = b := by decide

/-- The pseudocode's sum is the character (41_bit_serializer R126). -/
theorem add_setWidth_eq_charOfBit : ∀ b : Bit, 0x30#8 + b.setWidth 8 = charOfBit b := by decide

/-! ### B2A -/

theorem b2aRun_eq (p : Params) (d : Data) :
    b2aRun p d =
      if d.lenBit.toNat ≤ p.capByt then
        .ok { byt := some (d.bitSeq.map charOfBit), lenByt := some (BitVec.ofNat 32 d.lenBit.toNat) }
      else .error ⟨.capacity, p.capByt, 1⟩ := by
  simp only [b2aRun, add_setWidth_eq_charOfBit]
  rw [forEach_emit_eq (pos := fun i => i), Data.bitSeq_length, Params.cap]
  split_ifs
  · simp
  · rfl

/-- Settles O34: the two outcomes of `b2aRun_eq`. -/
theorem b2aWritesBinaryText : Obligations.B2aWritesBinaryText := by
  refine ⟨rfl, fun s habort => ?_⟩
  obtain ⟨hok, herr⟩ := ends_of_run_ite (i := .b2a) habort (b2aRun_eq s.params s.operands)
  exact ⟨hok, fun hcap => herr (Nat.not_le.mpr hcap)⟩

/-! ### A2B -/

theorem a2bChar_of_binary {c : Byte} (h : BinaryChar c) (i : Nat) (out : List Bit) :
    a2bChar p i c out = emit p .bit i out (bitOfChar c) := by
  obtain rfl | rfl := h
  · rfl
  · rfl

theorem a2bChar_of_not_binary {c : Byte} (h : ¬ BinaryChar c) (i : Nat) (out : List Bit) :
    a2bChar p i c out = .error ⟨.invalidInput, i, c.toNat⟩ := by
  obtain ⟨hzero, hone⟩ := not_or.mp h
  rw [a2bChar, if_neg hzero, if_neg hone]

/-- Two loops whose bodies agree on the elements of the sequence agree. -/
theorem forEach_congr {α σ : Type} {f g : Nat → α → σ → Except Raise σ} {xs : List α}
    (h : ∀ x ∈ xs, ∀ i st, f i x st = g i x st) (k : Nat) (st : σ) : forEach f k xs st = forEach g k xs st := by
  induction xs generalizing k st with
  | nil => rfl
  | cons x rest ih =>
    obtain ⟨hx, hrest⟩ := List.forall_mem_cons.mp h
    simp only [forEach, hx, ih hrest]

/-- A2B's loop over a binary text (41_bit_serializer R125). -/
theorem forEach_a2bChar_of_binary {cs : List Byte} (h : ∀ c ∈ cs, BinaryChar c) :
    forEach (a2bChar p) 0 cs [] =
      if cs.length ≤ p.capBit then .ok (cs.map bitOfChar) else .error ⟨.capacity, p.capBit, 2⟩ := by
  rw [forEach_congr fun c hc i out => a2bChar_of_binary (h c hc) i out, forEach_emit_eq (pos := fun i => i)]
  rfl

/-- A2B on a binary text (41_bit_serializer R125). -/
theorem a2bRun_of_binary (h : ∀ c ∈ d.bytSeq, BinaryChar c) :
    a2bRun p d =
      if d.lenByt.toNat ≤ p.capBit then
        .ok { bit := some (d.bytSeq.map bitOfChar), lenBit := some (BitVec.ofNat 32 d.lenByt.toNat) }
      else .error ⟨.capacity, p.capBit, 2⟩ := by
  rw [a2bRun, forEach_a2bChar_of_binary h, Data.bytSeq_length]
  split_ifs
  · simp
  · rfl

/-- A2B stops at the first character that is not binary, unless it ran out of room before (41_bit_serializer R125). -/
theorem a2bRun_invalidInput {xs ys : List Byte} {c : Byte} (hseq : d.bytSeq = xs ++ c :: ys)
    (hxs : ∀ x ∈ xs, BinaryChar x) (hc : ¬ BinaryChar c) (hlen : xs.length ≤ p.capBit) :
    a2bRun p d = .error ⟨.invalidInput, xs.length, c.toNat⟩ := by
  rw [a2bRun, hseq, forEach_append, forEach_a2bChar_of_binary hxs, if_pos hlen]
  simp only [forEach, a2bChar_of_not_binary hc, Nat.zero_add]

/-- A2B runs out of room where the characters up to the first that does not fit are binary (41_bit_serializer R125). -/
theorem a2bRun_capacity (hcap : p.capBit < d.lenByt.toNat) (h : ∀ c ∈ d.bytSeq.take (p.capBit + 1), BinaryChar c) :
    a2bRun p d = .error ⟨.capacity, p.capBit, 2⟩ := by
  have hlen : (d.bytSeq.take (p.capBit + 1)).length = p.capBit + 1 := List.length_take_of_le (by simpa using hcap)
  rw [a2bRun, ← List.take_append_drop (p.capBit + 1) d.bytSeq, forEach_append, forEach_a2bChar_of_binary h,
    if_neg (by omega)]

/-- Settles O33. -/
theorem a2bParsesBinaryText : Obligations.A2bParsesBinaryText :=
  ⟨rfl, fun _ habort =>
    ⟨fun hbinary hlen => completes_of_ok (i := .a2b) habort ((a2bRun_of_binary hbinary).trans (if_pos hlen)),
      fun _ _ _ hseq hxs hc hlen => fails_of_error (i := .a2b) habort (a2bRun_invalidInput hseq hxs hc hlen),
      fun hcap hbinary => fails_of_error (i := .a2b) habort (a2bRun_capacity hcap hbinary)⟩⟩

end Sys2Proof.Machine
end

section
/-! What the commands of the Bit Serializer undo of each other (spec 41_bit_serializer R127). -/

namespace Sys2Proof.Machine

variable {i : Instr} {s t u : State} {st : Staged}

/-! ### A command run on the idle block -/

theorem Runs.endsNormally (hr : Runs i s t) (h : runOf i s.params s.data = .ok st) :
    EndsNormally (s.issue (encode i)) t st :=
  (completes_of_ok (s := s.issue (encode i)) rfl h).ends (hr.exec_issue (decode_encode i))

theorem Runs.endsInError (hr : Runs i s t) {e : Raise} (h : runOf i s.params s.data = .error e) :
    EndsInError (s.issue (encode i)) t e.code e.pos e.val :=
  (fails_of_error (s := s.issue (encode i)) rfl h).ends (hr.exec_issue (decode_encode i))

/-- A command that can only succeed where `c` holds, and ended with STATUS 2, has met `c` and made its commit. -/
theorem Runs.endsNormally_of_status (hr : Runs i s t) (hstatus : t.status = 2) {e : Raise} {c : Prop} [Decidable c]
    (h : runOf i s.params s.data = if c then .ok st else .error e) : c ∧ EndsNormally (s.issue (encode i)) t st := by
  by_cases hc : c
  · exact ⟨hc, hr.endsNormally (h.trans (if_pos hc))⟩
  · have hsix := (hr.endsInError (h.trans (if_neg hc))).status
    rw [hstatus] at hsix
    exact absurd hsix (by decide)

/-! ### The committed buffer -/

theorem toNat_ofNat_of_le_cap {p : Params} (hp : p.wf = true) {b : Buf} {n : Nat} (h : n ≤ p.cap b) :
    (BitVec.ofNat 32 n).toNat = n := by
  have hcap := Params.cap_le hp b
  rw [BitVec.toNat_ofNat, Nat.mod_eq_of_lt (by omega)]

/-- A command that commits a whole bit string and its length leaves it as the valid bits. -/
theorem EndsNormally.bit_rewritten (h : EndsNormally s t st) (hp : s.params.wf = true) {bits : List Bit} {n : Nat}
    (hbit : st.bit = some bits) (hlen : st.lenBit = some (BitVec.ofNat 32 n)) (hn : bits.length = n)
    (hcap : n ≤ s.params.capBit) : t.data.lenBit.toNat = n ∧ t.data.bitSeq = bits := by
  have hl : t.data.lenBit = st.lenBit.getD s.data.lenBit := h.len .bit
  have hl' : t.data.lenBit.toNat = n := by
    rw [hl, hlen]
    exact toNat_ofNat_of_le_cap hp (b := .bit) hcap
  exact ⟨hl', h.bitSeq_eq hbit (hl'.trans hn.symm)⟩

/-- A command that commits a whole byte string and its length leaves it as the valid bytes. -/
theorem EndsNormally.byt_rewritten (h : EndsNormally s t st) (hp : s.params.wf = true) {bytes : List Byte} {n : Nat}
    (hbyt : st.byt = some bytes) (hlen : st.lenByt = some (BitVec.ofNat 32 n)) (hn : bytes.length = n)
    (hcap : n ≤ s.params.capByt) : t.data.lenByt.toNat = n ∧ t.data.bytSeq = bytes := by
  have hl : t.data.lenByt = st.lenByt.getD s.data.lenByt := h.len .byt
  have hl' : t.data.lenByt.toNat = n := by
    rw [hl, hlen]
    exact toNat_ofNat_of_le_cap hp (b := .byt) hcap
  exact ⟨hl', h.bytSeq_eq hbyt (hl'.trans hn.symm)⟩

/-- A command that only shortens LEN_BIT keeps the first of the valid bits. -/
theorem EndsNormally.bit_shortened (h : EndsNormally s t st) (hbit : st.bit = none)
    (hle : t.data.lenBit.toNat ≤ s.data.lenBit.toNat) : t.data.bitSeq = s.data.bitSeq.take t.data.lenBit.toNat := by
  have hbits (j : Nat) : t.data.mem.bitAt j = s.data.mem.bitAt j :=
    setWidth_word_injective (by decide) (by simpa [Staged.elems, hbit, Memory.elem] using h.elem .bit j)
  rw [Data.bitSeq, Data.bitSeq, ← List.map_take, List.take_range, Nat.min_eq_left hle, funext hbits]

/-! ### What each command leaves for the next -/

/-- SER that ends with STATUS 2 leaves the bits of the valid bytes (41_bit_serializer R120). -/
theorem Runs.ser_bits (hr : Runs .ser s t) (hp : s.params.wf = true) (hstatus : t.status = 2) :
    t.params = s.params ∧ t.data.lenBit.toNat ≤ t.params.capBit ∧
      t.data.bitSeq = s.data.bytSeq.flatMap bitsOf := by
  obtain ⟨hfit, hends⟩ := hr.endsNormally_of_status hstatus (serRun_eq s.params s.data)
  obtain ⟨hlen, hseq⟩ := hends.bit_rewritten hp rfl rfl (by rw [length_flatMap_bitsOf, Data.bytSeq_length]) hfit
  have hparams : t.params = s.params := hends.params
  exact ⟨hparams, by rwa [hlen, hparams], hseq⟩

/-- DESER.TRUNC restores the bytes of an earlier state where the valid bits are theirs (41_bit_serializer R123, R127). -/
theorem Runs.deserTrunc_restores (hr : Runs .deserTrunc t u) (hinv : Inv s) (hparams : t.params = s.params)
    (hseq : t.data.bitSeq = s.data.bytSeq.flatMap bitsOf) :
    u.status = 2 ∧ u.data.lenByt = s.data.lenByt ∧ u.data.bytSeq = s.data.bytSeq := by
  have hgroups : (groupsOf 8 t.data.bitSeq).map groupByte = s.data.bytSeq := by
    have h := groupsOf_flatMap (w := 8) (f := bitsOf (n := 8)) (by decide) bitsOf_length s.data.bytSeq (tail := [])
      (by decide)
    rw [List.append_nil] at h
    rw [hseq, h, List.map_map, funext (f := groupByte ∘ bitsOf) (g := id) groupByte_bitsOf, List.map_id]
  have hlen : t.data.lenBit.toNat / 8 = s.data.lenByt.toNat := by
    rw [← Data.bitSeq_length, hseq, length_flatMap_bitsOf, Data.bytSeq_length, Nat.mul_div_cancel_left _ (by decide)]
  have hcap : s.data.lenByt.toNat ≤ t.params.capByt := hparams ▸ hinv.len .byt
  have hrun := deserTruncRun_eq t.params t.data
  rw [hgroups, hlen, if_pos hcap] at hrun
  have hends := hr.endsNormally hrun
  obtain ⟨hlen', hseq'⟩ := hends.byt_rewritten (hparams ▸ hinv.params) rfl rfl s.data.bytSeq_length hcap
  exact ⟨hends.status, BitVec.eq_of_toNat_eq hlen', hseq'⟩

/-- PAD that ends with STATUS 2 leaves the bits with zeros after them, and their number in PAD_CNT
(41_bit_serializer R122). -/
theorem Runs.pad_bits {w : Nat} (hi : runOf i = padRun w) (hr : Runs i s t) (hp : s.params.wf = true)
    (hcap : s.data.lenBit.toNat ≤ s.params.capBit) (hstatus : t.status = 2) :
    t.params = s.params ∧ t.data.lenBit.toNat = s.data.lenBit.toNat + t.data.padCnt.toNat ∧
      t.data.bitSeq = s.data.bitSeq ++ List.replicate t.data.padCnt.toNat 0#1 := by
  obtain ⟨hfit, hends⟩ := hr.endsNormally_of_status hstatus ((congrFun₂ hi _ _).trans (padRun_eq w hcap))
  obtain ⟨hlen, hseq⟩ := hends.bit_rewritten hp rfl rfl (by simp) hfit
  have hcount : t.data.padCnt.toNat = padCount s.data.lenBit.toNat w := by
    rw [hends.padCnt]
    exact toNat_ofNat_of_le_cap hp (b := .bit) (Nat.le_of_add_left_le hfit)
  exact ⟨hends.params, hcount ▸ hlen, hcount ▸ hseq⟩

/-- TRIM drops PAD_CNT bits from the end (41_bit_serializer R124). -/
theorem Runs.trim_bits (hr : Runs .trim s t) (hle : s.data.padCnt.toNat ≤ s.data.lenBit.toNat) :
    t.status = 2 ∧ t.params = s.params ∧
      t.data.bitSeq = s.data.bitSeq.take (s.data.lenBit.toNat - s.data.padCnt.toNat) := by
  have hends := hr.endsNormally ((trimRun_eq s.data).trans (if_pos hle))
  have hlen : t.data.lenBit.toNat = s.data.lenBit.toNat - s.data.padCnt.toNat := by
    have hl : t.data.lenBit = BitVec.ofNat 32 (s.data.lenBit.toNat - s.data.padCnt.toNat) := hends.len .bit
    have hlt := s.data.lenBit.isLt
    rw [hl, BitVec.toNat_ofNat, Nat.mod_eq_of_lt (by omega)]
  have hseq := hends.bit_shortened rfl (by rw [hlen]; exact Nat.sub_le _ _)
  rw [hlen] at hseq
  exact ⟨hends.status, hends.params, hseq⟩

/-! ### The laws -/

/-- Settles O49: SER leaves bits that DESER.TRUNC reads back. -/
theorem deserAfterSerRestoresBytes : Obligations.DeserAfterSerRestoresBytes := by
  intro s t u hinv hser hstatus hdeser
  obtain ⟨hparams, -, hseq⟩ := hser.ser_bits hinv.params hstatus
  exact hdeser.deserTrunc_restores hinv hparams hseq

/-- Settles O50: TRIM takes away the zeros that PAD appended, which leaves the bits of SER. -/
theorem paddingIsUndoneByTrim : Obligations.PaddingIsUndoneByTrim := by
  intro s t₁ t₂ t₃ u pad hpad hinv hser hstatus₁ hrpad hstatus₂ htrim hdeser
  obtain ⟨w, hw⟩ : ∃ w, runOf pad = padRun w := by
    obtain ⟨e, he, rfl⟩ := List.mem_map.mp
      (show pad ∈ [(Instr.pad8, 8), (.pad5, 5), (.pad10, 10)].map Prod.fst from hpad)
    exact ⟨e.2, runOf_pad e he⟩
  obtain ⟨hparams₁, hcap, hseq₁⟩ := hser.ser_bits hinv.params hstatus₁
  obtain ⟨hparams₂, hlen₂, hseq₂⟩ := hrpad.pad_bits hw (hparams₁ ▸ hinv.params) hcap hstatus₂
  obtain ⟨hstatus₃, hparams₃, hseq₃⟩ := htrim.trim_bits (by rw [hlen₂]; exact Nat.le_add_left _ _)
  have hparams : t₃.params = s.params := hparams₃.trans (hparams₂.trans hparams₁)
  have hseq : t₃.data.bitSeq = s.data.bytSeq.flatMap bitsOf := by
    rw [hseq₃, hlen₂, Nat.add_sub_cancel, hseq₂, ← Data.bitSeq_length, List.take_left, hseq₁]
  exact ⟨hstatus₃, hdeser.deserTrunc_restores hinv hparams hseq⟩

/-- Settles O51: B2A writes a binary text, and A2B reads each of its characters as the bit it was written for. -/
theorem a2bAfterB2aRestoresBits : Obligations.A2bAfterB2aRestoresBits := by
  intro s t u hinv hb2a hstatus ha2b
  obtain ⟨hfit, hends⟩ := hb2a.endsNormally_of_status hstatus (b2aRun_eq s.params s.data)
  obtain ⟨hlen, hseq⟩ := hends.byt_rewritten hinv.params rfl rfl (by simp) hfit
  have hparams : t.params = s.params := hends.params
  have hbinary : ∀ c ∈ t.data.bytSeq, BinaryChar c := by
    rw [hseq, List.forall_mem_map]
    exact fun b _ => binaryChar_charOfBit b
  have hbits : t.data.bytSeq.map bitOfChar = s.data.bitSeq := by
    rw [hseq, List.map_map, funext (f := bitOfChar ∘ charOfBit) (g := id) bitOfChar_charOfBit, List.map_id]
  have hcap : t.data.lenByt.toNat ≤ t.params.capBit := by
    rw [hlen, hparams]
    exact hinv.len .bit
  have hends' := ha2b.endsNormally ((a2bRun_of_binary hbinary).trans (if_pos hcap))
  obtain ⟨hlen', hseq'⟩ := hends'.bit_rewritten (hparams ▸ hinv.params) rfl rfl (by simp) hcap
  exact ⟨hends'.status, BitVec.eq_of_toNat_eq (hlen'.trans hlen), hseq'.trans hbits⟩

end Sys2Proof.Machine
end

section
/-! Longest match: every sequence has its greedy tokens, and LM answers them (spec 42_chunk_codec R140). -/

namespace Sys2Proof.Machine

variable {σ : Type} {keys ts : List (List Byte)} {s : List Byte}

/-- Taking the longest matching key again and again ends where no key matches: a key is not empty, so each token leaves
less of the sequence. -/
theorem exists_tokenizes (hne : [] ∉ keys) (s : List Byte) :
    ∃ ts rest, Tokenizes keys s ts rest ∧ ∀ k ∈ keys, ¬ k <+: rest := by
  induction hlen : s.length using Nat.strong_induction_on generalizing s with
  | _ n ih =>
    have hspec := longestKey_spec keys s
    cases hk : longestKey keys s with
    | none =>
      rw [hk] at hspec
      exact ⟨[], s, rfl, hspec⟩
    | some k =>
      rw [hk] at hspec
      obtain ⟨hmem, hprefix, hmax⟩ := hspec
      have hpos : 0 < k.length := List.length_pos_iff.mpr fun e => hne (e ▸ hmem)
      have hle := hprefix.length_le
      obtain ⟨ts, rest, hts, hrest⟩ := ih (s.drop k.length).length (by rw [List.length_drop]; omega) _ rfl
      exact ⟨k :: ts, rest, ⟨hmem, hprefix, hmax, hts⟩, hrest⟩

/-- Over a sequence that falls into tokens, the token loop is the loop over the tokens with their positions. -/
theorem tokenLoop_of_tokenizes (hne : [] ∉ keys) (act : Nat → List Byte → σ → Except Raise σ)
    (ht : Tokenizes keys s ts []) (st : σ) :
    tokenLoop keys act 0 0 s st = forEach (fun _ e st => act e.1 e.2 st) 0 (withPositions 0 ts) st := by
  rw [tokenLoop_tokens hne act ht]
  cases forEach (fun _ e st => act e.1 e.2 st) 0 (withPositions 0 ts) st with
  | ok st' => rfl
  | error e => rfl

/-- Where the actions of the tokens all succeed and then no key matches, the token loop raises DICT_LOOKUP there. -/
theorem tokenLoop_dictLookup (hne : [] ∉ keys) {act : Nat → List Byte → σ → Except Raise σ} {c : Byte} {rest : List Byte}
    (ht : Tokenizes keys s ts (c :: rest)) (hstop : ∀ k ∈ keys, ¬ k <+: c :: rest) {st st' : σ}
    (hact : forEach (fun _ e st => act e.1 e.2 st) 0 (withPositions 0 ts) st = .ok st') :
    tokenLoop keys act 0 0 s st = .error ⟨.dictLookup, ts.flatten.length, c.toNat⟩ := by
  rw [tokenLoop_tokens hne act ht, hact]
  simp only
  rw [tokenLoop_stop act hstop, Nat.zero_add]

/-- A loop that appends each element has the whole sequence in the end. -/
theorem forEach_collect {α : Type} (xs : List α) (k : Nat) (out : List α) :
    forEach (fun _ x out => .ok (out ++ [x])) k xs out = .ok (out ++ xs) := by
  induction xs generalizing k out with
  | nil => simp
  | cons x rest ih => simp [forEach, ih]

/-- Settles O35. -/
theorem longestMatchIsGreedyTokenization : Obligations.LongestMatchIsGreedyTokenization := by
  intro keys hne s
  refine ⟨exists_tokenizes hne s, fun ts ht => ?_, fun ts c rest ht hstop => ?_⟩
  · exact (tokenLoop_of_tokenizes hne _ ht []).trans (forEach_collect (withPositions 0 ts) 0 [])
  · exact tokenLoop_dictLookup hne ht hstop (forEach_collect (withPositions 0 ts) 0 [])

end Sys2Proof.Machine
end

section
/-! CENC: the strings of the chunks one after the other, and what they hold (spec 42_chunk_codec R142, R144). -/

namespace Sys2Proof.Machine

variable {p : Params} {d : Data} {st : Staged}

/-- The 5-bit chunks of BIT with zeros appended (42_chunk_codec R142). -/
abbrev Data.cencChunks (d : Data) : List (List Bit) := groupsOf 5 (padZeros d.bitSeq (padCount d.lenBit.toNat 5))

/-- The CHUNK_TAB strings of a sequence of chunks, one after the other (42_chunk_codec R142). -/
abbrev chunkStrings (gs : List (List Bit)) : List Byte := gs.flatMap fun g => chunkString (bitsVal g)

/-- CENC where the strings fit (42_chunk_codec R142). -/
theorem cencRun_ok (h : (chunkStrings d.cencChunks).length ≤ p.capSym) :
    cencRun p d = .ok
      { sym := some (chunkStrings d.cencChunks)
        lenSym := some (BitVec.ofNat 32 (chunkStrings d.cencChunks).length)
        padCnt := some (BitVec.ofNat 32 (padCount d.lenBit.toNat 5)) } := by
  simp only [cencRun]
  rw [forEach_emitAll_ok (pos := fun j => 5 * j) (by simpa [Params.cap] using h), List.nil_append]

/-- CENC at the first chunk whose string does not fit (42_chunk_codec R142). -/
theorem cencRun_capacity {xs ys : List (List Bit)} {g : List Bit} (hchunks : d.cencChunks = xs ++ g :: ys)
    (hfit : (chunkStrings xs).length ≤ p.capSym) (hfull : p.capSym < (chunkStrings (xs ++ [g])).length) :
    cencRun p d = .error ⟨.capacity, 5 * xs.length, 3⟩ := by
  rw [Data.cencChunks] at hchunks
  simp only [cencRun]
  rw [hchunks, forEach_emitAll_full (pos := fun j => 5 * j) (by simpa [Params.cap] using hfit)
    (by simpa [Params.cap] using hfull), Nat.zero_add, bufId]

/-- Settles O37. -/
theorem cencConcatenatesChunkStrings : Obligations.CencConcatenatesChunkStrings :=
  ⟨rfl, fun _ habort =>
    ⟨fun hfit => completes_of_ok (i := .cenc) habort (cencRun_ok hfit),
      fun _ _ _ hchunks hfit hfull => fails_of_error (i := .cenc) habort (cencRun_capacity hchunks hfit hfull)⟩⟩

/-! ### Dots and single inner spaces -/

/-- Only dots and spaces, no space at an end, and no space after a space (42_chunk_codec R144). -/
abbrev SpacedDots (xs : List Byte) : Prop :=
  (∀ c ∈ xs, c = dot ∨ c = spc) ∧ xs.head? ≠ some spc ∧ xs.getLast? ≠ some spc ∧
    xs.IsChain fun a b => ¬ (a = spc ∧ b = spc)

/-- No two spaces in a row, said of neighbours and of infixes. -/
theorem SpacedDots.not_infix {xs : List Byte} (h : SpacedDots xs) : ¬ [spc, spc] <:+: xs := by
  obtain ⟨-, -, -, hchain⟩ := h
  rintro ⟨_, _, rfl⟩
  exact List.isChain_pair.mp hchain.left_of_append.right_of_append ⟨rfl, rfl⟩

/-- Where two such strings meet there is no space on either side. -/
theorem SpacedDots.append {xs ys : List Byte} (hx : SpacedDots xs) (hy : SpacedDots ys) : SpacedDots (xs ++ ys) := by
  obtain ⟨hxmem, hxhead, hxlast, hxchain⟩ := hx
  obtain ⟨hymem, hyhead, hylast, hychain⟩ := hy
  refine ⟨List.forall_mem_append.mpr ⟨hxmem, hymem⟩, ?_, ?_, List.isChain_append.mpr ⟨hxchain, hychain, ?_⟩⟩
  · rw [List.head?_append, ne_eq, Option.or_eq_some_iff]
    rintro (h | ⟨-, h⟩)
    · exact hxhead h
    · exact hyhead h
  · rw [List.getLast?_append, ne_eq, Option.or_eq_some_iff]
    rintro (h | ⟨-, h⟩)
    · exact hylast h
    · exact hxlast h
  · rintro a ha b - ⟨rfl, -⟩
    exact hxlast ha

theorem spacedDots_of_mem_chunkTab : ∀ k ∈ chunkTab, SpacedDots k := by decide

theorem spacedDots_chunkString (c : Nat) : SpacedDots (chunkString c) := by
  by_cases hc : c < chunkTab.length
  · rw [chunkString, List.getD_eq_getElem _ _ hc]
    exact spacedDots_of_mem_chunkTab _ (List.getElem_mem hc)
  · rw [chunkString, List.getD_eq_default _ _ (Nat.not_lt.mp hc)]
    decide

/-- Everything staged was there before or is what was to be emitted (00_scope R11). -/
theorem emitAll_eq_append {α : Type} {b : Buf} {pos : Nat} {staged xs out : List α}
    (h : emitAll p b pos staged xs = .ok out) : out = staged ++ xs := by
  rw [emitAll_eq] at h
  split at h
  · cases h
    rfl
  · cases h

/-- What CENC stages: each turn of its loop appends a string of CHUNK_TAB (42_chunk_codec R142, R144). -/
theorem cencRun_staged (h : cencRun p d = .ok st) :
    ∃ out, st.sym = some out ∧ st.lenSym = some (BitVec.ofNat 32 out.length) ∧ out.length ≤ p.capSym ∧
      SpacedDots out := by
  simp only [cencRun] at h
  split at h
  · next out hout =>
    cases h
    refine ⟨out, rfl, rfl, forEach_length_le (fun _ _ _ _ ho => emitAll_le (b := .sym) ho) hout,
      forEach_inv (fun _ _ _ _ hspaced hstep => ?_) (by decide : SpacedDots []) hout⟩
    exact emitAll_eq_append hstep ▸ hspaced.append (spacedDots_chunkString _)
  · cases h

variable {s t : State}

/-- A command that ended with STATUS 2 and no abort requested has committed what its pseudocode staged
(60_exceptions R206). -/
theorem endsNormally_of_status {i : Instr} (habort : s.abortReq = false) (hexec : exec i s = .next t)
    (hstatus : t.status = 2) : ∃ st, runOf i s.params s.operands = .ok st ∧ EndsNormally s t st := by
  cases hrun : runOf i s.params s.operands with
  | ok st => exact ⟨st, rfl, (completes_of_ok habort hrun).ends hexec⟩
  | error e =>
    have hsix := ((fails_of_error habort hrun).ends hexec).status
    rw [hstatus] at hsix
    exact absurd hsix (by decide)

/-- A command that commits a whole string of symbols and its length leaves it as the valid symbols. -/
theorem EndsNormally.sym_rewritten (h : EndsNormally s t st) (hp : s.params.wf = true) {xs : List Byte}
    (hsym : st.sym = some xs) (hlen : st.lenSym = some (BitVec.ofNat 32 xs.length)) (hcap : xs.length ≤ s.params.capSym) :
    t.data.symSeq = xs := by
  have hl : t.data.lenSym = st.lenSym.getD s.data.lenSym := h.len .sym
  refine h.symSeq_eq hsym ?_
  rw [hl, hlen]
  exact toNat_ofNat_of_le_cap hp (b := .sym) hcap

/-- Settles O39: no string of CHUNK_TAB has a space at an end, so joining them puts no two spaces together. -/
theorem cencOutputIsDotsAndSingleSpaces : Obligations.CencOutputIsDotsAndSingleSpaces := by
  intro s t hinv habort hexec hstatus
  obtain ⟨st, hrun, hends⟩ := endsNormally_of_status habort hexec hstatus
  obtain ⟨out, hsym, hlen, hcap, hspaced⟩ := cencRun_staged hrun
  have hinfix := hspaced.not_infix
  obtain ⟨hmem, hhead, hlast, -⟩ := hspaced
  rw [hends.sym_rewritten hinv.params hsym hlen hcap]
  exact ⟨hmem, hhead, hlast, hinfix⟩

end Sys2Proof.Machine
end

section
/-! CDEC: the chunk of each greedy token (spec 42_chunk_codec R141, R143, 10_state R36). -/

namespace Sys2Proof.Machine

variable {p : Params} {d : Data} {ts : List (List Byte)}

/-! ### CHUNK_REV -/

theorem nodup_chunkKeys : chunkKeys.Nodup := by decide

/-- The empty string is no key (42_chunk_codec R141). -/
theorem nil_notMem_chunkKeys : [] ∉ chunkKeys := by decide

/-- The constraint on CHUNK_REV (10_state R36). -/
theorem Params.map_chunkString_chunkRev (hp : p.wf = true) :
    p.chunkRev.map (fun c => chunkString c.toNat) = chunkKeys := by
  simp only [Params.wf, Params.chunkRevOk, Bool.and_eq_true, beq_iff_eq] at hp
  obtain ⟨⟨-, hrev⟩, -⟩ := hp
  exact hrev

/-- CHUNK_REV gives the j-th key the j-th chunk of the parameter (10_state R36). -/
theorem chunkRev_getElem? (hp : p.wf = true) {j : Nat} (h : j < chunkKeys.length) :
    p.chunkRev[j]? = some (chunkRev p chunkKeys[j]) := by
  have hlen : p.chunkRev.length = chunkKeys.length := by
    rw [← Params.map_chunkString_chunkRev hp, List.length_map]
  have hj : j < p.chunkRev.length := hlen ▸ h
  rw [chunkRev, nodup_chunkKeys.idxOf_getElem j h, List.getD_eq_getElem _ _ hj, List.getElem?_eq_getElem hj]

/-- CHUNK_TAB takes the chunk of a key back to the key (10_state R36). -/
theorem chunkString_chunkRev (hp : p.wf = true) {k : List Byte} (hk : k ∈ chunkKeys) :
    chunkString (chunkRev p k).toNat = k := by
  obtain ⟨j, hj, rfl⟩ := List.getElem_of_mem hk
  have hmap := congrArg (·[j]?) (Params.map_chunkString_chunkRev hp)
  simpa only [List.getElem?_map, chunkRev_getElem? hp hj, Option.map_some, List.getElem?_eq_getElem hj,
    Option.some.injEq] using hmap

/-! ### The loop over the tokens -/

/-- Emitting the elements of each token raises CAPACITY at the first token whose elements do not fit. -/
theorem forEach_withPositions_full {β : Type} {b : Buf} {f : List Byte → List β} {k : List Byte}
    (hfit : (ts.flatMap f).length ≤ p.cap b) (hfull : p.cap b < (ts.flatMap f).length + (f k).length) :
    forEach (fun _ e out => emitAll p b e.1 out (f e.2)) 0 (withPositions 0 (ts ++ [k])) [] =
      .error ⟨.capacity, ts.flatten.length, bufId b⟩ := by
  rw [withPositions_append, forEach_append, forEach_withPositions_ok (by simpa using hfit)]
  simp only [withPositions, forEach, List.nil_append, Nat.zero_add]
  rw [emitAll_full hfull hfit]

/-- The bits of the chunks of a sequence of tokens (42_chunk_codec R143). -/
abbrev chunkBits (p : Params) (ts : List (List Byte)) : List Bit := ts.flatMap fun k => bitsOf (chunkRev p k)

theorem length_chunkBits (p : Params) (ts : List (List Byte)) : (chunkBits p ts).length = 5 * ts.length := by
  simp [List.length_flatMap, Nat.mul_comm]

/-- The bits of the tokens, where they fit (42_chunk_codec R143). -/
theorem forEach_chunkBits (hfit : 5 * ts.length ≤ p.capBit) :
    forEach (fun _ e out => emitAll p .bit e.1 out (bitsOf (chunkRev p e.2))) 0 (withPositions 0 ts) [] =
      .ok (chunkBits p ts) :=
  forEach_withPositions_ok (f := fun k => bitsOf (chunkRev p k))
    (by rwa [List.length_nil, Nat.zero_add, length_chunkBits])

theorem cdecRun_ok (ht : Tokenizes chunkKeys d.symSeq ts []) (hfit : 5 * ts.length ≤ p.capBit) :
    cdecRun p d = .ok { bit := some (chunkBits p ts), lenBit := some (BitVec.ofNat 32 (5 * ts.length)) } := by
  rw [cdecRun, tokenLoop_of_tokenizes nil_notMem_chunkKeys _ ht, forEach_chunkBits hfit]
  simp only [length_chunkBits]

theorem cdecRun_dictLookup {c : Byte} {rest : List Byte} (ht : Tokenizes chunkKeys d.symSeq ts (c :: rest))
    (hstop : ∀ k ∈ chunkKeys, ¬ k <+: c :: rest) (hfit : 5 * ts.length ≤ p.capBit) :
    cdecRun p d = .error ⟨.dictLookup, ts.flatten.length, c.toNat⟩ := by
  rw [cdecRun, tokenLoop_dictLookup nil_notMem_chunkKeys ht hstop (forEach_chunkBits hfit)]

theorem cdecRun_capacity {k rest : List Byte} (ht : Tokenizes chunkKeys d.symSeq (ts ++ [k]) rest)
    (hfit : 5 * ts.length ≤ p.capBit) (hfull : p.capBit < 5 * (ts.length + 1)) :
    cdecRun p d = .error ⟨.capacity, ts.flatten.length, 2⟩ := by
  have hbits := length_chunkBits p ts
  rw [cdecRun, tokenLoop_tokens nil_notMem_chunkKeys _ ht,
    forEach_withPositions_full (f := fun k => bitsOf (chunkRev p k)), bufId]
  · rwa [hbits]
  · rw [hbits, bitsOf_length]
    exact hfull

/-- Settles O38. -/
theorem cdecDecodesGreedyTokens : Obligations.CdecDecodesGreedyTokens :=
  ⟨rfl, fun _ hp => ⟨fun _ hk => chunkString_chunkRev hp hk, fun _ hj => chunkRev_getElem? hp hj⟩, fun _ habort =>
    ⟨fun _ ht hfit => completes_of_ok (i := .cdec) habort (cdecRun_ok ht hfit),
      fun _ _ _ ht hstop hfit => fails_of_error (i := .cdec) habort (cdecRun_dictLookup ht hstop hfit),
      fun _ _ _ ht hfit hfull => fails_of_error (i := .cdec) habort (cdecRun_capacity ht hfit hfull)⟩⟩

end Sys2Proof.Machine
end

section
/-! SENC: the character of each greedy token (spec 43_symbol_codec R160). -/

namespace Sys2Proof.Machine

variable {p : Params} {d : Data} {st : Staged} {ts : List (List Byte)}

/-! ### The loop over the tokens -/

/-- Emitting one element is emitting it as a string of length one (00_scope R11). -/
theorem emitAll_singleton {α : Type} (p : Params) (b : Buf) (pos : Nat) (staged : List α) (x : α) :
    emitAll p b pos staged [x] = emit p b pos staged x := by
  unfold emitAll
  cases emit p b pos staged x with
  | ok staged' => rfl
  | error e => rfl

/-- The characters of the tokens, where they fit (43_symbol_codec R160). -/
theorem forEach_symChar_ok (hfit : ts.length ≤ p.capChr) :
    forEach (fun _ e out => emit p .chr e.1 out (symChar e.2)) 0 (withPositions 0 ts) [] = .ok (ts.map symChar) := by
  simp only [← emitAll_singleton]
  rw [forEach_withPositions_ok (f := fun k => [symChar k]), List.nil_append, List.map_eq_flatMap]
  rwa [← List.map_eq_flatMap, List.length_map, List.length_nil, Nat.zero_add]

/-- The token after `CAP_CHR` of them raises CAPACITY (43_symbol_codec R160). -/
theorem forEach_symChar_full {k : List Byte} (hfull : ts.length = p.capChr) :
    forEach (fun _ e out => emit p .chr e.1 out (symChar e.2)) 0 (withPositions 0 (ts ++ [k])) [] =
      .error ⟨.capacity, ts.flatten.length, 4⟩ := by
  have hlen : (ts.flatMap fun k => [symChar k]).length = p.cap .chr := by
    rw [← List.map_eq_flatMap, List.length_map, hfull, Params.cap]
  simp only [← emitAll_singleton]
  rw [forEach_withPositions_full (f := fun k => [symChar k]) hlen.le, bufId]
  rw [hlen, List.length_singleton]
  exact Nat.lt_succ_self _

/-! ### The three outcomes -/

/-- The empty string is no key (43_symbol_codec R160). -/
theorem nil_notMem_symKeys : [] ∉ symKeys := by decide

theorem sencRun_ok (ht : Tokenizes symKeys d.symSeq ts []) (hfit : ts.length ≤ p.capChr) :
    sencRun p d = .ok { chr := some (ts.map symChar), lenChr := some (BitVec.ofNat 32 ts.length) } := by
  rw [sencRun, tokenLoop_of_tokenizes nil_notMem_symKeys _ ht, forEach_symChar_ok hfit]
  simp only [List.length_map]

theorem sencRun_dictLookup {c : Byte} {rest : List Byte} (ht : Tokenizes symKeys d.symSeq ts (c :: rest))
    (hstop : ∀ k ∈ symKeys, ¬ k <+: c :: rest) (hfit : ts.length ≤ p.capChr) :
    sencRun p d = .error ⟨.dictLookup, ts.flatten.length, c.toNat⟩ := by
  rw [sencRun, tokenLoop_dictLookup nil_notMem_symKeys ht hstop (forEach_symChar_ok hfit)]

theorem sencRun_capacity {k rest : List Byte} (ht : Tokenizes symKeys d.symSeq (ts ++ [k]) rest)
    (hfull : ts.length = p.capChr) : sencRun p d = .error ⟨.capacity, ts.flatten.length, 4⟩ := by
  rw [sencRun, tokenLoop_tokens nil_notMem_symKeys _ ht, forEach_symChar_full hfull]

/-- Settles O40: the loop stages one character for each greedy token, and has three ways to end. -/
theorem sencEncodesGreedyTokens : Obligations.SencEncodesGreedyTokens :=
  ⟨rfl, fun _ habort =>
    ⟨fun _ ht hfit => completes_of_ok (i := .senc) habort (sencRun_ok ht hfit),
      fun _ _ _ ht hstop hfit => fails_of_error (i := .senc) habort (sencRun_dictLookup ht hstop hfit),
      fun _ _ _ ht hfull => fails_of_error (i := .senc) habort (sencRun_capacity ht hfull)⟩⟩

/-- SENC succeeds only where SYM falls into tokens that fit: the greedy tokens either leave a character where no key
matches, or are too many, or are what it commits (43_symbol_codec R160). -/
theorem sencRun_staged (h : sencRun p d = .ok st) :
    ∃ ts, Tokenizes symKeys d.symSeq ts [] ∧ ts.length ≤ p.capChr ∧
      st = { chr := some (ts.map symChar), lenChr := some (BitVec.ofNat 32 ts.length) } := by
  obtain ⟨ts, rest, ht, hstop⟩ := exists_tokenizes nil_notMem_symKeys d.symSeq
  have hfit : ts.length ≤ p.capChr := by
    by_contra hfull
    have hlt : p.capChr < ts.length := Nat.not_le.mp hfull
    rw [← List.take_append_drop (p.capChr + 1) ts, List.take_succ_eq_append_getElem hlt] at ht
    obtain ⟨r, htokens, -⟩ := ht.append
    rw [sencRun_capacity htokens (List.length_take_of_le hlt.le)] at h
    cases h
  cases rest with
  | nil =>
    rw [sencRun_ok ht hfit] at h
    cases h
    exact ⟨ts, ht, hfit, rfl⟩
  | cons c rest =>
    rw [sencRun_dictLookup ht hstop hfit] at h
    cases h

end Sys2Proof.Machine
end

section
/-! SDEC: the key of each character (spec 43_symbol_codec R161). -/

namespace Sys2Proof.Machine

variable {p : Params} {d : Data} {xs ys cs : List Byte} {c : Byte}

/-! ### The six characters -/

/-- One of the six characters K_CHR of SYM_TAB (43_symbol_codec R161). -/
abbrev CodedChar (c : Byte) : Prop := c ∈ [0x2A#8, 0x25#8, 0x24#8, 0x23#8, 0x21#8, 0x26#8]

/-- The keys of the characters in a row (43_symbol_codec R161). -/
abbrev symStrings (cs : List Byte) : List Byte := (cs.filterMap symKeyOf).flatten

/-- The string that SDEC writes for one character: its key (43_symbol_codec R161). -/
abbrev symString (c : Byte) : List Byte := (symKeyOf c).getD []

/-- The six characters are those that have a key (10_state R37). -/
theorem codedChar_iff (c : Byte) : CodedChar c ↔ ∃ k, symKeyOf c = some k := by
  have hchars : symKeys.map symChar = [0x2A#8, 0x25#8, 0x24#8, 0x23#8, 0x21#8, 0x26#8] := rfl
  simp only [CodedChar, ← hchars, List.mem_map, symKeyOf_eq_some_iff]

theorem symStrings_eq_flatMap (cs : List Byte) : symStrings cs = cs.flatMap symString := by
  induction cs with
  | nil => rfl
  | cons c rest ih =>
    rw [List.flatMap_cons, ← ih]
    cases hk : symKeyOf c with
    | none => simp only [symStrings, symString, List.filterMap_cons_none hk, hk, Option.getD_none, List.nil_append]
    | some k => simp only [symStrings, symString, List.filterMap_cons_some hk, hk, Option.getD_some, List.flatten_cons]

/-! ### The loop over the characters -/

theorem sdecChar_of_coded (h : CodedChar c) (i : Nat) (out : List Byte) :
    sdecChar p i c out = emitAll p .sym i out (symString c) := by
  obtain ⟨k, hk⟩ := (codedChar_iff c).mp h
  simp only [sdecChar, symString, hk, Option.getD_some]

theorem sdecChar_of_not_coded (h : ¬ CodedChar c) (i : Nat) (out : List Byte) :
    sdecChar p i c out = .error ⟨.dictLookup, i, c.toNat⟩ := by
  have hnone : symKeyOf c = none := Option.eq_none_iff_forall_ne_some.mpr fun k hk => h ((codedChar_iff c).mpr ⟨k, hk⟩)
  simp only [sdecChar, hnone]

/-- The keys of the six characters, where they fit (43_symbol_codec R161). -/
theorem forEach_sdecChar_ok (hcoded : ∀ c ∈ cs, CodedChar c) (hfit : (symStrings cs).length ≤ p.capSym) :
    forEach (sdecChar p) 0 cs [] = .ok (symStrings cs) := by
  rw [symStrings_eq_flatMap] at hfit ⊢
  rw [forEach_congr fun c hc i out => sdecChar_of_coded (hcoded c hc) i out,
    forEach_emitAll_ok (pos := fun i => i) (by simpa [Params.cap] using hfit), List.nil_append]

/-! ### The three outcomes -/

theorem sdecRun_ok (hcoded : ∀ c ∈ d.chrSeq, CodedChar c) (hfit : (symStrings d.chrSeq).length ≤ p.capSym) :
    sdecRun p d = .ok
      { sym := some (symStrings d.chrSeq), lenSym := some (BitVec.ofNat 32 (symStrings d.chrSeq).length) } := by
  rw [sdecRun, forEach_sdecChar_ok hcoded hfit]

theorem sdecRun_dictLookup (hseq : d.chrSeq = xs ++ c :: ys) (hcoded : ∀ x ∈ xs, CodedChar x)
    (hfit : (symStrings xs).length ≤ p.capSym) (hc : ¬ CodedChar c) :
    sdecRun p d = .error ⟨.dictLookup, xs.length, c.toNat⟩ := by
  rw [sdecRun, hseq, forEach_append, forEach_sdecChar_ok hcoded hfit]
  simp only [forEach, sdecChar_of_not_coded hc, Nat.zero_add]

theorem sdecRun_capacity (hseq : d.chrSeq = xs ++ c :: ys) (hcoded : ∀ x ∈ xs, CodedChar x)
    (hfit : (symStrings xs).length ≤ p.capSym) (hc : CodedChar c)
    (hfull : p.capSym < (symStrings (xs ++ [c])).length) : sdecRun p d = .error ⟨.capacity, xs.length, 3⟩ := by
  have hlen : p.cap .sym < (symStrings xs).length + (symString c).length := by
    rwa [symStrings_eq_flatMap, List.flatMap_append, List.flatMap_singleton, List.length_append,
      ← symStrings_eq_flatMap] at hfull
  rw [sdecRun, hseq, forEach_append, forEach_sdecChar_ok hcoded hfit]
  simp only [forEach, sdecChar_of_coded hc, Nat.zero_add]
  rw [emitAll_full hlen hfit, bufId]

/-- Settles O41: the loop stages the key of each of the six characters, and has three ways to end. -/
theorem sdecExpandsCharacters : Obligations.SdecExpandsCharacters :=
  ⟨rfl, fun _ habort =>
    ⟨fun hcoded hfit => completes_of_ok (i := .sdec) habort (sdecRun_ok hcoded hfit),
      fun _ _ _ hseq hcoded hfit =>
        ⟨fun hc => fails_of_error (i := .sdec) habort (sdecRun_dictLookup hseq hcoded hfit hc),
          fun hc hfull => fails_of_error (i := .sdec) habort (sdecRun_capacity hseq hcoded hfit hc hfull)⟩⟩⟩

/-! ### SDEC after SENC -/

variable {s t u : State} {st : Staged} {ts : List (List Byte)}

/-- A command that commits a whole string of characters and its length leaves it as the valid characters. -/
theorem EndsNormally.chr_rewritten (h : EndsNormally s t st) (hp : s.params.wf = true) {n : Nat}
    (hchr : st.chr = some xs) (hlen : st.lenChr = some (BitVec.ofNat 32 n)) (hn : xs.length = n)
    (hcap : n ≤ s.params.capChr) : t.data.chrSeq = xs := by
  have hl : t.data.lenChr = st.lenChr.getD s.data.lenChr := h.len .chr
  refine h.chrSeq_eq hchr ?_
  rw [hl, hlen, hn]
  exact toNat_ofNat_of_le_cap hp (b := .chr) hcap

/-- The character of a key has that key (10_state R37). -/
theorem symKeyOf_symChar {k : List Byte} (hk : k ∈ symKeys) : symKeyOf (symChar k) = some k :=
  (symKeyOf_eq_some_iff _ k).mpr ⟨hk, rfl⟩

theorem codedChar_of_mem_map_symChar (hkeys : ∀ k ∈ ts, k ∈ symKeys) : ∀ c ∈ ts.map symChar, CodedChar c :=
  List.forall_mem_map.mpr fun k hk => (codedChar_iff _).mpr ⟨k, symKeyOf_symChar (hkeys k hk)⟩

/-- SDEC's output over the characters of a sequence of keys (43_symbol_codec R162). -/
theorem symStrings_map_symChar (hkeys : ∀ k ∈ ts, k ∈ symKeys) : symStrings (ts.map symChar) = ts.flatten := by
  have hsome : ∀ k ∈ ts, (symKeyOf ∘ symChar) k = some k := fun k hk => symKeyOf_symChar (hkeys k hk)
  rw [symStrings, List.filterMap_map, List.filterMap_congr hsome, List.filterMap_some]

/-- SENC that ends with STATUS 2 leaves the characters of the tokens of the valid symbols (43_symbol_codec R160). -/
theorem Runs.senc_chars (hr : Runs .senc s t) (hp : s.params.wf = true) (hstatus : t.status = 2) :
    t.params = s.params ∧ ∃ ts, Tokenizes symKeys s.data.symSeq ts [] ∧ t.data.chrSeq = ts.map symChar := by
  obtain ⟨st, hrun, hends⟩ := Machine.endsNormally_of_status rfl (hr.exec_issue (decode_encode .senc)) hstatus
  obtain ⟨ts, htokens, hfit, rfl⟩ := sencRun_staged hrun
  exact ⟨hends.params, ts, htokens, hends.chr_rewritten hp rfl rfl (List.length_map _) hfit⟩

/-- Settles O52: SENC leaves the characters of the tokens, SDEC writes the key of each, and the tokens in a row are the
symbols. -/
theorem sdecAfterSencRestoresSymbols : Obligations.SdecAfterSencRestoresSymbols := by
  intro s t u hinv hsenc hstatus hsdec
  obtain ⟨hparams, ts, htokens, hchars⟩ := hsenc.senc_chars hinv.params hstatus
  have hkeys : ∀ k ∈ ts, k ∈ symKeys := htokens.mem_keys
  have hcoded : ∀ c ∈ t.data.chrSeq, CodedChar c := hchars ▸ codedChar_of_mem_map_symChar hkeys
  have hsyms : symStrings t.data.chrSeq = s.data.symSeq := by
    rw [hchars, symStrings_map_symChar hkeys, htokens.eq_flatten, List.append_nil]
  have hfit : (symStrings t.data.chrSeq).length ≤ t.params.capSym := by
    rw [hsyms, Data.symSeq_length, hparams]
    exact hinv.len .sym
  have hends := hsdec.endsNormally (sdecRun_ok hcoded hfit)
  have hseq : u.data.symSeq = s.data.symSeq :=
    (hends.sym_rewritten (hparams ▸ hinv.params) rfl rfl hfit).trans hsyms
  refine ⟨hends.status, BitVec.eq_of_toNat_eq ?_, hseq⟩
  rw [← Data.symSeq_length, hseq, Data.symSeq_length]

end Sys2Proof.Machine
end

section
/-! PACK and UNPACK: one equation for each, with what is staged and where CAPACITY is raised (spec 44_block_codec R172,
R173). -/

namespace Sys2Proof.Machine

variable {p : Params} {d : Data} {bs : List Bit}

/-- A sequence around its element at an index. -/
theorem exists_eq_append_cons {α : Type} {xs : List α} {j : Nat} (h : j < xs.length) :
    ∃ ys x zs, xs = ys ++ x :: zs ∧ ys.length = j :=
  ⟨xs.take j, xs[j], xs.drop (j + 1), by rw [← List.drop_eq_getElem_cons h, List.take_append_drop],
    List.length_take_of_le h.le⟩

/-! ### The bits of the packed bytes -/

/-- The bits of PACK's final byte, for the bits `rest` that fill no whole byte: zeros below them (MSB) or above them (LSB);
none where no bits are left (44_block_codec R172). -/
def finalBits (tail : PackTail) (rest : List Bit) : List Bit :=
  match tail with
  | .msb => rest ++ List.replicate (padCount rest.length 8) 0#1
  | .lsb => List.replicate (padCount rest.length 8) 0#1 ++ rest

/-- The bits of the packed bytes in a row, for the bits `bits` of the codes in a row (44_block_codec R172). -/
def packedBits (tail : PackTail) (bits : List Bit) : List Bit :=
  bits.take (8 * (bits.length / 8)) ++ finalBits tail (bits.drop (8 * (bits.length / 8)))

@[simp] theorem finalBits_nil (tail : PackTail) : finalBits tail [] = [] := by cases tail <;> rfl

theorem length_finalBits (tail : PackTail) (rest : List Bit) :
    (finalBits tail rest).length = rest.length + padCount rest.length 8 := by
  cases tail
  · simp [finalBits]
  · simp [finalBits, Nat.add_comm]

theorem padCount_mod (n w : Nat) : padCount (n % w) w = padCount n w := by rw [padCount, padCount, Nat.mod_mod]

theorem length_packedBits (tail : PackTail) (bits : List Bit) :
    (packedBits tail bits).length = bits.length + padCount bits.length 8 := by
  rw [packedBits, List.length_append, length_finalBits, length_drop_groups, padCount_mod,
    List.length_take_of_le (Nat.mul_div_le _ _), ← Nat.add_assoc, Nat.div_add_mod]

/-- The whole bytes go out as they are, and then the final one. -/
theorem groupsOf_packedBits (tail : PackTail) (bits : List Bit) :
    groupsOf 8 (packedBits tail bits) =
      groupsOf 8 bits ++ groupsOf 8 (finalBits tail (bits.drop (8 * (bits.length / 8)))) := by
  have hlen : (bits.take (8 * (bits.length / 8))).length = 8 * (bits.length / 8) :=
    List.length_take_of_le (Nat.mul_div_le _ _)
  rw [packedBits, groupsOf_append_rest (by decide), groupsOf_take_groups (by decide), hlen,
    Nat.mul_div_cancel_left _ (by decide), List.drop_of_length_le hlen.le, List.nil_append]

/-- Where bits are left, the final byte is one group. -/
theorem groupsOf_finalBits (tail : PackTail) {rest : List Bit} (hne : 0 < rest.length) (hlt : rest.length < 8) :
    groupsOf 8 (finalBits tail rest) = [finalBits tail rest] := by
  have hlen : (finalBits tail rest).length = 8 := by
    rw [length_finalBits, padCount]
    omega
  simpa using groupsOf_append (by decide) hlen []

/-- Under MSB the zeros follow the codes' bits. -/
theorem packedBits_msb (bits : List Bit) : packedBits .msb bits = padZeros bits (padCount bits.length 8) := by
  simp only [packedBits, finalBits]
  rw [← List.append_assoc, List.take_append_drop, length_drop_groups, padCount_mod, padZeros]

theorem packedBytes_eq (tail : PackTail) (codes : List Code) :
    packedBytes tail codes = (groupsOf 8 (packedBits tail (codes.flatMap bitsOf))).map groupByte := by
  cases tail with
  | msb => rw [packedBits_msb, packedBytes]
  | lsb =>
    rw [groupsOf_packedBits, List.map_append]
    simp only [packedBytes]
    congr 1
    have hrest := length_drop_groups 8 (codes.flatMap bitsOf)
    split_ifs with h
    · rw [List.eq_nil_of_length_eq_zero (hrest.trans h)]
      rfl
    · rw [groupsOf_finalBits _ (by omega) (by omega)]
      simp [finalBits, groupByte, bitsVal_append]

/-! ### PACK -/

/-- The byte that PACK computes for the bits left over is the final byte (44_block_codec R172). -/
theorem packTail_packState (p : Params) (pos : Nat) (hrest : 0 < bs.length % 8) :
    packTail p pos (packState bs) =
      emit p .pkb pos ((groupsOf 8 bs).map groupByte)
        (groupByte (finalBits p.packTail (bs.drop (8 * (bs.length / 8))))) := by
  have hpad : padCount (bs.length % 8) 8 = 8 - bs.length % 8 := by
    rw [padCount]
    omega
  rw [packTail, if_pos (show 0 < (packState bs).nb from hrest)]
  cases p.packTail with
  | msb =>
    simp only [finalBits, groupByte, bitsVal_append, List.length_replicate, bitsVal_replicate_zero, Nat.add_zero,
      length_drop_groups, hpad, packState]
  | lsb =>
    simp only [finalBits, groupByte, bitsVal_append, bitsVal_replicate_zero, Nat.zero_mul, Nat.zero_add, packState]

/-- PACK's end, where the whole bytes fit (44_block_codec R172). -/
theorem packTail_eq (p : Params) (pos : Nat) (hfit : bs.length / 8 ≤ p.capPkb) :
    packTail p pos (packState bs) =
      if (bs.length + 7) / 8 ≤ p.capPkb then .ok ((groupsOf 8 (packedBits p.packTail bs)).map groupByte)
      else .error ⟨.capacity, pos, 6⟩ := by
  have hlen : ((groupsOf 8 bs).map groupByte).length = bs.length / 8 := by simp
  have hdrop := length_drop_groups 8 bs
  rw [groupsOf_packedBits]
  rcases Nat.eq_zero_or_pos (bs.length % 8) with hzero | hpos
  · rw [if_pos (by omega), List.eq_nil_of_length_eq_zero (hdrop.trans hzero), finalBits_nil, groupsOf_nil,
      List.append_nil, packTail, if_neg (by simp [packState, hzero])]
    rfl
  · rw [packTail_packState p pos hpos, groupsOf_finalBits _ (by omega) (by omega), List.map_append]
    split_ifs with hcap
    · exact emit_ok (by rw [hlen, Params.cap]; omega) _ _
    · exact emit_full (by rw [hlen, Params.cap]; omega) _ _

/-- PACK at the first code whose whole bytes do not all fit (44_block_codec R172). -/
theorem packBytes_capacity {xs ys : List Code} {c : Code} (hfit : 10 * xs.length / 8 ≤ p.capPkb)
    (hfull : p.capPkb < 10 * (xs.length + 1) / 8) : packBytes p (xs ++ c :: ys) = .error ⟨.capacity, xs.length, 6⟩ := by
  have hlen : (xs.flatMap bitsOf).length = 10 * xs.length := length_flatMap_bitsOf xs
  rw [packBytes, ← packState_nil, forEach_append, forEach_packCode_ok p 0 (by simpa using hfit)]
  simp only [forEach, List.nil_append, Nat.zero_add]
  rw [packCode_full p _ _ (by rwa [hlen]) (by rwa [hlen])]

/-- PACK's bytes. The code whose whole bytes do not all fit is the one at index `(8 CAP_PKB + 7) div 10`; where there is
none, it is the final byte that does not fit (44_block_codec R172). -/
theorem packBytes_eq (p : Params) (codes : List Code) :
    packBytes p codes =
      if (10 * codes.length + 7) / 8 ≤ p.capPkb then .ok (packedBytes p.packTail codes)
      else .error ⟨.capacity, min ((8 * p.capPkb + 7) / 10) codes.length, 6⟩ := by
  by_cases hwhole : 10 * codes.length / 8 ≤ p.capPkb
  · rw [packBytes, ← packState_nil, forEach_packCode_ok p 0 (by simpa using hwhole), List.nil_append]
    simp only
    rw [packTail_eq p _ (by rwa [length_flatMap_bitsOf]), length_flatMap_bitsOf, packedBytes_eq,
      Nat.min_eq_right (by omega)]
  · have hlt : (8 * p.capPkb + 7) / 10 < codes.length := by omega
    rw [if_neg (by omega), Nat.min_eq_left hlt.le]
    obtain ⟨xs, c, ys, rfl, hlen⟩ := exists_eq_append_cons hlt
    rw [packBytes_capacity (by omega) (by omega), hlen]

/-- The position where a code's whole bytes are the first not to fit. -/
theorem packFull_whole {cap j k : Nat} (hj : j < k) (hfit : 10 * j / 8 ≤ cap) (hfull : cap < 10 * (j + 1) / 8) :
    min ((8 * cap + 7) / 10) k = j := by omega

/-- The position where only the final byte does not fit. -/
theorem packFull_final {cap k : Nat} (hwhole : 10 * k / 8 = cap) : min ((8 * cap + 7) / 10) k = k := by omega

theorem length_packedBytes (tail : PackTail) (codes : List Code) :
    (packedBytes tail codes).length = (10 * codes.length + 7) / 8 := by
  rw [packedBytes_eq, List.length_map, groupsOf_length, length_packedBits, length_flatMap_bitsOf, padCount]
  omega

theorem packRun_eq (p : Params) (d : Data) :
    packRun p d =
      if (10 * d.lenCode.toNat + 7) / 8 ≤ p.capPkb then
        .ok { pkb := some (packedBytes p.packTail d.codeSeq)
              lenPkb := some (BitVec.ofNat 32 ((10 * d.lenCode.toNat + 7) / 8)) }
      else .error ⟨.capacity, min ((8 * p.capPkb + 7) / 10) d.lenCode.toNat, 6⟩ := by
  rw [packRun, packBytes_eq, Data.codeSeq_length]
  split_ifs
  · simp only [length_packedBytes, Data.codeSeq_length]
  · rfl

/-- Settles O42: the outcomes of `packRun_eq`, its one position of CAPACITY read in the two cases of R172. -/
theorem packCutsCodesIntoBytes : Obligations.PackCutsCodesIntoBytes := by
  refine ⟨rfl, fun s habort => ?_⟩
  obtain ⟨hok, herr⟩ := ends_of_run_ite (i := .pack) habort (packRun_eq s.params s.operands)
  exact ⟨hok, fun j hj hfit hfull => packFull_whole hj hfit hfull ▸ herr (by omega),
    fun hwhole hpartial => packFull_final hwhole ▸ herr (by omega)⟩

/-! ### UNPACK -/

/-- UNPACK at the first byte whose code does not fit (44_block_codec R173). -/
theorem unpackCodes_capacity {xs ys : List Byte} {b : Byte} (hfit : 8 * xs.length / 10 ≤ p.capCode)
    (hfull : p.capCode < 8 * (xs.length + 1) / 10) : unpackCodes p (xs ++ b :: ys) = .error ⟨.capacity, xs.length, 5⟩ := by
  have hlen : (xs.flatMap bitsOf).length = 8 * xs.length := length_flatMap_bitsOf xs
  rw [unpackCodes, ← unpackState_nil, forEach_append, forEach_unpackByte_ok p 0 (by simpa using hfit)]
  simp only [forEach, List.nil_append, Nat.zero_add]
  rw [unpackByte_eq p _ _ (by rwa [hlen]), hlen, if_neg (by omega)]

/-- UNPACK's codes. The byte whose code does not fit is the one at index `(10 CAP_CODE + 9) div 8`
(44_block_codec R173). -/
theorem unpackCodes_eq (p : Params) (bytes : List Byte) :
    unpackCodes p bytes =
      if 8 * bytes.length / 10 ≤ p.capCode then .ok (unpackedCodes bytes)
      else .error ⟨.capacity, (10 * p.capCode + 9) / 8, 5⟩ := by
  split_ifs with hfit
  · rw [unpackCodes, ← unpackState_nil, forEach_unpackByte_ok p 0 (by simpa using hfit)]
    rfl
  · have hlt : (10 * p.capCode + 9) / 8 < bytes.length := by omega
    obtain ⟨xs, b, ys, rfl, hlen⟩ := exists_eq_append_cons hlt
    rw [unpackCodes_capacity (by omega) (by omega), hlen]

theorem length_unpackedCodes (bytes : List Byte) : (unpackedCodes bytes).length = 8 * bytes.length / 10 := by
  rw [unpackedCodes, List.length_map, groupsOf_length, length_flatMap_bitsOf]

theorem unpackRun_eq (p : Params) (d : Data) :
    unpackRun p d =
      if 8 * d.lenPkb.toNat / 10 ≤ p.capCode then
        .ok { code := some (unpackedCodes d.pkbSeq), lenCode := some (BitVec.ofNat 32 (8 * d.lenPkb.toNat / 10)) }
      else .error ⟨.capacity, (10 * p.capCode + 9) / 8, 5⟩ := by
  rw [unpackRun, unpackCodes_eq, Data.pkbSeq_length]
  split_ifs
  · simp only [length_unpackedCodes, Data.pkbSeq_length]
  · rfl

/-- Settles O43: the outcomes of `unpackRun_eq`. -/
theorem unpackCutsBytesIntoCodes : Obligations.UnpackCutsBytesIntoCodes := by
  refine ⟨rfl, fun s habort => ?_⟩
  obtain ⟨hok, herr⟩ := ends_of_run_ite (i := .unpack) habort (unpackRun_eq s.params s.operands)
  refine ⟨hok, fun i hi hfit hfull => ?_⟩
  have hpos : (10 * s.params.capCode + 9) / 8 = i := by omega
  exact hpos ▸ herr (by omega)

end Sys2Proof.Machine
end

section
/-! BLKENC and BLKDEC: the lookups group by group and code by code, and where they raise (spec 44_block_codec R170, R171,
R174). -/

namespace Sys2Proof.Machine

variable {p : Params} {d : Data} {m : Memory} {bits : List Bit} {cs : List Code}

/-! ### BLKENC -/

/-- The lowest code of each group (44_block_codec R170). -/
abbrev LowestCodes (m : Memory) (gs : List (List Bit)) (cs : List Code) : Prop :=
  List.Forall₂ (fun g c => IsLowestCode m (groupPat g) c) gs cs

/-- Groups that all have a code have a lowest one each. -/
theorem exists_lowestCodes {gs : List (List Bit)} (h : ∀ g ∈ gs, ¬ NoCode m (groupPat g)) :
    ∃ cs, LowestCodes m gs cs := by
  induction gs with
  | nil => exact ⟨[], .nil⟩
  | cons g rest ih =>
    obtain ⟨hg, hrest⟩ := List.forall_mem_cons.mp h
    obtain ⟨c, hc⟩ := exists_lowest hg
    obtain ⟨cs, hcs⟩ := ih hrest
    exact ⟨c :: cs, .cons hc hcs⟩

theorem length_blockGroups (bits : List Bit) :
    (blockGroups bits).length = (bits.length + padCount bits.length 10) / 10 := by
  rw [blockGroups, groupsOf_length, padZeros_length]

theorem blkencCodes_ok (hcodes : LowestCodes m (blockGroups bits) cs) (hfit : cs.length ≤ p.capCode) :
    blkencCodes p m bits = .ok cs := by
  rw [blkencCodes, ← blockGroups, forEach_blkencGroup_ok hcodes 0 (by simpa using hfit), List.nil_append]

/-- Where the groups before `g` have a code each and these fit, BLKENC gets to `g`. -/
theorem blkencCodes_append_cons {gs rest : List (List Bit)} {g : List Bit} (hgroups : blockGroups bits = gs ++ g :: rest)
    (hall : ∀ x ∈ gs, ¬ NoCode m (groupPat x)) (hfit : gs.length ≤ p.capCode) :
    ∃ cs : List Code, cs.length = gs.length ∧
      blkencCodes p m bits = forEach (blkencGroup p m) gs.length (g :: rest) cs := by
  obtain ⟨cs, hcs⟩ := exists_lowestCodes hall
  have hlen : cs.length = gs.length := hcs.length_eq.symm
  refine ⟨cs, hlen, ?_⟩
  rw [blkencCodes, ← blockGroups, hgroups, forEach_append, forEach_blkencGroup_ok hcs 0 (by simpa [hlen] using hfit)]
  simp only [List.nil_append, Nat.zero_add]

theorem blkencCodes_dictLookup {gs rest : List (List Bit)} {g : List Bit} (hgroups : blockGroups bits = gs ++ g :: rest)
    (hall : ∀ x ∈ gs, ¬ NoCode m (groupPat x)) (hfit : gs.length ≤ p.capCode) (hg : NoCode m (groupPat g)) :
    blkencCodes p m bits = .error ⟨.dictLookup, 10 * gs.length, bitsVal g⟩ := by
  obtain ⟨cs, -, hrun⟩ := blkencCodes_append_cons hgroups hall hfit
  rw [hrun, forEach, blkencGroup_of_noCode hg]

theorem blkencCodes_capacity {gs rest : List (List Bit)} {g : List Bit} (hgroups : blockGroups bits = gs ++ g :: rest)
    (hall : ∀ x ∈ gs, ¬ NoCode m (groupPat x)) (hg : ¬ NoCode m (groupPat g)) (hfull : gs.length = p.capCode) :
    blkencCodes p m bits = .error ⟨.capacity, 10 * gs.length, 5⟩ := by
  obtain ⟨cs, hlen, hrun⟩ := blkencCodes_append_cons hgroups hall hfull.le
  obtain ⟨c, hc⟩ := exists_lowest hg
  rw [hrun, forEach, blkencGroup_of_lowest hc, emit_full (by rw [Params.cap, hlen, hfull]), bufId]

/-- Codes that BLKENC emits are the lowest ones of the groups. -/
theorem lowestCodes_of_forEach {gs : List (List Bit)} {k : Nat} {out codes : List Code}
    (h : forEach (blkencGroup p m) k gs out = .ok codes) : ∃ cs, LowestCodes m gs cs ∧ codes = out ++ cs := by
  induction gs generalizing k out with
  | nil =>
    cases h
    exact ⟨[], .nil, (List.append_nil _).symm⟩
  | cons g rest ih =>
    by_cases hg : NoCode m (groupPat g)
    · rw [forEach, blkencGroup_of_noCode hg] at h
      cases h
    · obtain ⟨c, hc⟩ := exists_lowest hg
      rw [forEach, blkencGroup_of_lowest hc, emit] at h
      split_ifs at h with hfull
      obtain ⟨cs, hcs, rfl⟩ := ih h
      exact ⟨c :: cs, .cons hc hcs, by simp⟩

theorem lowestCodes_of_blkencCodes (h : blkencCodes p m bits = .ok cs) : LowestCodes m (blockGroups bits) cs := by
  obtain ⟨cs', hcs, rfl⟩ := lowestCodes_of_forEach h
  exact hcs

theorem blkencRun_ok (hcodes : LowestCodes d.mem (blockGroups d.bitSeq) cs) (hfit : cs.length ≤ p.capCode) :
    blkencRun p d = .ok
      { code := some cs
        lenCode := some (BitVec.ofNat 32 ((d.lenBit.toNat + padCount d.lenBit.toNat 10) / 10))
        padCnt := some (BitVec.ofNat 32 (padCount d.lenBit.toNat 10)) } := by
  have hlen : cs.length = (d.lenBit.toNat + padCount d.lenBit.toNat 10) / 10 := by
    rw [← hcodes.length_eq, length_blockGroups, Data.bitSeq_length]
  rw [blkencRun, blkencCodes_ok hcodes hfit, ← hlen]

theorem blkencRun_error {e : Raise} (h : blkencCodes p d.mem d.bitSeq = .error e) : blkencRun p d = .error e := by
  rw [blkencRun, h]

/-- Settles O44: the loop over the groups has three ways to end. -/
theorem blkencLooksUpLowestCodes : Obligations.BlkencLooksUpLowestCodes :=
  ⟨rfl, fun _ habort =>
    ⟨fun _ hcodes hfit => completes_of_ok (i := .blkenc) habort (blkencRun_ok hcodes hfit),
      fun _ _ _ hgroups hall hfit =>
        ⟨fun hg => fails_of_error (i := .blkenc) habort (blkencRun_error (blkencCodes_dictLookup hgroups hall hfit hg)),
          fun hg hfull =>
            fails_of_error (i := .blkenc) habort (blkencRun_error (blkencCodes_capacity hgroups hall hg hfull))⟩⟩⟩

/-! ### BLKDEC -/

/-- The patterns of a sequence of codes in a row (44_block_codec R174). -/
abbrev patBits (m : Memory) (cs : List Code) : List Bit := cs.flatMap fun c => bitsOf (m.dictAt c.toNat).pat

theorem length_patBits (m : Memory) (cs : List Code) : (patBits m cs).length = 10 * cs.length := by
  simp [List.length_flatMap, Nat.mul_comm]

theorem blkdecBits_ok (hvalid : ∀ c ∈ cs, (m.dictAt c.toNat).valid = true) (hfit : 10 * cs.length ≤ p.capBit) :
    blkdecBits p m cs = .ok (patBits m cs) := by
  rw [blkdecBits, forEach_blkdecCode_ok 0 hvalid (by simpa using hfit), List.nil_append]

theorem blkdecBits_dictLookup {xs ys : List Code} {c : Code} (hvalid : ∀ x ∈ xs, (m.dictAt x.toNat).valid = true)
    (hfit : 10 * xs.length ≤ p.capBit) (hc : (m.dictAt c.toNat).valid = false) :
    blkdecBits p m (xs ++ c :: ys) = .error ⟨.dictLookup, xs.length, c.toNat⟩ := by
  rw [blkdecBits, forEach_append, forEach_blkdecCode_ok 0 hvalid (by simpa using hfit)]
  simp only [forEach, blkdecCode, dictPat, hc, Bool.false_eq_true, if_false, Nat.zero_add]

theorem blkdecBits_capacity {xs ys : List Code} {c : Code} (hvalid : ∀ x ∈ xs, (m.dictAt x.toNat).valid = true)
    (hfit : 10 * xs.length ≤ p.capBit) (hc : (m.dictAt c.toNat).valid = true) (hfull : p.capBit < 10 * (xs.length + 1)) :
    blkdecBits p m (xs ++ c :: ys) = .error ⟨.capacity, xs.length, 2⟩ := by
  have hlen := length_patBits m xs
  rw [blkdecBits, forEach_append, forEach_blkdecCode_ok 0 hvalid (by simpa using hfit)]
  simp only [forEach, blkdecCode, dictPat, hc, if_true, List.nil_append, Nat.zero_add]
  rw [emitAll_full (by rw [hlen, bitsOf_length, Params.cap]; omega) (by rwa [hlen, Params.cap]), bufId]

theorem blkdecRun_ok (hvalid : ∀ c ∈ d.codeSeq, (d.mem.dictAt c.toNat).valid = true)
    (hfit : 10 * d.lenCode.toNat ≤ p.capBit) :
    blkdecRun p d = .ok
      { bit := some (patBits d.mem d.codeSeq), lenBit := some (BitVec.ofNat 32 (10 * d.lenCode.toNat)) } := by
  rw [← Data.codeSeq_length] at hfit ⊢
  rw [blkdecRun, blkdecBits_ok hvalid hfit]
  simp only [length_patBits]

theorem blkdecRun_error {e : Raise} (h : blkdecBits p d.mem cs = .error e) (hseq : d.codeSeq = cs) :
    blkdecRun p d = .error e := by
  rw [blkdecRun, hseq, h]

/-- Settles O45: the loop over the codes has three ways to end. -/
theorem blkdecConcatenatesPatterns : Obligations.BlkdecConcatenatesPatterns :=
  ⟨rfl, fun _ habort =>
    ⟨fun hvalid hfit => completes_of_ok (i := .blkdec) habort (blkdecRun_ok hvalid hfit),
      fun _ _ _ hseq hvalid hfit =>
        ⟨fun hc => fails_of_error (i := .blkdec) habort (blkdecRun_error (blkdecBits_dictLookup hvalid hfit hc) hseq),
          fun hc hfull =>
            fails_of_error (i := .blkdec) habort (blkdecRun_error (blkdecBits_capacity hvalid hfit hc hfull) hseq)⟩⟩⟩

end Sys2Proof.Machine
end

section
/-! BCOMP and BDECOMP: three steps on staged results, the first that raises ends the command (spec 44_block_codec R175,
R176). -/

namespace Sys2Proof.Machine

variable {p : Params} {d : Data} {cs : List Code} {e : Raise}

/-! ### BCOMP -/

/-- What BCOMP commits, for the codes `cs` (44_block_codec R175). -/
abbrev bcompStaged (p : Params) (d : Data) (cs : List Code) : Staged where
  bit := some (d.bytSeq.flatMap bitsOf)
  lenBit := some (BitVec.ofNat 32 (8 * d.lenByt.toNat))
  code := some cs
  lenCode := some (BitVec.ofNat 32 cs.length)
  pkb := some (packedBytes p.packTail cs)
  lenPkb := some (BitVec.ofNat 32 ((10 * cs.length + 7) / 8))
  padCnt := some (BitVec.ofNat 32 (padCount (8 * d.lenByt.toNat) 10))

/-- The step SER raises. -/
theorem bcompRun_ser_error (hfull : p.capBit < 8 * d.lenByt.toNat) :
    bcompRun p d = .error ⟨.capacity, p.capBit / 8, 2⟩ := by
  rw [bcompRun, serBits_eq, Data.bytSeq_length, if_neg (Nat.not_le.mpr hfull)]

/-- The step BLKENC raises. -/
theorem bcompRun_blkenc_error (hbits : 8 * d.lenByt.toNat ≤ p.capBit)
    (h : blkencCodes p d.mem (d.bytSeq.flatMap bitsOf) = .error e) : bcompRun p d = .error e := by
  rw [bcompRun, serBits_eq, Data.bytSeq_length, if_pos hbits]
  simp only [h]

/-- The step PACK is left, which fits or raises. -/
theorem bcompRun_eq (hbits : 8 * d.lenByt.toNat ≤ p.capBit)
    (h : blkencCodes p d.mem (d.bytSeq.flatMap bitsOf) = .ok cs) :
    bcompRun p d =
      if (10 * cs.length + 7) / 8 ≤ p.capPkb then .ok (bcompStaged p d cs)
      else .error ⟨.capacity, min ((8 * p.capPkb + 7) / 10) cs.length, 6⟩ := by
  rw [bcompRun, serBits_eq, Data.bytSeq_length, if_pos hbits]
  simp only [h, packBytes_eq]
  split_ifs
  · simp only [length_flatMap_bitsOf, Data.bytSeq_length, length_packedBytes]
  · rfl

/-- Settles O46: SER fits or raises, then BLKENC has its three ends, then PACK fits or raises. -/
theorem bcompIsSerBlkencPack : Obligations.BcompIsSerBlkencPack := by
  refine ⟨rfl, fun s habort => ⟨fun hfull => fails_of_error (i := .bcomp) habort (bcompRun_ser_error hfull),
    fun hbits => ⟨fun gs g rest hgroups hall hfit => ⟨fun hg => ?_, fun hg hfull => ?_⟩, fun cs hcodes hfit => ?_⟩⟩⟩
  · exact fails_of_error (i := .bcomp) habort
      (bcompRun_blkenc_error hbits (blkencCodes_dictLookup hgroups hall hfit hg))
  · exact fails_of_error (i := .bcomp) habort
      (bcompRun_blkenc_error hbits (blkencCodes_capacity hgroups hall hg hfull))
  · obtain ⟨hok, herr⟩ := ends_of_run_ite (i := .bcomp) habort (bcompRun_eq hbits (blkencCodes_ok hcodes hfit))
    exact ⟨hok, fun j hj hfit hfull => packFull_whole hj hfit hfull ▸ herr (by omega),
      fun hwhole hpartial => packFull_final hwhole ▸ herr (by omega)⟩

/-! ### BDECOMP -/

/-- What BDECOMP commits (44_block_codec R176). -/
abbrev bdecompStaged (d : Data) : Staged where
  code := some (unpackedCodes d.pkbSeq)
  lenCode := some (BitVec.ofNat 32 (8 * d.lenPkb.toNat / 10))
  bit := some (patBits d.mem (unpackedCodes d.pkbSeq))
  lenBit := some (BitVec.ofNat 32 (10 * (unpackedCodes d.pkbSeq).length))
  byt := some ((groupsOf 8 (patBits d.mem (unpackedCodes d.pkbSeq))).map groupByte)
  lenByt := some (BitVec.ofNat 32 (10 * (unpackedCodes d.pkbSeq).length / 8))

/-- The step UNPACK raises; the position is that of `unpackCodes_eq`. -/
theorem bdecompRun_unpack_error (hfull : p.capCode < 8 * d.lenPkb.toNat / 10) :
    bdecompRun p d = .error ⟨.capacity, (10 * p.capCode + 9) / 8, 5⟩ := by
  rw [bdecompRun, unpackCodes_eq, Data.pkbSeq_length, if_neg (Nat.not_le.mpr hfull)]

/-- The step BLKDEC raises. -/
theorem bdecompRun_blkdec_error (hfit : 8 * d.lenPkb.toNat / 10 ≤ p.capCode) (hseq : unpackedCodes d.pkbSeq = cs)
    (h : blkdecBits p d.mem cs = .error e) : bdecompRun p d = .error e := by
  rw [bdecompRun, unpackCodes_eq, Data.pkbSeq_length, if_pos hfit]
  simp only [hseq, h]

/-- DESER.TRUNC's bytes of staged bits (41_bit_serializer R123). -/
theorem deserBytes_take_groups (p : Params) (bits : List Bit) :
    deserBytes p (bits.take (8 * (bits.length / 8))) =
      if bits.length / 8 ≤ p.capByt then .ok ((groupsOf 8 bits).map groupByte) else .error ⟨.capacity, 8 * p.capByt, 1⟩ := by
  rw [deserBytes_eq, groupsOf_take_groups (by decide), List.length_take_of_le (Nat.mul_div_le _ _),
    Nat.mul_div_cancel_left _ (by decide)]

/-- The step DESER is left, which fits or raises. -/
theorem bdecompRun_eq (hfit : 8 * d.lenPkb.toNat / 10 ≤ p.capCode)
    (hvalid : ∀ c ∈ unpackedCodes d.pkbSeq, (d.mem.dictAt c.toNat).valid = true)
    (hbits : 10 * (unpackedCodes d.pkbSeq).length ≤ p.capBit) :
    bdecompRun p d =
      if 10 * (unpackedCodes d.pkbSeq).length / 8 ≤ p.capByt then .ok (bdecompStaged d)
      else .error ⟨.capacity, 8 * p.capByt, 1⟩ := by
  rw [bdecompRun, unpackCodes_eq, Data.pkbSeq_length, if_pos hfit]
  simp only [blkdecBits_ok hvalid hbits, deserBytes_take_groups]
  rw [← length_patBits d.mem]
  split_ifs
  · simp only [bdecompStaged, List.length_map, groupsOf_length, length_patBits, length_unpackedCodes, Data.pkbSeq_length]
  · rfl

/-- Settles O47: UNPACK fits or raises, then BLKDEC has its three ends, then DESER fits or raises. -/
theorem bdecompIsUnpackBlkdecDeser : Obligations.BdecompIsUnpackBlkdecDeser := by
  refine ⟨rfl, fun s habort => ⟨fun i hi hfit hfull => ?_,
    fun hfit => ⟨fun xs c ys hseq hvalid hbits => ⟨fun hc => ?_, fun hc hfull => ?_⟩, fun hvalid hbits => ?_⟩⟩⟩
  · have hpos : (10 * s.params.capCode + 9) / 8 = i := by omega
    exact hpos ▸ fails_of_error (i := .bdecomp) habort (bdecompRun_unpack_error (by omega))
  · exact fails_of_error (i := .bdecomp) habort
      (bdecompRun_blkdec_error hfit hseq (blkdecBits_dictLookup hvalid hbits hc))
  · exact fails_of_error (i := .bdecomp) habort
      (bdecompRun_blkdec_error hfit hseq (blkdecBits_capacity hvalid hbits hc hfull))
  · obtain ⟨hok, herr⟩ := ends_of_run_ite (i := .bdecomp) habort (bdecompRun_eq hfit hvalid hbits)
    exact ⟨hok, fun hfull => herr (Nat.not_le.mpr hfull)⟩

end Sys2Proof.Machine
end

section
/-! UNPACK after PACK: the codes come back, all but the bits that PACK_TAIL = LSB moves (spec 44_block_codec R177 items 1
and 2). -/

namespace Sys2Proof.Machine

variable {α : Type}

/-! ### Groups and their numbers -/

/-- The bits above the last `bs.length - n`. -/
theorem bitsVal_take (bs : List Bit) (n : Nat) : bitsVal (bs.take n) = bitsVal bs / 2 ^ (bs.length - n) := by
  conv_rhs => rw [← List.take_append_drop n bs, bitsVal_append, List.take_append_drop, List.length_drop]
  rw [Nat.mul_comm, Nat.mul_add_div (by positivity), Nat.div_eq_of_lt (List.length_drop ▸ bitsVal_lt _), Nat.add_zero]

/-- The last `bs.length - n` bits. -/
theorem bitsVal_drop (bs : List Bit) (n : Nat) : bitsVal (bs.drop n) = bitsVal bs % 2 ^ (bs.length - n) := by
  conv_rhs => rw [← List.take_append_drop n bs, bitsVal_append, List.take_append_drop, List.length_drop]
  rw [Nat.mul_comm, Nat.mul_add_mod, Nat.mod_eq_of_lt (List.length_drop ▸ bitsVal_lt _)]

/-- Pieces of the group width are groups, and the groups of the rest follow. -/
theorem groupsOf_flatMap_append {β : Type} {w : Nat} (hw : 0 < w) {f : β → List α} (hf : ∀ x, (f x).length = w)
    (ys : List β) (rest : List α) : groupsOf w (ys.flatMap f ++ rest) = ys.map f ++ groupsOf w rest := by
  induction ys with
  | nil => rfl
  | cons y ys ih => rw [List.flatMap_cons, List.append_assoc, groupsOf_append hw (hf y), ih, List.map_cons, List.cons_append]

/-- A sequence of whole groups is its groups in a row. -/
theorem flatten_groupsOf {w : Nat} (hw : 0 < w) {xs : List α} (h : w ∣ xs.length) : (groupsOf w xs).flatten = xs := by
  obtain ⟨k, hk⟩ := h
  induction k generalizing xs with
  | zero =>
    rw [List.eq_nil_of_length_eq_zero hk, groupsOf_nil]
    rfl
  | succ k ih =>
    rw [Nat.mul_succ] at hk
    rw [groupsOf_of_le hw (by omega), List.flatten_cons, ih (by rw [List.length_drop]; omega), List.take_append_drop]

theorem groupPat_bitsOf (c : Code) : groupPat (bitsOf c) = c := by simp [groupPat]

/-- The bits of the bytes of whole groups are the groups' bits. -/
theorem flatMap_bitsOf_groupByte {bits : List Bit} (h : 8 ∣ bits.length) :
    ((groupsOf 8 bits).map groupByte).flatMap bitsOf = bits := by
  have hgroup : ∀ g ∈ groupsOf 8 bits, bitsOf (groupByte g) = g := fun g hg => bitsOf_bitsVal (length_of_mem_groupsOf hg)
  rw [List.flatMap_map, List.flatMap_congr hgroup, List.flatMap_id', flatten_groupsOf (by decide) h]

/-! ### What UNPACK makes of packed bytes -/

/-- The bits of the packed bytes (44_block_codec R172). -/
theorem flatMap_bitsOf_packedBytes (tail : PackTail) (codes : List Code) :
    (packedBytes tail codes).flatMap bitsOf = packedBits tail (codes.flatMap bitsOf) := by
  rw [packedBytes_eq, flatMap_bitsOf_groupByte (length_packedBits tail _ ▸ padCount_dvd (by decide) _)]

/-- Under MSB the zeros at the end are too few for a code (44_block_codec R177 item 1). -/
theorem unpackedCodes_packedBytes_msb (codes : List Code) : unpackedCodes (packedBytes .msb codes) = codes := by
  have htail : (List.replicate (padCount (codes.flatMap bitsOf).length 8) 0#1).length < 10 := by
    rw [List.length_replicate]
    exact Nat.lt_trans (padCount_lt (by decide) _) (by decide)
  rw [unpackedCodes, flatMap_bitsOf_packedBytes, packedBits_msb, padZeros,
    groupsOf_flatMap (by decide) bitsOf_length codes htail, List.map_map,
    funext (f := groupPat ∘ bitsOf) (g := id) groupPat_bitsOf, List.map_id]

/-- The code that comes back for `c` where its low `nb` bits stood at the low end of a byte (44_block_codec R177 item 2). -/
abbrev lsbCode (nb : Nat) (c : Code) : Code :=
  BitVec.ofNat 10 (c.toNat / 2 ^ nb * 2 ^ nb + c.toNat % 2 ^ nb / 2 ^ (8 - nb))

theorem lsbCode_eq_self {nb : Nat} {c : Code} (h : c.toNat % 2 ^ nb = 0) : lsbCode nb c = c := by
  rw [lsbCode, h, Nat.zero_div, Nat.add_zero, Nat.div_mul_cancel (Nat.dvd_of_mod_eq_zero h), BitVec.ofNat_toNat,
    BitVec.setWidth_eq]

/-- The first ten bits where zeros stand before the last bits `lo` of a code, and its first bits are `hi`. -/
theorem bitsVal_take_lsb {hi lo : List Bit} (hlen : hi.length + lo.length = 10) (hlt : lo.length < 8) :
    bitsVal ((hi ++ finalBits .lsb lo).take 10) =
      bitsVal hi * 2 ^ lo.length + bitsVal lo / 2 ^ (8 - lo.length) := by
  have hval : bitsVal (finalBits .lsb lo) = bitsVal lo := by
    rw [finalBits, bitsVal_append, bitsVal_replicate_zero, Nat.zero_mul, Nat.zero_add]
  have hfinal : ((finalBits .lsb lo).take (10 - hi.length)).length = lo.length := by
    rw [List.length_take, length_finalBits]
    omega
  rw [List.take_append, List.take_of_length_le (by omega), bitsVal_append, hfinal, bitsVal_take, hval, length_finalBits]
  congr 1
  rcases Nat.eq_zero_or_pos lo.length with hzero | hpos
  · rw [List.eq_nil_of_length_eq_zero hzero, bitsVal_nil, Nat.zero_div, Nat.zero_div]
  · congr 2
    rw [padCount]
    omega

/-- Under LSB the bits of the last code `c` that fill no whole byte are its low ones. -/
theorem packedBits_lsb_append (xs : List Code) (c : Code) :
    packedBits .lsb ((xs ++ [c]).flatMap bitsOf) =
      xs.flatMap bitsOf ++ ((bitsOf c).take (10 - 10 * (xs.length + 1) % 8) ++
        finalBits .lsb ((bitsOf c).drop (10 - 10 * (xs.length + 1) % 8))) := by
  have hlen : (xs.flatMap bitsOf).length = 10 * xs.length := length_flatMap_bitsOf xs
  have hwhole : 8 * ((xs.flatMap bitsOf ++ bitsOf c).length / 8) =
      (xs.flatMap bitsOf).length + (10 - 10 * (xs.length + 1) % 8) := by
    rw [List.length_append, hlen, bitsOf_length]
    omega
  rw [List.flatMap_append, List.flatMap_singleton, packedBits, hwhole, List.take_length_add_append,
    List.drop_length_add_append, List.append_assoc]

/-- Under LSB every code but the last comes back, and of the last the bits in whole bytes (44_block_codec R177 item 2). -/
theorem unpackedCodes_packedBytes_lsb (xs : List Code) (c : Code) :
    unpackedCodes (packedBytes .lsb (xs ++ [c])) = xs ++ [lsbCode (10 * (xs.length + 1) % 8) c] := by
  rw [unpackedCodes, flatMap_bitsOf_packedBytes, packedBits_lsb_append]
  generalize hnb : 10 * (xs.length + 1) % 8 = nb
  have hlo : ((bitsOf c).drop (10 - nb)).length = nb := by
    rw [List.length_drop, bitsOf_length]
    omega
  have hhi : ((bitsOf c).take (10 - nb)).length + nb = 10 := by
    rw [List.length_take, bitsOf_length]
    omega
  have hgroup : groupsOf 10 ((bitsOf c).take (10 - nb) ++ finalBits .lsb ((bitsOf c).drop (10 - nb))) =
      [((bitsOf c).take (10 - nb) ++ finalBits .lsb ((bitsOf c).drop (10 - nb))).take 10] := by
    have hlen : ((bitsOf c).take (10 - nb) ++ finalBits .lsb ((bitsOf c).drop (10 - nb))).length =
        10 + padCount nb 8 := by
      rw [List.length_append, length_finalBits, hlo, ← Nat.add_assoc, hhi]
    have hpad : padCount nb 8 < 8 := padCount_lt (by decide) nb
    rw [groupsOf_of_le (by decide) (by omega), groupsOf_of_lt (by rw [List.length_drop]; omega)]
  rw [groupsOf_flatMap_append (by decide) bitsOf_length, hgroup, List.map_append, List.map_map,
    funext (f := groupPat ∘ bitsOf) (g := id) groupPat_bitsOf, List.map_id, List.map_singleton, groupPat,
    bitsVal_take_lsb (hlo.symm ▸ hhi) (by omega), hlo, bitsVal_take, bitsVal_drop, bitsVal_bitsOf, bitsOf_length,
    show 10 - (10 - nb) = nb by omega]

/-- The codes survive packing under MSB, and under LSB where the last code has only zeros in the final byte
(44_block_codec R177). -/
theorem unpackedCodes_packedBytes {tail : PackTail} {codes : List Code}
    (h : tail = .msb ∨ ∀ c, codes.getLast? = some c → c.toNat % 2 ^ (10 * codes.length % 8) = 0) :
    unpackedCodes (packedBytes tail codes) = codes := by
  cases tail with
  | msb => exact unpackedCodes_packedBytes_msb codes
  | lsb =>
    obtain hmsb | hlast := h
    · cases hmsb
    · rcases List.eq_nil_or_concat' codes with rfl | ⟨xs, c, rfl⟩
      · rfl
      · rw [unpackedCodes_packedBytes_lsb, lsbCode_eq_self]
        simpa using hlast c

/-! ### The law -/

variable {s t u : State} {st : Staged}

/-- A command that commits a length within the capacity leaves it in the length register. -/
theorem EndsNormally.toNat_len (h : EndsNormally s t st) (hp : s.params.wf = true) {b : Buf} {n : Nat}
    (hlen : st.lens b = some (BitVec.ofNat 32 n)) (hcap : n ≤ s.params.cap b) : (t.data.len b).toNat = n := by
  rw [h.len, hlen]
  exact toNat_ofNat_of_le_cap hp hcap

/-- A command that commits a whole sequence of packed bytes and its length leaves it as the valid ones. -/
theorem EndsNormally.pkb_rewritten (h : EndsNormally s t st) (hp : s.params.wf = true) {bytes : List Byte} {n : Nat}
    (hpkb : st.pkb = some bytes) (hlen : st.lenPkb = some (BitVec.ofNat 32 n)) (hn : bytes.length = n)
    (hcap : n ≤ s.params.capPkb) : t.data.lenPkb.toNat = n ∧ t.data.pkbSeq = bytes := by
  have hl : t.data.lenPkb.toNat = n := h.toNat_len hp (b := .pkb) hlen hcap
  exact ⟨hl, h.pkbSeq_eq hpkb (hl.trans hn.symm)⟩

/-- A command that commits a whole sequence of codes and its length leaves it as the valid ones. -/
theorem EndsNormally.code_rewritten (h : EndsNormally s t st) (hp : s.params.wf = true) {codes : List Code} {n : Nat}
    (hcode : st.code = some codes) (hlen : st.lenCode = some (BitVec.ofNat 32 n)) (hn : codes.length = n)
    (hcap : n ≤ s.params.capCode) : t.data.lenCode.toNat = n ∧ t.data.codeSeq = codes := by
  have hl : t.data.lenCode.toNat = n := h.toNat_len hp (b := .code) hlen hcap
  exact ⟨hl, h.codeSeq_eq hcode (hl.trans hn.symm)⟩

/-- PACK that ends with STATUS 2 leaves the packed bytes of the valid codes (44_block_codec R172). -/
theorem Runs.pack_bytes (hr : Runs .pack s t) (hp : s.params.wf = true) (hstatus : t.status = 2) :
    t.params = s.params ∧ t.data.lenPkb.toNat = (10 * s.data.lenCode.toNat + 7) / 8 ∧
      t.data.pkbSeq = packedBytes s.params.packTail s.data.codeSeq := by
  obtain ⟨hfit, hends⟩ := hr.endsNormally_of_status hstatus (packRun_eq s.params s.data)
  obtain ⟨hlen, hseq⟩ :=
    hends.pkb_rewritten hp rfl rfl (by rw [length_packedBytes, Data.codeSeq_length]) hfit
  exact ⟨hends.params, hlen, hseq⟩

/-- Settles O53: UNPACK reads as many codes as there were, and `unpackedCodes_packedBytes` and its form for LSB say
which. -/
theorem unpackAfterPackRestoresCodes : Obligations.UnpackAfterPackRestoresCodes := by
  intro s t u hinv hpack hstatus hunpack
  obtain ⟨hparams, hlen, hseq⟩ := hpack.pack_bytes hinv.params hstatus
  have hcount : 8 * t.data.lenPkb.toNat / 10 = s.data.lenCode.toNat := by omega
  have hfit : 8 * t.data.lenPkb.toNat / 10 ≤ t.params.capCode := by
    rw [hcount, hparams]
    exact hinv.len .code
  have hends := hunpack.endsNormally ((unpackRun_eq t.params t.data).trans (if_pos hfit))
  obtain ⟨hlen', hseq'⟩ := hends.code_rewritten (hparams ▸ hinv.params) rfl rfl
    (by rw [length_unpackedCodes, Data.pkbSeq_length]) hfit
  rw [hseq] at hseq'
  refine ⟨hends.status, BitVec.eq_of_toNat_eq (hlen'.trans hcount), fun h => ?_, fun hlsb xs c hcodes => ?_⟩
  · rw [hseq', unpackedCodes_packedBytes]
    refine h.imp_right fun hfour c _ => ?_
    have hzero : 10 * s.data.codeSeq.length % 8 = 0 := by
      rw [Data.codeSeq_length]
      omega
    rw [hzero, pow_zero, Nat.mod_one]
  · have hlast : s.data.lenCode.toNat = xs.length + 1 := by rw [← Data.codeSeq_length, hcodes, List.length_append]; rfl
    rw [hseq', hlsb, hcodes, unpackedCodes_packedBytes_lsb, hlast]

end Sys2Proof.Machine
end

section
/-! BDECOMP after BCOMP: where the codes survive packing, the bytes come back (spec 44_block_codec R177 items 3 and 4). -/

namespace Sys2Proof.Machine

variable {p : Params} {d : Data} {m : Memory} {cs : List Code} {bits : List Bit}

/-! ### The patterns of the lowest codes -/

/-- The pattern of the code of a group is the group (44_block_codec R177 item 3). -/
theorem patBits_of_lowestCodes {gs : List (List Bit)} (h : LowestCodes m gs cs) (hlen : ∀ g ∈ gs, g.length = 10) :
    patBits m cs = gs.flatten := by
  induction h with
  | nil => rfl
  | cons hc _ ih =>
    obtain ⟨hg, hrest⟩ := List.forall_mem_cons.mp hlen
    obtain ⟨-, hpat, -⟩ := hc
    rw [patBits, List.flatMap_cons, hpat, bitsOf_bitsVal hg, List.flatten_cons, ← ih hrest]

/-- The patterns of BLKENC's codes are its bits with the zeros appended. -/
theorem patBits_of_blockGroups (h : LowestCodes m (blockGroups bits) cs) :
    patBits m cs = padZeros bits (padCount bits.length 10) := by
  have hdvd : 10 ∣ (padZeros bits (padCount bits.length 10)).length :=
    padZeros_length .. ▸ padCount_dvd (by decide) _
  rw [patBits_of_lowestCodes h fun _ hg => length_of_mem_groupsOf hg, blockGroups, flatten_groupsOf (by decide) hdvd]

theorem valid_of_lowestCodes {gs : List (List Bit)} (h : LowestCodes m gs cs) :
    ∀ c ∈ cs, (m.dictAt c.toNat).valid = true := by
  induction h with
  | nil => exact fun _ hc => by cases hc
  | cons hc _ ih =>
    obtain ⟨hvalid, -⟩ := hc
    exact List.forall_mem_cons.mpr ⟨hvalid, ih⟩

/-- With the identity dictionary the last code ends with the padding zeros, and no other bits of it are in the final byte
(44_block_codec R177 item 3). -/
theorem lastCode_of_identity (hid : ∀ c : Code, m.dictAt c.toNat = ⟨true, c⟩) (h : LowestCodes m (blockGroups bits) cs)
    (hbytes : 8 ∣ bits.length) (c : Code) (hc : cs.getLast? = some c) : c.toNat % 2 ^ (10 * cs.length % 8) = 0 := by
  obtain ⟨xs, rfl⟩ := List.getLast?_eq_some_iff.mp hc
  have hpat := patBits_of_blockGroups h
  have hlen : 10 * (xs ++ [c]).length = bits.length + padCount bits.length 10 := by
    rw [← length_patBits m, hpat, padZeros_length]
  have hpad : padCount bits.length 10 < 10 := padCount_lt (by decide) _
  have hval : bitsVal (patBits m xs) * 2 ^ 10 + c.toNat = bitsVal bits * 2 ^ padCount bits.length 10 := by
    have hsum := congrArg bitsVal hpat
    rwa [patBits, List.flatMap_append, List.flatMap_singleton, hid, padZeros, bitsVal_append, bitsVal_append, bitsVal_bitsOf,
      bitsOf_length, bitsVal_replicate_zero, List.length_replicate, Nat.add_zero] at hsum
  have hdvd : 2 ^ padCount bits.length 10 ∣ c.toNat :=
    (Nat.dvd_add_right ((pow_dvd_pow 2 hpad.le).mul_left _)).mp (hval ▸ Nat.dvd_mul_left _ _)
  exact Nat.mod_eq_zero_of_dvd ((pow_dvd_pow 2 (by omega)).trans hdvd)

/-- The bytes of the padded bits: eight padding zeros are one byte more, and fewer are none (44_block_codec R177 item 3). -/
theorem bytes_of_padded (bytes : List Byte) :
    (groupsOf 8 (padZeros (bytes.flatMap bitsOf) (padCount (8 * bytes.length) 10))).map groupByte =
      bytes ++ if bytes.length % 5 = 4 then [0] else [] := by
  rw [padZeros, groupsOf_flatMap_append (by decide) bitsOf_length, List.map_append, List.map_map,
    funext (f := groupByte ∘ bitsOf) (g := id) groupByte_bitsOf, List.map_id]
  congr 1
  split_ifs with h
  · have hpad : padCount (8 * bytes.length) 10 = 8 := by
      rw [padCount]
      omega
    rw [hpad]
    rfl
  · have hpad : padCount (8 * bytes.length) 10 < 8 := by
      rw [padCount]
      omega
    rw [groupsOf_of_lt (by rwa [List.length_replicate]), List.map_nil]

/-! ### What each command leaves for the next -/

/-- What BCOMP stages where it raises nothing (44_block_codec R175). -/
theorem bcompRun_staged {st : Staged} (h : bcompRun p d = .ok st) :
    ∃ cs, LowestCodes d.mem (blockGroups (d.bytSeq.flatMap bitsOf)) cs ∧ cs.length ≤ p.capCode ∧
      (10 * cs.length + 7) / 8 ≤ p.capPkb ∧ st = bcompStaged p d cs := by
  by_cases hbits : 8 * d.lenByt.toNat ≤ p.capBit
  · cases hcodes : blkencCodes p d.mem (d.bytSeq.flatMap bitsOf) with
    | error e =>
      rw [bcompRun_blkenc_error hbits hcodes] at h
      cases h
    | ok cs =>
      rw [bcompRun_eq hbits hcodes] at h
      split_ifs at h with hfit
      cases h
      exact ⟨cs, lowestCodes_of_blkencCodes hcodes, blkencCodes_length_le hcodes, hfit, rfl⟩
  · rw [bcompRun_ser_error (Nat.not_le.mp hbits)] at h
    cases h

/-- Valid codes whose patterns do not all fit raise CAPACITY (44_block_codec R174). -/
theorem blkdecBits_full (hvalid : ∀ c ∈ cs, (m.dictAt c.toNat).valid = true) (hfull : p.capBit < 10 * cs.length) :
    blkdecBits p m cs = .error ⟨.capacity, p.capBit / 10, 2⟩ := by
  have hlt : p.capBit / 10 < cs.length := by omega
  obtain ⟨xs, c, ys, rfl, hlen⟩ := exists_eq_append_cons hlt
  obtain ⟨hxs, hcys⟩ := List.forall_mem_append.mp hvalid
  rw [blkdecBits_capacity hxs (by omega) (hcys c List.mem_cons_self) (by omega), hlen]

/-- Where the codes are valid, BDECOMP succeeds or ends with CAPACITY (44_block_codec R176). -/
theorem bdecompRun_of_valid (p : Params) (hvalid : ∀ c ∈ unpackedCodes d.pkbSeq, (d.mem.dictAt c.toNat).valid = true) :
    (∃ pos val, bdecompRun p d = .error ⟨.capacity, pos, val⟩) ∨
      10 * (unpackedCodes d.pkbSeq).length / 8 ≤ p.capByt ∧ bdecompRun p d = .ok (bdecompStaged d) := by
  by_cases hcode : 8 * d.lenPkb.toNat / 10 ≤ p.capCode
  · by_cases hbit : 10 * (unpackedCodes d.pkbSeq).length ≤ p.capBit
    · rw [bdecompRun_eq hcode hvalid hbit]
      split_ifs with hbyt
      · exact .inr ⟨hbyt, rfl⟩
      · exact .inl ⟨_, _, rfl⟩
    · exact .inl ⟨_, _, bdecompRun_blkdec_error hcode rfl (blkdecBits_full hvalid (Nat.not_le.mp hbit))⟩
  · exact .inl ⟨_, _, bdecompRun_unpack_error (Nat.not_le.mp hcode)⟩

variable {s t u : State}

/-- BCOMP that ends with STATUS 2 leaves the lowest codes of the groups and their packed bytes, and DICT
(44_block_codec R175). -/
theorem Runs.bcomp_codes (hr : Runs .bcomp s t) (hp : s.params.wf = true) (hstatus : t.status = 2) :
    t.params = s.params ∧ (∀ c, t.data.mem.dictAt c = s.data.mem.dictAt c) ∧
      LowestCodes s.data.mem (blockGroups (s.data.bytSeq.flatMap bitsOf)) t.data.codeSeq ∧
      t.data.pkbSeq = packedBytes s.params.packTail t.data.codeSeq := by
  obtain ⟨st, hrun, hends⟩ := Machine.endsNormally_of_status rfl (hr.exec_issue (decode_encode .bcomp)) hstatus
  obtain ⟨cs, hcodes, hcode, hpkb, rfl⟩ := bcompRun_staged hrun
  obtain ⟨-, hcodeSeq⟩ := hends.code_rewritten hp rfl rfl rfl hcode
  obtain ⟨-, hpkbSeq⟩ := hends.pkb_rewritten hp rfl rfl (length_packedBytes _ cs) hpkb
  exact ⟨hends.params, hends.dict, hcodeSeq ▸ hcodes, hcodeSeq ▸ hpkbSeq⟩

/-- BDECOMP on packed bytes whose codes are valid, if it does not end with CAPACITY, leaves the bytes of the patterns
(44_block_codec R176). -/
theorem Runs.bdecomp_bytes (hr : Runs .bdecomp s t) (hp : s.params.wf = true) (hcode : t.errCode ≠ 3)
    (hvalid : ∀ c ∈ unpackedCodes s.data.pkbSeq, (s.data.mem.dictAt c.toNat).valid = true) :
    t.status = 2 ∧
      t.data.bytSeq = (groupsOf 8 (patBits s.data.mem (unpackedCodes s.data.pkbSeq))).map groupByte := by
  obtain ⟨pos, val, hrun⟩ | ⟨hfit, hrun⟩ := bdecompRun_of_valid s.params hvalid
  · exact absurd (hr.endsInError hrun).errCode hcode
  · have hends := hr.endsNormally hrun
    obtain ⟨-, hseq⟩ := hends.byt_rewritten hp rfl rfl (by rw [List.length_map, groupsOf_length, length_patBits]) hfit
    exact ⟨hends.status, hseq⟩

/-- Settles O54: BCOMP's codes survive packing in each of the three cases, their patterns are the padded bits of the bytes,
and DESER reads the bytes back, with one of zeros where eight were appended. -/
theorem bdecompAfterBcompRestoresBytes : Obligations.BdecompAfterBcompRestoresBytes := by
  intro s t u hinv hbcomp hstatus hbdecomp hcode hcases
  obtain ⟨hparams, hdict, hcodes, hpkb⟩ := hbcomp.bcomp_codes hinv.params hstatus
  have hbits : (s.data.bytSeq.flatMap bitsOf).length = 8 * s.data.bytSeq.length := length_flatMap_bitsOf _
  have hsurvive : unpackedCodes t.data.pkbSeq = t.data.codeSeq := by
    rw [hpkb]
    refine unpackedCodes_packedBytes (hcases.imp_right fun h => ?_)
    obtain hid | hlast := h
    · exact lastCode_of_identity hid hcodes (hbits ▸ Nat.dvd_mul_right 8 _)
    · rwa [Data.codeSeq_length]
  have hvalid : ∀ c ∈ unpackedCodes t.data.pkbSeq, (t.data.mem.dictAt c.toNat).valid = true := by
    rw [hsurvive]
    exact fun c hc => hdict c.toNat ▸ valid_of_lowestCodes hcodes c hc
  have hpat : patBits t.data.mem t.data.codeSeq = patBits s.data.mem t.data.codeSeq := by simp only [patBits, hdict]
  obtain ⟨hdone, hseq⟩ := hbdecomp.bdecomp_bytes (hparams ▸ hinv.params) hcode hvalid
  refine ⟨hdone, ?_⟩
  rw [hseq, hsurvive, hpat, patBits_of_blockGroups hcodes, hbits, bytes_of_padded, Data.bytSeq_length]

end Sys2Proof.Machine
end

section
/-! Under PACK_TAIL = LSB the last code can come back as one that DICT does not have (spec 44_block_codec R177, log 18). -/

namespace Sys2Proof.Machine

/-- A small build with PACK_TAIL = LSB that meets 00_scope R6. -/
def lsbBuild : Params where
  capByt := 1
  capBit := 10
  capSym := 1
  capChr := 1
  capCode := 1
  capPkb := 2
  normCtrl := (List.replicate 18 48#8).set 10 32#8
  normLinOffset := 16
  chunkRev := chunkRevLowest
  packTail := .lsb
  base := 0

/-- The idle block with one byte 0x00. Its group of zeros has the code 1, whose one 1 bit goes into the final partial byte;
the code 0, which comes back, has no entry. -/
def losesLastCode : State :=
  { State.resetWith lsbBuild with
    data := { Data.afterReset 0 with
      lenByt := 1
      mem := { Memory.afterReset 0 with byt := [(0, 0#8)], dict := [(1, ⟨true, 0⟩)] } } }

theorem inv_losesLastCode : Inv losesLastCode where
  params := by decide
  mem := by decide
  within := by decide
  len b := by cases b <;> decide
  engine := ⟨rfl, .inl rfl⟩
  errors := by decide

/-- On an idle block every command runs: its meaning answers a next state. -/
theorem exists_runs (i : Instr) {s : State} (hidle : s.engine = .idle) : ∃ t, Runs i s t := by
  have hfetch : ((s.issue (encode i)).withEvent .engine).fetch = .command i := by
    simp [State.fetch, State.withEvent, decode_encode]
  exact ⟨_, hidle, (step_engine_command rfl hfetch).trans (exec_eq i _)⟩

/-- BCOMP's one code on this machine is 1. -/
theorem bcompRun_losesLastCode :
    bcompRun losesLastCode.params losesLastCode.data = .ok (bcompStaged losesLastCode.params losesLastCode.data [1]) := by
  have hcodes : LowestCodes losesLastCode.data.mem (blockGroups (losesLastCode.data.bytSeq.flatMap bitsOf)) [1] :=
    .cons (by decide) .nil
  rw [bcompRun_eq (by decide) (blkencCodes_ok hcodes (by decide)), if_pos (by decide)]

/-- Settles O55: BCOMP packs the code 1 as the bytes 0x00 and 0x01, UNPACK reads them as the code 0, and BLKDEC finds no
entry for it. -/
theorem lsbTailCanLoseTheLastCode : Obligations.LsbTailCanLoseTheLastCode := by
  obtain ⟨t, hbcomp⟩ := exists_runs .bcomp (s := losesLastCode) rfl
  have hends := hbcomp.endsNormally bcompRun_losesLastCode
  obtain ⟨hlen, hseq⟩ := hends.pkb_rewritten inv_losesLastCode.params rfl rfl (by decide) (by decide)
  have hparams : t.params = lsbBuild := hends.params
  obtain ⟨u, hbdecomp⟩ := exists_runs .bdecomp hends.engine
  have hcodes : unpackedCodes t.data.pkbSeq = [] ++ 0 :: [] := by
    rw [hseq]
    decide
  have hnone : (t.data.mem.dictAt (0 : Code).toNat).valid = false := by
    rw [hends.dict]
    decide
  have hrun : bdecompRun t.params t.data = .error ⟨.dictLookup, 0, 0⟩ :=
    bdecompRun_blkdec_error (by rw [hlen, hparams]; decide) hcodes (blkdecBits_dictLookup nofun (Nat.zero_le _) hnone)
  have hends' := hbdecomp.endsInError hrun
  exact ⟨losesLastCode, t, u, inv_losesLastCode, rfl, hbcomp, hends.status, hbdecomp, hends'.status, hends'.errCode⟩

end Sys2Proof.Machine
end

section
/-! How commands end: in every state one of two ends, and what an abort request can change of it (spec 60_exceptions R205,
R206, R208, R212). -/

namespace Sys2Proof.Machine

variable {s t : State}

/-! ### The two ends -/

/-- The free value that an abort request uses shows nowhere in an error end (log 7). -/
theorem EndsInError.of_draw {code : ErrCode} {pos val : Nat} (h : EndsInError s.draw t code pos val) :
    EndsInError s t code pos val := { h with }

/-- The free value that an abort request uses shows nowhere in a normal end (log 7). -/
theorem EndsNormally.of_draw {st : Staged} (h : EndsNormally s.draw t st) : EndsNormally s t st := { h with }

/-- Every command, in every state, fails with its own error or with the abort that was requested, or completes with what it
staged. -/
theorem exec_ends (i : Instr) (s : State) :
    (∃ e, (runOf i s.params s.operands = .error e ∨ s.abortReq = true ∧ e = ⟨.aborted, 0, 0⟩) ∧
      Fails i s e.code e.pos e.val) ∨
      ∃ st, runOf i s.params s.operands = .ok st ∧ Completes i s st := by
  obtain ⟨u, hu, e, he, heq⟩ | ⟨u, hu, st, hst, heq⟩ := State.finish_cases s (runOf i s.params s.operands)
  · refine .inl ⟨e, he, u.endErr e, (exec_eq i s).trans (congrArg _ heq), ?_⟩
    obtain rfl | rfl := hu
    · exact u.endErr_endsInError e
    · exact (s.draw.endErr_endsInError e).of_draw
  · refine .inr ⟨st, hst, u.endOk st, (exec_eq i s).trans (congrArg _ heq), ?_⟩
    obtain rfl | rfl := hu
    · exact u.endOk_endsNormally st
    · exact (s.draw.endOk_endsNormally st).of_draw

/-- ERR_CODE after an error end is one of the codes of 60_exceptions R200. -/
theorem EndsInError.errCode_range {code : ErrCode} {pos val : Nat} (h : EndsInError s t code pos val) :
    1 ≤ t.errCode.toNat ∧ t.errCode.toNat ≤ 6 := by
  have hrange := errCodeNumber_range code
  rw [h.errCode, BitVec.toNat_ofNat]
  omega

/-- Settles O18: a command fails or completes (`exec_ends`), and each end says its frame. -/
theorem everyCommandCommitsAllOrNothing : Obligations.EveryCommandCommitsAllOrNothing := by
  intro i s
  obtain ⟨e, -, t, hexec, h⟩ | ⟨st, -, t, hexec, h⟩ := exec_ends i s
  · obtain ⟨hlow, hhigh⟩ := h.errCode_range
    exact ⟨t, hexec, h.engine, h.abortReq, h.cmd, h.params, h.inbox, h.replies, .inr ⟨h.status, hlow, hhigh, h.data⟩⟩
  · exact ⟨t, hexec, h.engine, h.abortReq, h.cmd, h.params, h.inbox, h.replies,
      .inl ⟨h.status, h.errCode, h.errPos, h.errVal⟩⟩

/-! ### An abort request -/

/-- With an abort requested a free value is used, and the command ends with ABORTED(0, 0) or with its own outcome
(60_exceptions R212). -/
theorem State.finish_of_abort (h : s.abortReq = true) (r : Except Raise Staged) :
    s.finish r = s.draw.endErr ⟨.aborted, 0, 0⟩ ∨ s.finish r = s.draw.complete r := by
  rw [State.finish, if_pos h]
  split
  · exact .inl rfl
  · exact .inr rfl

/-- The end of a command overwrites ABORT_REQ and leaves the counter of free values alone. -/
theorem State.complete_draw (s : State) (r : Except Raise Staged) :
    s.draw.complete r = { { s with abortReq := false }.complete r with draws := s.draws + 1 } := by
  cases r <;> rfl

/-- Settles O22: an abort that is taken is an error end, and one that is not leaves the end of the run without the request
(`State.complete_draw`). -/
theorem abortHasExactlyTwoOutcomes : Obligations.AbortHasExactlyTwoOutcomes := by
  intro i s habort
  refine ⟨_, _, exec_eq i s, exec_eq i { s with abortReq := false }, ?_⟩
  rw [State.finish_of_no_abort (s := { s with abortReq := false }) rfl]
  obtain heq | heq := State.finish_of_abort habort (runOf i s.params s.operands)
  · exact .inl (heq ▸ (s.draw.endErr_endsInError _).of_draw)
  · refine .inr ?_
    rw [heq, State.complete_draw]
    rfl

end Sys2Proof.Machine
end

section
/-! Which error each command can raise, the whole table of spec 60_exceptions R204. -/

namespace Sys2Proof.Machine

/-- The commands that look something up: a token, a character, a pattern or a code. -/
abbrev lookupCommands : List Instr := [.cdec, .senc, .sdec, .blkenc, .blkdec, .bcomp, .bdecomp]

/-- The errors that a command's own pseudocode can raise: its row of 60_exceptions R204 but for ABORTED. -/
inductive CanRaise (i : Instr) : Raise → Prop
  | invalidInput {pos val : Nat} (h : i ∈ [Instr.valid, .a2b]) : CanRaise i ⟨.invalidInput, pos, val⟩
  | dictLookup {pos val : Nat} (h : i ∈ lookupCommands) : CanRaise i ⟨.dictLookup, pos, val⟩
  | capacity {pos : Nat} {b : Buf} (h : b ∈ capacityBufs i) : CanRaise i ⟨.capacity, pos, bufId b⟩
  | padRange {pos val : Nat} (h : i = .trim) : CanRaise i ⟨.padRange, pos, val⟩

variable {α σ : Type} {i : Instr} {p : Params} {d : Data} {e : Raise}

/-! ### `emit` and the loops -/

theorem emit_canRaise {b : Buf} (hb : b ∈ capacityBufs i) {pos : Nat} {out : List α} {x : α}
    (h : emit p b pos out x = .error e) : CanRaise i e := by
  unfold emit at h
  split at h
  · cases h
    exact .capacity hb
  · cases h

theorem emitAll_canRaise {b : Buf} (hb : b ∈ capacityBufs i) {pos : Nat} {out xs : List α}
    (h : emitAll p b pos out xs = .error e) : CanRaise i e := by
  rw [emitAll_eq] at h
  split at h
  · cases h
  · cases h
    exact .capacity hb

/-- A loop raises what one of its turns raises. -/
theorem forEach_error {body : Nat → α → σ → Except Raise σ} {P : Raise → Prop}
    (hb : ∀ k x st e, body k x st = .error e → P e) {xs : List α} {k : Nat} {st : σ}
    (h : forEach body k xs st = .error e) : P e := by
  induction xs generalizing k st with
  | nil => cases h
  | cons x rest ih =>
    unfold forEach at h
    split at h
    · exact ih h
    · next hx =>
      cases h
      exact hb _ _ _ _ hx

/-- A tokenization raises DICT_LOOKUP, or what one of its actions raises. -/
theorem tokenLoop_canRaise (hi : i ∈ lookupCommands) {keys : List (List Byte)}
    {act : Nat → List Byte → σ → Except Raise σ} (ha : ∀ k x st e, act k x st = .error e → CanRaise i e) {s : List Byte}
    {pos skip : Nat} {st : σ} (h : tokenLoop keys act pos skip s st = .error e) : CanRaise i e := by
  induction s generalizing pos skip st with
  | nil => cases h
  | cons c rest ih =>
    cases skip with
    | succ skip => exact ih h
    | zero =>
      unfold tokenLoop at h
      split at h
      · cases h
        exact .dictLookup hi
      · split at h
        · exact ih h
        · next hx =>
          cases h
          exact ha _ _ _ _ hx

/-! ### The parts that the commands share -/

theorem serBits_canRaise (hb : .bit ∈ capacityBufs i) {bytes : List Byte} (h : serBits p bytes = .error e) :
    CanRaise i e :=
  forEach_error (fun _ _ _ _ => emitAll_canRaise hb) h

theorem deserBytes_canRaise (hb : .byt ∈ capacityBufs i) {bits : List Bit} (h : deserBytes p bits = .error e) :
    CanRaise i e :=
  forEach_error (fun _ _ _ _ => emit_canRaise hb) h

theorem blkencCodes_canRaise (hi : i ∈ lookupCommands) (hb : .code ∈ capacityBufs i) {m : Memory} {bits : List Bit}
    (h : blkencCodes p m bits = .error e) : CanRaise i e := by
  refine forEach_error (fun j g out e hg => ?_) h
  unfold blkencGroup at hg
  split at hg
  · cases hg
    exact .dictLookup hi
  · exact emit_canRaise hb hg

theorem blkdecBits_canRaise (hi : i ∈ lookupCommands) (hb : .bit ∈ capacityBufs i) {m : Memory} {codes : List Code}
    (h : blkdecBits p m codes = .error e) : CanRaise i e := by
  refine forEach_error (fun j c out e hc => ?_) h
  unfold blkdecCode at hc
  split at hc
  · cases hc
    exact .dictLookup hi
  · exact emitAll_canRaise hb hc

theorem packDrain_canRaise (hb : .pkb ∈ capacityBufs i) {pos fuel : Nat} {a : PackAcc}
    (h : packDrain p pos fuel a = .error e) : CanRaise i e := by
  induction fuel generalizing a with
  | zero => cases h
  | succ fuel ih =>
    unfold packDrain at h
    split at h
    · split at h
      · exact ih h
      · next hemit =>
        cases h
        exact emit_canRaise hb hemit
    · cases h

theorem packCode_canRaise (hb : .pkb ∈ capacityBufs i) {j : Nat} {c : Code} {a : PackAcc}
    (h : packCode p j c a = .error e) : CanRaise i e := by
  unfold packCode at h
  split at h
  · cases h
  · next hdrain =>
    cases h
    exact packDrain_canRaise hb hdrain

theorem packTail_canRaise (hb : .pkb ∈ capacityBufs i) {pos : Nat} {a : PackAcc} (h : packTail p pos a = .error e) :
    CanRaise i e := by
  unfold packTail at h
  split at h
  · split at h
    · exact emit_canRaise hb h
    · exact emit_canRaise hb h
  · cases h

theorem packBytes_canRaise (hb : .pkb ∈ capacityBufs i) {codes : List Code} (h : packBytes p codes = .error e) :
    CanRaise i e := by
  unfold packBytes at h
  split at h
  · exact packTail_canRaise hb h
  · next hloop =>
    cases h
    exact forEach_error (fun _ _ _ _ => packCode_canRaise hb) hloop

theorem unpackByte_canRaise (hb : .code ∈ capacityBufs i) {j : Nat} {b : Byte} {a : UnpackAcc}
    (h : unpackByte p j b a = .error e) : CanRaise i e := by
  unfold unpackByte at h
  simp only at h
  split at h
  · split at h
    · cases h
    · next hemit =>
      cases h
      exact emit_canRaise hb hemit
  · cases h

theorem unpackCodes_canRaise (hb : .code ∈ capacityBufs i) {bytes : List Byte} (h : unpackCodes p bytes = .error e) :
    CanRaise i e := by
  unfold unpackCodes at h
  split at h
  · cases h
  · next hloop =>
    cases h
    exact forEach_error (fun _ _ _ _ => unpackByte_canRaise hb) hloop

/-! ### The commands -/

theorem trimRun_canRaise (h : trimRun d = .error e) : CanRaise .trim e := by
  unfold trimRun at h
  split at h
  · cases h
    exact .padRange rfl
  · cases h

theorem validByte_canRaise {j : Nat} {b : Byte}
    (h : (if printable b then .ok () else .error ⟨.invalidInput, j, b.toNat⟩ : Except Raise Unit) = .error e) :
    CanRaise .valid e := by
  split at h
  · cases h
  · cases h
    exact .invalidInput (by decide)

theorem a2bChar_canRaise {j : Nat} {c : Byte} {out : List Bit} (h : a2bChar p j c out = .error e) : CanRaise .a2b e := by
  unfold a2bChar at h
  split at h
  · exact emit_canRaise (b := .bit) (by decide) h
  · split at h
    · exact emit_canRaise (b := .bit) (by decide) h
    · cases h
      exact .invalidInput (by decide)

theorem sdecChar_canRaise {j : Nat} {ch : Byte} {out : List Byte} (h : sdecChar p j ch out = .error e) :
    CanRaise .sdec e := by
  unfold sdecChar at h
  split at h
  · cases h
    exact .dictLookup (by decide)
  · exact emitAll_canRaise (b := .sym) (by decide) h

theorem bcompRun_canRaise (h : bcompRun p d = .error e) : CanRaise .bcomp e := by
  unfold bcompRun at h
  split at h
  · next hser =>
    cases h
    exact serBits_canRaise (by decide) hser
  · split at h
    · next hblkenc =>
      cases h
      exact blkencCodes_canRaise (by decide) (by decide) hblkenc
    · split at h
      · next hpack =>
        cases h
        exact packBytes_canRaise (by decide) hpack
      · cases h

theorem bdecompRun_canRaise (h : bdecompRun p d = .error e) : CanRaise .bdecomp e := by
  unfold bdecompRun at h
  split at h
  · next hunpack =>
    cases h
    exact unpackCodes_canRaise (by decide) hunpack
  · split at h
    · next hblkdec =>
      cases h
      exact blkdecBits_canRaise (by decide) (by decide) hblkdec
    · split at h
      · next hdeser =>
        cases h
        exact deserBytes_canRaise (by decide) hdeser
      · cases h

/-- Where no length exceeds its capacity, every command raises only the errors of its row. All but NORM, REMAP, TRIM, BCOMP
and BDECOMP stage what one computation answers, and raise what it raises. -/
theorem runOf_canRaise (hd : ∀ b, (d.len b).toNat ≤ p.cap b) (h : runOf i p d = .error e) : CanRaise i e := by
  cases i
  case norm => cases (normRun_ok (hd .byt)).symm.trans h
  case remap => cases (remapRun_ok (hd .byt)).symm.trans h
  case trim => exact trimRun_canRaise h
  case bcomp => exact bcompRun_canRaise h
  case bdecomp => exact bdecompRun_canRaise h
  all_goals
    simp only [runOf, validRun, serRun, padRun, deserTruncRun, deserPadbRun, a2bRun, b2aRun, cencRun, cdecRun, sencRun,
      sdecRun, packRun, unpackRun, blkencRun, blkdecRun] at h
    split at h
    · cases h
    rename_i hr
    cases h
  · exact forEach_error (P := CanRaise .valid) (fun _ _ _ _ => validByte_canRaise) hr
  · exact serBits_canRaise (i := .ser) (by decide) hr
  · exact deserBytes_canRaise (i := .deserTrunc) (by decide) hr
  · exact deserBytes_canRaise (i := .deserPadb) (by decide) hr
  · exact emitAll_canRaise (i := .pad8) (b := .bit) (by decide) hr
  · exact emitAll_canRaise (i := .pad5) (b := .bit) (by decide) hr
  · exact emitAll_canRaise (i := .pad10) (b := .bit) (by decide) hr
  · exact forEach_error (P := CanRaise .a2b) (fun _ _ _ _ => a2bChar_canRaise) hr
  · exact forEach_error (P := CanRaise .b2a) (fun _ _ _ _ => emit_canRaise (b := .byt) (by decide)) hr
  · exact forEach_error (P := CanRaise .cenc) (fun _ _ _ _ => emitAll_canRaise (b := .sym) (by decide)) hr
  · exact tokenLoop_canRaise (i := .cdec) (by decide) (fun _ _ _ _ => emitAll_canRaise (b := .bit) (by decide)) hr
  · exact tokenLoop_canRaise (i := .senc) (by decide) (fun _ _ _ _ => emit_canRaise (b := .chr) (by decide)) hr
  · exact forEach_error (P := CanRaise .sdec) (fun _ _ _ _ => sdecChar_canRaise) hr
  · exact packBytes_canRaise (i := .pack) (by decide) hr
  · exact unpackCodes_canRaise (i := .unpack) (by decide) hr
  · exact blkencCodes_canRaise (i := .blkenc) (by decide) (by decide) hr
  · exact blkdecBits_canRaise (i := .blkdec) (by decide) (by decide) hr

/-- Settles O23: a command that ends with STATUS 6 was aborted or raised an error of its row (`runOf_canRaise`). -/
theorem commandsEndOnlyWithTheirErrors : Obligations.CommandsEndOnlyWithTheirErrors := by
  intro i s t hinv hexec hstatus
  obtain ⟨e, he, hfails⟩ | ⟨st, -, hcompletes⟩ := exec_ends i s
  · have hends := hfails.ends hexec
    rw [hends.errCode, hends.errVal]
    obtain hrun | ⟨habort, rfl⟩ := he
    · rw [hinv.operands_eq] at hrun
      cases runOf_canRaise hinv.len hrun with
      | invalidInput hi => exact .inr (.inl ⟨rfl, hi⟩)
      | dictLookup hi => exact .inr (.inr (.inl ⟨rfl, hi⟩))
      | capacity hb => exact .inr (.inr (.inr (.inl ⟨rfl, _, hb, rfl⟩)))
      | padRange hi => exact .inr (.inr (.inr (.inr ⟨rfl, hi⟩)))
    · exact .inl ⟨habort, rfl⟩
  · exact absurd ((hcompletes.ends hexec).status.symm.trans hstatus) (by decide)

end Sys2Proof.Machine
end

section
/-! What the host sees while a command runs, and that the command ends (spec 70_reset_and_hazards R240, R241, R245). -/

namespace Sys2Proof.Machine

variable {s t : State} {w : Word} {snapshot : Data}

/-! ### Host writes while a command runs -/

/-- Settles O7: CTRL lies at offset 8 alone (`locate_eq_ctrl`), and a busy engine ignores a write to anything else. -/
theorem busyEngineIgnoresWrites : Obligations.BusyEngineIgnoresWrites := by
  intro s w snapshot off v hb he ho hctrl
  rw [step_withWrite hb ho, State.hostWrite_of_busy he (mt locate_eq_ctrl.mp hctrl)]

/-! ### Host reads while a command runs -/

/-- What a read cannot rely on while a command runs: what the row of the command lists as written (30_encoding R74; log 6). -/
theorem State.unreliable_iff_of_command {i : Instr} (hf : s.fetch = .command i) (l : Loc) :
    s.unreliable l = true ↔ ∃ d, destOf s.params l = some d ∧ d ∈ writesOf i := by
  rw [State.unreliable, hf]
  cases destOf s.params l <;> simp

theorem State.hostRead_of_unreliable {l : Loc} (h : s.unreliable l = true) :
    s.hostRead l = s.draw.reply (((Config.busyRead s.draws).setWidth (widthOf l)).setWidth 32) := by
  rw [State.hostRead, if_pos h]

theorem State.hostRead_of_reliable {l : Loc} (h : ¬ s.unreliable l = true) : s.hostRead l = s.reply (s.committed l) := by
  rw [State.hostRead, if_neg h]

/-- A word cut to `k` bits has a value of `k` bits. -/
theorem toNat_setWidth_setWidth_lt (v : Word) (k : Nat) : ((v.setWidth k).setWidth 32).toNat < 2 ^ k := by
  rw [BitVec.toNat_setWidth]
  exact (Nat.mod_le _ _).trans_lt (v.setWidth k).isLt

/-- Settles O15: which of the two answers a read gives turns on the writes column (`State.unreliable_iff_of_command`). -/
theorem busyReadsAnswerWhatIsNotWritten : Obligations.BusyReadsAnswerWhatIsNotWritten := by
  intro s w snapshot i off hb he hd ho
  have hunreliable := State.unreliable_iff_of_command (State.fetch_of_decode_ok he hd) (locate off)
  rw [step_withRead hb ho]
  refine ⟨fun hnot => ?_, fun d hdest hmem => ?_⟩
  · have hreliable : ¬ s.unreliable (locate off) = true := fun h =>
      let ⟨d, hdest, hmem⟩ := hunreliable.mp h
      hnot d hdest hmem
    rw [State.hostRead_of_reliable hreliable]
    rfl
  · rw [State.hostRead_of_unreliable (hunreliable.mpr ⟨d, hdest, hmem⟩)]
    exact ⟨_, toNat_setWidth_setWidth_lt (Config.busyRead s.draws) _, rfl⟩

/-! ### One event while a command runs -/

/-- The engine is idle in `t`, or the command in flight in `s` still runs there with the same events listed. -/
def EndedOrPending (s t : State) : Prop := t.engine = .idle ∨ (t.engine = s.engine ∧ t.inbox = s.inbox)

/-- A write to CTRL abandons the command in flight or lets it run on (10_state R24). -/
theorem State.writeCtrl_endedOrPending (he : s.engine = .busy w snapshot) (v : Word) : EndedOrPending s (s.writeCtrl v) := by
  cases hsrst : v.getLsbD 1 with
  | true =>
    rw [State.writeCtrl_of_srst hsrst]
    exact .inl rfl
  | false =>
    rw [State.writeCtrl_of_busy hsrst he]
    split <;> exact .inr ⟨rfl, rfl⟩

/-- An aligned word at the address of CTRL is CTRL, wherever the window lies. -/
theorem State.access_ctrl (ha : (s.params.base + 8) % 4 = 0) (v : Word) :
    s.access (.write (s.params.base + 8) 4 v) = .next (s.writeCtrl v) := by
  have haligned : (Access.write (s.params.base + 8) 4 v).aligned = true := beq_of_eq ha
  rw [State.access, inWindow_of_offset (off := 8) (by decide) rfl rfl, haligned]
  show Host.Outcome.next (s.hostWrite (locate (s.params.base + 8 - s.params.base)) v) = _
  rw [Nat.add_sub_cancel_left, locate_eq_ctrl.mpr rfl, State.hostWrite, if_pos rfl]

/-- An access to an aligned word is not refused, and ends the command in flight or lets it run on. -/
theorem State.access_endedOrPending (he : s.engine = .busy w snapshot) {a : Access} (hbytes : a.bytes = 4)
    (haddr : a.addr % 4 = 0) : ∃ t, s.access a = .next t ∧ EndedOrPending s t := by
  by_cases hctrl : ∃ v, a = .write (s.params.base + 8) 4 v
  · obtain ⟨v, rfl⟩ := hctrl
    exact ⟨_, State.access_ctrl haddr v, State.writeCtrl_endedOrPending he v⟩
  · have hoff : AlignedOffCtrl s.params a := by
      refine ⟨hbytes, haddr, ?_⟩
      rintro b n v rfl rfl
      obtain rfl : n = 4 := hbytes
      exact hctrl ⟨v, rfl⟩
    obtain ⟨r, n, h⟩ := State.access_of_busy he hoff
    exact ⟨_, h, .inr ⟨rfl, rfl⟩⟩

/-- The engine's turn ends whatever is in flight, an illegal word or a command (R245; log 2). -/
theorem step_engine_idle (hn : s.nextEvent = .engine) (he : s.engine = .busy w snapshot) :
    ∃ t, step s = .next t ∧ t.engine = .idle := by
  cases hd : decode w with
  | error e => exact ⟨_, step_engine_illegal hn (State.fetch_of_decode_error he hd), rfl⟩
  | ok i =>
    exact ⟨_, (step_engine_command hn (State.fetch_of_decode_ok he hd)).trans (exec_eq i _), (State.finish_idle _ _).1⟩

/-! ### The run to the end of the command -/

/-- Within `n` steps the engine is idle. -/
def IdleWithin (n : Nat) (s : State) : Prop := ∃ k t, k ≤ n ∧ Sys2Proof.core.run k s = .next t ∧ t.engine = .idle

theorem idleWithin_of_idle (n : Nat) (h : s.engine = .idle) : IdleWithin n s := ⟨0, s, n.zero_le, rfl, h⟩

theorem IdleWithin.of_step {n : Nat} (hstep : step s = .next t) (h : IdleWithin n t) : IdleWithin (n + 1) s := by
  obtain ⟨k, u, hk, hrun, hidle⟩ := h
  exact ⟨k + 1, u, Nat.succ_le_succ hk, (run_succ hstep k).trans hrun, hidle⟩

theorem State.nextEvent_of_inbox_cons {e : Event} {es : List Event} (h : s.inbox = e :: es) : s.nextEvent = e := by
  rw [State.nextEvent, h]
  rfl

/-- Settles O60, by induction on the events listed: an access ends the command or leaves one event less, every other event
ends it, and with nothing listed the engine has its turn. -/
theorem everyCommandEnds : Obligations.EveryCommandEnds := by
  intro s w snapshot he has
  show IdleWithin (s.inbox.length + 1) s
  induction hes : s.inbox generalizing s with
  | nil =>
    obtain ⟨t, hstep, hidle⟩ := step_engine_idle (State.nextEvent_of_inbox_nil hes) he
    exact .of_step hstep (idleWithin_of_idle _ hidle)
  | cons e es ih =>
    have hn := State.nextEvent_of_inbox_cons hes
    cases e with
    | engine =>
      obtain ⟨t, hstep, hidle⟩ := step_engine_idle hn he
      exact .of_step hstep (idleWithin_of_idle _ hidle)
    | hardReset => exact .of_step (step_hardReset hn) (idleWithin_of_idle _ rfl)
    | access a =>
      rw [hes] at has
      obtain ⟨hbytes, haddr⟩ := has a List.mem_cons_self
      obtain ⟨t, haccess, hidle | ⟨hengine, hinbox⟩⟩ := State.access_endedOrPending (s := s.pop) he hbytes haddr
      · exact .of_step ((step_access hn).trans haccess) (idleWithin_of_idle _ hidle)
      · have hes' : t.inbox = es := by rw [hinbox, State.pop_inbox, hes, List.tail_cons]
        refine .of_step ((step_access hn).trans haccess) (ih t (hengine.trans he) (fun b hmem => ?_) hes')
        exact has b (List.mem_cons_of_mem _ (hes' ▸ hmem))

end Sys2Proof.Machine
end
